-- ==== Sys2Proof/Word.lean ====
section
/-! DEFINITION. The bit widths of the block's data (00_scope.md R5, 30_encoding.md R84). -/

namespace Sys2Proof

/-- An 8-bit byte of a stream or buffer, bit 7 the most significant (00_scope.md R5, R7). -/
abbrev Octet := BitVec 8

/-- A width, a height or any other 32-bit unsigned value (00_scope.md R5, `XLEN_DIM` = 32). -/
abbrev Dim := BitVec 32

/-- A word of the command port (30_encoding.md R84). -/
abbrev CommandWord := BitVec 80

end Sys2Proof
end

