-- ==== Sys2Proof/Syntax.lean ====
section
/-! DEFINITION. The instructions: one constructor per row of spec/opcode_table.json, the sixteen commands
of the command port (30_encoding.md R85) and the seven octet classes of the wire format (R80). -/

namespace Sys2Proof

/-- `color_kind`: the two sample shapes (30_encoding.md R91). -/
inductive ColorKind where
  /-- one luminance byte a pixel (`k` = 0) -/
  | luma8
  /-- four bytes a pixel: red, green, blue, alpha (`k` = 1) -/
  | rgba8
deriving DecidableEq, Repr

/-- The field of the wire format an octet belongs to (30_encoding.md R70, R77, R80). -/
inductive Field where
  | typeField
  | fixHeader
  | width
  | height
  /-- the one integer of a `VLDEC` command, encoded as Width and Height are (40_vle.md R100) -/
  | value
  | pixelData
deriving DecidableEq, Repr

/-- Where an encoded instruction is found: a word of the command port, or an octet of the source at a field
(30_encoding.md, opening paragraph: the block decodes two things). -/
inductive Port where
  | command
  | source (f : Field)
deriving DecidableEq, Repr

/-- Every row of spec/opcode_table.json. -/
inductive Instr where
  /-- `DEC_NEW` (45_orchestration.md R196) -/
  | decNew
  /-- `DIMS` (45_orchestration.md R199) -/
  | dims
  /-- `RDIMG` (45_orchestration.md R201) -/
  | rdimg
  /-- `ENC_NEW` (45_orchestration.md R203) -/
  | encNew
  /-- `SETTHR t` (45_orchestration.md R205) -/
  | setthr (t : Octet)
  /-- `ENCODE.L w, h` (45_orchestration.md R207) -/
  | encodeL (w h : Dim)
  /-- `ENCODE.C w, h` (45_orchestration.md R207) -/
  | encodeC (w h : Dim)
  /-- `RDHDR` (41_header.md R121) -/
  | rdhdr
  /-- `WRHDR w, h` (41_header.md R126) -/
  | wrhdr (w h : Dim)
  /-- `UNPACK w, h` (42_unpack.md R141) -/
  | unpack (w h : Dim)
  /-- `PACK.L w, h, t` (44_pack.md R176) -/
  | packL (w h : Dim) (t : Octet)
  /-- `PACK.C w, h, t` (44_pack.md R176) -/
  | packC (w h : Dim) (t : Octet)
  /-- `VLDEC` (40_vle.md R101) -/
  | vldec
  /-- `VLENC v` (40_vle.md R105) -/
  | vlenc (v : Dim)
  /-- `THRCMP.L s, t` (43_threshold.md R162) -/
  | thrcmpL (s t : Octet)
  /-- `THRCMP.C r, g, b, a, t` (43_threshold.md R163) -/
  | thrcmpC (r g b a t : Octet)
  /-- `TYPE.OK`: a TypeField of `0x00` (41_header.md R122) -/
  | typeOk
  /-- `TYPE.BAD t`: any other TypeField (41_header.md R122) -/
  | typeBad (t : Octet)
  /-- `FIXHDR.OK`: bit 7 clear; `t` extension type, `r` reserved bits (41_header.md R123) -/
  | fixhdrOk (t : BitVec 2) (r : BitVec 5)
  /-- `FIXHDR.EXT`: bit 7 set (41_header.md R123) -/
  | fixhdrExt (t : BitVec 2) (r : BitVec 5)
  /-- `VLE.CONT g`: a group with more octets to follow (40_vle.md R101) -/
  | vleCont (g : BitVec 7)
  /-- `VLE.LAST g`: the last group of an integer (40_vle.md R101) -/
  | vleLast (g : BitVec 7)
  /-- `PIXOCT p`: an octet of pixel data (42_unpack.md R145) -/
  | pixoct (p : Octet)
deriving DecidableEq, Repr

/-- The seven octet classes of 30_encoding.md R80 alone: what the source decoder answers. -/
inductive OctetClass where
  | typeOk
  | typeBad (t : Octet)
  | fixhdrOk (t : BitVec 2) (r : BitVec 5)
  | fixhdrExt (t : BitVec 2) (r : BitVec 5)
  | vleCont (g : BitVec 7)
  | vleLast (g : BitVec 7)
  | pixoct (p : Octet)
deriving DecidableEq, Repr

end Sys2Proof
end

