-- ==== Sys2Proof/WellFormed.lean ====
section
/-! DEFINITION. Which instruction terms the encodings admit. Operand widths are in the types; the one
constraint left is that of the `TYPE.BAD` row. -/

namespace Sys2Proof

/-- An instruction an encoding exists for: `TYPE.BAD t` has `t != 0` (the row's constraint in
spec/opcode_table.json; 60_exceptions.md R222: `0x01` to `0xFF`). -/
def WellFormed : Instr → Bool
  | .typeBad t => t != 0
  | .decNew => true
  | .dims => true
  | .rdimg => true
  | .encNew => true
  | .setthr _ => true
  | .encodeL _ _ => true
  | .encodeC _ _ => true
  | .rdhdr => true
  | .wrhdr _ _ => true
  | .unpack _ _ => true
  | .packL _ _ _ => true
  | .packC _ _ _ => true
  | .vldec => true
  | .vlenc _ => true
  | .thrcmpL _ _ => true
  | .thrcmpC _ _ _ _ _ => true
  | .typeOk => true
  | .fixhdrOk _ _ => true
  | .fixhdrExt _ _ => true
  | .vleCont _ => true
  | .vleLast _ => true
  | .pixoct _ => true

end Sys2Proof
end

