-- ==== Sys2Proof/Decode.lean ====
section
/-! DEFINITION. Decoding and encoding: the command word (30_encoding.md R84 to R87) and the octet classes
of the wire format (R71 to R73, R76, R80). Decoding is total; a reserved command word is rejected by name
(R86). Every octet has a class at every field, so the source decoder rejects nothing. -/

namespace Sys2Proof

/-- Why a word is no instruction. -/
inductive Reject where
  /-- the low byte of a command word is none of the sixteen codes (30_encoding.md R86) -/
  | reservedCommand (low : Octet)
deriving DecidableEq, Repr

/-- `cmd[7:0]`, which alone selects the operation (30_encoding.md R84). -/
def CommandWord.low (c : CommandWord) : Octet := c.extractLsb' 0 8

/-- `cmd[15:8]`, the 8-bit operand (30_encoding.md R84). -/
def CommandWord.imm8 (c : CommandWord) : Octet := c.extractLsb' 8 8

/-- `cmd[47:16]`, the first 32-bit operand (30_encoding.md R84). -/
def CommandWord.a (c : CommandWord) : Dim := c.extractLsb' 16 32

/-- `cmd[79:48]`, the second 32-bit operand (30_encoding.md R84). -/
def CommandWord.b (c : CommandWord) : Dim := c.extractLsb' 48 32

/-- A command word from its fields, written high to low as 30_encoding.md R92 does: `b a imm8 low-byte`. -/
def commandWord (b a : Dim) (imm8 low : Octet) : CommandWord := b ++ a ++ imm8 ++ low

/-- Byte `j` of the operand `a`: the sample bytes of `THRCMP.*` (30_encoding.md R85). -/
def Dim.byte (a : Dim) (j : Nat) : Octet := a.extractLsb' (8 * j) 8

/-- The command a word of the command port spells (30_encoding.md R85); operand fields an operation does
not use are ignored, every other low byte is reserved (R86). -/
def decodeCommand (c : CommandWord) : Except Reject Instr :=
  let t := CommandWord.imm8 c
  let a := CommandWord.a c
  let b := CommandWord.b c
  match (CommandWord.low c).toNat with
  | 0x01 => .ok .decNew
  | 0x02 => .ok .dims
  | 0x03 => .ok .rdimg
  | 0x04 => .ok .encNew
  | 0x05 => .ok (.setthr t)
  | 0x06 => .ok (.encodeL a b)
  | 0x16 => .ok (.encodeC a b)
  | 0x08 => .ok .rdhdr
  | 0x09 => .ok (.wrhdr a b)
  | 0x0A => .ok (.unpack a b)
  | 0x0B => .ok (.packL a b t)
  | 0x1B => .ok (.packC a b t)
  | 0x0C => .ok .vldec
  | 0x0D => .ok (.vlenc a)
  | 0x0E => .ok (.thrcmpL (Dim.byte a 0) t)
  | 0x1E => .ok (.thrcmpC (Dim.byte a 0) (Dim.byte a 1) (Dim.byte a 2) (Dim.byte a 3) t)
  | _ => .error (.reservedCommand (CommandWord.low c))

/-- The class of an octet of the source at field `f` (30_encoding.md R80; the bits are R71 to R73). -/
def decodeOctet (f : Field) (o : Octet) : OctetClass :=
  match f with
  | .typeField => if o = 0x00 then .typeOk else .typeBad o
  | .fixHeader =>
    if o.getLsbD 7 then .fixhdrExt (o.extractLsb' 5 2) (o.extractLsb' 0 5)
    else .fixhdrOk (o.extractLsb' 5 2) (o.extractLsb' 0 5)
  | .width | .height | .value =>
    if o.getLsbD 7 then .vleCont (o.extractLsb' 0 7) else .vleLast (o.extractLsb' 0 7)
  | .pixelData => .pixoct o

/-- An octet class as the instruction of its row. -/
def OctetClass.toInstr : OctetClass → Instr
  | .typeOk => .typeOk
  | .typeBad t => .typeBad t
  | .fixhdrOk t r => .fixhdrOk t r
  | .fixhdrExt t r => .fixhdrExt t r
  | .vleCont g => .vleCont g
  | .vleLast g => .vleLast g
  | .pixoct p => .pixoct p

/-- The instruction a word stands for at a port; at the source the word is one octet, its low byte. -/
def decode (p : Port) (w : CommandWord) : Except Reject Instr :=
  match p with
  | .command => decodeCommand w
  | .source f => .ok (decodeOctet f (w.extractLsb' 0 8)).toInstr

/-- A wire octet as a word whose other bits are 0. -/
def octetWord (o : Octet) : CommandWord := commandWord 0 0 0 o

/-- The word of an instruction, from the encoding tables (30_encoding.md R71 to R73, R85): a command with 0
in every operand field it does not use, or a wire octet in the low byte. -/
def encode : Instr → CommandWord
  | .decNew => commandWord 0 0 0 0x01
  | .dims => commandWord 0 0 0 0x02
  | .rdimg => commandWord 0 0 0 0x03
  | .encNew => commandWord 0 0 0 0x04
  | .setthr t => commandWord 0 0 t 0x05
  | .encodeL w h => commandWord h w 0 0x06
  | .encodeC w h => commandWord h w 0 0x16
  | .rdhdr => commandWord 0 0 0 0x08
  | .wrhdr w h => commandWord h w 0 0x09
  | .unpack w h => commandWord h w 0 0x0A
  | .packL w h t => commandWord h w t 0x0B
  | .packC w h t => commandWord h w t 0x1B
  | .vldec => commandWord 0 0 0 0x0C
  | .vlenc v => commandWord 0 v 0 0x0D
  | .thrcmpL s t => commandWord 0 (s.setWidth 32) t 0x0E
  | .thrcmpC r g b a t => commandWord 0 (a ++ b ++ g ++ r) t 0x1E
  | .typeOk => octetWord 0x00
  | .typeBad t => octetWord t
  | .fixhdrOk t r => octetWord (0#1 ++ t ++ r)
  | .fixhdrExt t r => octetWord (1#1 ++ t ++ r)
  | .vleCont g => octetWord (1#1 ++ g)
  | .vleLast g => octetWord (0#1 ++ g)
  | .pixoct p => octetWord p

/-- Whether an instruction can be met at a port: commands at the command port, each octet class at the
fields 30_encoding.md R80 lists for it. -/
def Instr.foundAt (i : Instr) (p : Port) : Bool :=
  match i with
  | .typeOk | .typeBad _ => p = .source .typeField
  | .fixhdrOk _ _ | .fixhdrExt _ _ => p = .source .fixHeader
  | .vleCont _ | .vleLast _ => p = .source .width || p = .source .height || p = .source .value
  | .pixoct _ => p = .source .pixelData
  | .decNew | .dims | .rdimg | .encNew | .setthr _ | .encodeL _ _ | .encodeC _ _ | .rdhdr | .wrhdr _ _
  | .unpack _ _ | .packL _ _ _ | .packC _ _ _ | .vldec | .vlenc _ | .thrcmpL _ _ | .thrcmpC _ _ _ _ _ =>
    p = .command

/-- The port at which a bare table word is read: the table's rows carry no field, and the octet classes of
different fields share words (30_encoding.md R80). A word that spells a command is one; any other 8-bit word
is a wire octet, read at the TypeField if it is `0x00` and at a VLE field if not (DESIGN CHOICE, log 15). -/
def tablePort (nbits w : Nat) : Port :=
  match decodeCommand (BitVec.ofNat 80 (w % 2 ^ nbits)) with
  | .ok _ => .command
  | .error _ =>
    if 8 < nbits then .command
    else if w % 2 ^ nbits = 0 then .source .typeField
    else .source .value

/-- The instruction the decoder reads from the word of a table row (log 15). -/
def decodeTableWord (nbits w : Nat) : Option Instr :=
  match decode (tablePort nbits w) (BitVec.ofNat 80 (w % 2 ^ nbits)) with
  | .ok i => some i
  | .error _ => none

end Sys2Proof
end

