-- ==== Sys2Proof/Config.lean ====
section
/-! DEFINITION. What is fixed for a machine: the shared constants (10_state.md R33), the parameters the
spec leaves open (00_scope.md R6), and the free values: opaque constants without a body that stand for
what the spec calls unspecified (93_implementation_defined.md U8, U9), so that nothing can be proved of
their value. -/

namespace Sys2Proof.Config

/-- `THR` after reset and after `ENC_NEW` (00_scope.md R6 `THR_RESET`, 10_state.md R11). -/
def thrReset : Octet := 0x7F

/-- The octet written for a TypeField and for a FixHeaderField (10_state.md R33, 41_header.md R126). -/
def headerOctet : Octet := 0x00

/-- A white pixel of the unpacked buffer (10_state.md R33). -/
def white : Octet := 0xFF

/-- A black pixel of the unpacked buffer (10_state.md R33). -/
def black : Octet := 0x00

/-- `UNPACK_PREZERO`: who zero-fills the pixel buffer (42_unpack.md R143, decision D12). -/
inductive Prezero where
  /-- the block does: the spec's default -/
  | block
  /-- the caller owes a zeroed buffer -/
  | caller
deriving DecidableEq, Repr

/-- `ENCODE_CHECK_ORDER`: when `ENCODE` checks the sample length (45_orchestration.md R208, decision D15). -/
inductive CheckOrder where
  /-- the header is written first: the spec's default -/
  | headerFirst
  /-- the length is checked first -/
  | checkFirst
deriving DecidableEq, Repr

/-- The open parameters of 00_scope.md R6, one value each for a whole run. -/
structure Params where
  /-- `UNPACK_PREZERO` -/
  unpackPrezero : Prezero
  /-- `ENCODE_CHECK_ORDER` -/
  encodeCheckOrder : CheckOrder
  /-- `LEN_BITS`: a buffer's length is below `2 ^ lenBits` -/
  lenBits : Nat
deriving DecidableEq, Repr

/-- The values the spec takes by default, and for `LEN_BITS` suggests (00_scope.md R6). -/
def Params.default : Params :=
  { unpackPrezero := .block, encodeCheckOrder := .headerFirst, lenBits := 64 }

/-- `HDR_TYPE` outside Ready: any value (93_implementation_defined.md U8). FREE VALUE. -/
opaque freeHdrType : Nat → Octet
/-- `HDR_EXT` outside Ready: any value (U8). FREE VALUE. -/
opaque freeHdrExt : Nat → BitVec 1
/-- `HDR_W` outside Ready: any value (U8). FREE VALUE. -/
opaque freeHdrW : Nat → Dim
/-- `HDR_H` outside Ready: any value (U8). FREE VALUE. -/
opaque freeHdrH : Nat → Dim
/-- `THR_S` between operations: any value (93_implementation_defined.md U9). FREE VALUE. -/
opaque freeThrS : Nat → Octet
/-- `ACC` between operations: any value (U9). FREE VALUE. -/
opaque freeAcc : Nat → Dim
/-- `GRP` between operations: any value (U9). FREE VALUE. -/
opaque freeGrp : Nat → BitVec 3
/-- `OCT` between operations: any value (U9). FREE VALUE. -/
opaque freeOct : Nat → Octet
/-- `NB` between operations: any value (U9). FREE VALUE. -/
opaque freeNb : Nat → BitVec 4
/-- `ROW` between operations: any value (U9). FREE VALUE. -/
opaque freeRow : Nat → Dim
/-- `COL` between operations: any value (U9). FREE VALUE. -/
opaque freeCol : Nat → Dim
/-- `ROWBUF` between operations: any value (U9). FREE VALUE. -/
opaque freeRowbuf : Nat → List Octet

end Sys2Proof.Config
end

