-- ==== Sys2Proof/Machine/State.lean ====
section
/-! DEFINITION. The machine's state as plain data (10_state.md), the result record of the result port
(60_exceptions.md R231), the reasons a step can stop, and the state after reset (10_state.md R25). -/

namespace Sys2Proof.Machine

/-- `PHASE` (10_state.md R12): coded 0, 1, 2; the code 3 is never taken. -/
inductive Phase where
  | uninitialized
  | headerRead
  | ready
deriving DecidableEq, Repr

/-- `IoCause` (00_scope.md R6, decision D5): the environment's causes, of which only the end of stream has a
name; every other cause is a token of the environment's, copied and never looked at (log 9). -/
inductive IoCause where
  | eos
  | env (token : Nat)
deriving DecidableEq, Repr

/-- The five error kinds with what each records (60_exceptions.md R220 to R225). -/
inductive Err where
  | ioError (cause : IoCause)
  | unsupportedType (typeCode : Octet)
  | unsupportedHeaders
  | usageError
  | invalidImageData
deriving DecidableEq, Repr

/-- The record the result port delivers (60_exceptions.md R231). -/
structure Result where
  /-- `res_kind`: 0 success, 1 to 5 the error kinds of R226 -/
  kind : BitVec 3
  /-- `res_info` -/
  info : Octet
  /-- `res_cause`: the cause of an `IoError`, else absent -/
  cause : Option IoCause
  /-- `res_a` -/
  a : Dim
  /-- `res_b` -/
  b : Dim
deriving DecidableEq, Repr

/-- The environment's answer to a read (20_memory.md R43): the three cases. -/
inductive ReadAnswer where
  | deliver
  | fail (cause : IoCause)
  /-- the access is not answered -/
  | silent
deriving DecidableEq, Repr

/-- The environment's answer to a write (20_memory.md R45): the three cases. -/
inductive WriteAnswer where
  | accept
  | fail (cause : IoCause)
  /-- the access is not answered -/
  | silent
deriving DecidableEq, Repr

/-- A buffer `SMP` or `PIX` (20_memory.md R46, R47): its length, and its bytes as (index, byte) pairs in one
canonical form (`Memory.wf`): indices strictly rising and below the length, no byte `0x00` listed (log 11). -/
structure Memory where
  len : Nat
  cells : List Host.Cell
deriving DecidableEq, Repr

/-- What a header read does with the header (41_header.md R129). -/
inductive HeaderDest where
  /-- `DEC_NEW`: latch it -/
  | latch
  /-- `RDHDR`: deliver it on the result port -/
  | deliver
deriving DecidableEq, Repr

/-- A reading operation in progress, by the field at which its next source read stands
(41_header.md R121, 40_vle.md R101, 42_unpack.md R141). -/
inductive Reader where
  | typeField (d : HeaderDest)
  | fixHeader (d : HeaderDest)
  | width (d : HeaderDest)
  /-- `w`: the width already read, the local `w` of R121 -/
  | height (d : HeaderDest) (w : Dim)
  /-- `VLDEC` -/
  | value
  /-- `UNPACK w, h`, or `RDIMG` with the latched dimensions -/
  | pixelRow (w h : Dim)
deriving DecidableEq, Repr

/-- A writing operation in progress, by the field at which its next sink write stands (41_header.md R126,
40_vle.md R105, 44_pack.md R176). `body` is `some k` inside `ENCODE`, whose pack is still to come, and `none`
inside `WRHDR` (45_orchestration.md R207). -/
inductive Writer where
  | typeField (body : Option ColorKind) (w h : Dim)
  | fixHeader (body : Option ColorKind) (w h : Dim)
  | width (body : Option ColorKind) (w h : Dim)
  | height (body : Option ColorKind) (w h : Dim)
  /-- `VLENC v` -/
  | value (v : Dim)
  /-- the rows of `PACK.*` or of `ENCODE.*` -/
  | pixelRow (k : ColorKind) (w h : Dim)
deriving DecidableEq, Repr

/-- What the block is doing (10_state.md R20, 20_memory.md R41): `BUSY` = 0 exactly when idle (log 7). -/
inductive Activity where
  | idle
  | reading (r : Reader)
  | writing (w : Writer)
deriving DecidableEq, Repr

/-- The whole state; INVENTORY.md lists every field with its rule. -/
structure State where
  /-- the open parameters (00_scope.md R6): changed by no instruction -/
  cfg : Config.Params
  /-- `THR` (10_state.md R11) -/
  thr : Octet
  /-- `PHASE` (R12) -/
  phase : Phase
  /-- `HDR_TYPE` (R13) -/
  hdrType : Octet
  /-- `HDR_EXT` (R13) -/
  hdrExt : BitVec 1
  /-- `HDR_W` (R13) -/
  hdrW : Dim
  /-- `HDR_H` (R13) -/
  hdrH : Dim
  /-- `THR_S` (R21) -/
  thrS : Octet
  /-- `ACC` (R17) -/
  acc : Dim
  /-- `GRP` (R18) -/
  grp : BitVec 3
  /-- `OCT` (R19) -/
  oct : Octet
  /-- `NB` (R19) -/
  nb : BitVec 4
  /-- `ROW` (R21) -/
  row : Dim
  /-- `COL` (R21) -/
  col : Dim
  /-- `ROWBUF` (R21) -/
  rowbuf : List Octet
  /-- what is in progress, `BUSY` with it (R20, R21) -/
  activity : Activity
  /-- command port: the words offered and waiting (20_memory.md R41), any number, oldest first (DESIGN CHOICE, log 25) -/
  cmds : List CommandWord
  /-- result port: the results delivered so far, oldest first (60_exceptions.md R231) -/
  results : List Result
  /-- `SRC` (20_memory.md R42) -/
  src : List Octet
  /-- `ipos` (R42) -/
  ipos : Nat
  /-- the environment's answers to the coming reads (R43); after the last, a plain source -/
  srcAnswers : List ReadAnswer
  /-- `snk` (R44) -/
  snk : List Octet
  /-- the environment's answers to the coming writes (R45); after the last, a plain sink -/
  snkAnswers : List WriteAnswer
  /-- `SMP` with `SMP_LEN` (R46) -/
  smp : Memory
  /-- `PIX` with `PIX_LEN` (R47) -/
  pix : Memory
  /-- the model's own: how many times free values have been drawn (log 5) -/
  freeIdx : Nat
deriving DecidableEq, Repr

/-- The machine stops with a fault. Neither is reached from a state that meets `State.Inv`. -/
inductive Fault where
  /-- raised by the packer's sample read: index `i` is not below `SMP_LEN` (20_memory.md R46 uses no such
  index, and no such byte exists). Safe. -/
  | sampleIndex (i : Nat)
  /-- raised by the unpacker's pixel write: index `i` is not below `PIX_LEN` (20_memory.md R47). Safe. -/
  | pixelIndex (i : Nat)
deriving DecidableEq, Repr

/-- No meaning in the spec for what was asked. -/
inductive Refusal where
  /-- raised by `exec` for an instruction the model gives no meaning yet; safe -/
  | notModelled (mnemonic : String)
  /-- raised when the command port holds a reserved word (30_encoding.md R86, U7: "refuse"); safe -/
  | reservedCommand (low : Octet)
  /-- raised by `DIMS` and `RDIMG` while `PHASE` is not Ready (45_orchestration.md R200, U6: "refuse"); safe -/
  | noDecoder
  /-- raised by an octet class where the reader does not stand at its field (30_encoding.md R80); safe -/
  | octetOutOfPlace
deriving DecidableEq, Repr

/-- A buffer of no bytes. -/
def Memory.empty : Memory := { len := 0, cells := [] }

/-- The machine right after reset (10_state.md R25, 70_reset_and_hazards.md R260, R261). `HDR_*` and the
transient registers are unspecified there: 0 and empty are the model's (DESIGN CHOICE, log 2 and 3). Reset
does not touch the environment's state: nothing attached and nothing offered is the model's (log 4). -/
def State.reset : State :=
  { cfg := Config.Params.default
    thr := Config.thrReset
    phase := .uninitialized
    hdrType := 0
    hdrExt := 0
    hdrW := 0
    hdrH := 0
    thrS := 0
    acc := 0
    grp := 0
    oct := 0
    nb := 0
    row := 0
    col := 0
    rowbuf := []
    activity := .idle
    cmds := []
    results := []
    src := []
    ipos := 0
    srcAnswers := []
    snk := []
    snkAnswers := []
    smp := Memory.empty
    pix := Memory.empty
    freeIdx := 0 }

end Sys2Proof.Machine
end

