-- ==== Sys2Proof/Machine/Operands.lean ====
section
/-! DEFINITION. What the operations compute from their operands: lengths, indices, the groups of a
variable-length integer, the bits of an octet. Arithmetic without a stated width is on natural numbers and
does not wrap (00_scope.md R8, decision D11). -/

namespace Sys2Proof.Machine

/-- `bpp`: sample bytes of one pixel (44_pack.md R176). -/
def bytesPerPixel : ColorKind → Nat
  | .luma8 => 1
  | .rgba8 => 4

/-- `w * h`, exact (42_unpack.md R142). -/
def pixelCount (w h : Dim) : Nat := w.toNat * h.toNat

/-- The sample length a pack demands, `w * h * bpp`, exact (44_pack.md R177). -/
def sampleLength (k : ColorKind) (w h : Dim) : Nat := pixelCount w h * bytesPerPixel k

/-- `ceil(w / 8)`, computed without wrap (42_unpack.md R144). -/
def rowOctets (w : Dim) : Nat := (w.toNat + 7) / 8

/-- The index of the pixel in row `row`, column `col`, row-major (20_memory.md R46, R47). -/
def pixelIndex (w row col : Dim) : Nat := row.toNat * w.toNat + col.toNat

/-- `bitlen(v)`: the number of bits without leading zeros, 0 for 0 (00_scope.md, notation). -/
def bitlen (v : Nat) : Nat := if v = 0 then 0 else Nat.log2 v + 1

/-- `n`, the number of octets of the shortest form (40_vle.md R105; 30_encoding.md R78). -/
def vleLength (v : Dim) : Nat := max 1 ((bitlen v.toNat + 6) / 7)

/-- `GRP` when the writing of `v` begins: `n - 1` (40_vle.md R105). -/
def firstGroup (v : Dim) : BitVec 3 := BitVec.ofNat 3 (vleLength v - 1)

/-- The octet of group `grp`: continuation bit on every group but the last, then the 7 value bits
(40_vle.md R105). -/
def vleOctet (v : Dim) (grp : BitVec 3) : Octet :=
  BitVec.ofBool (grp != 0) ++ (v >>> (7 * grp.toNat)).setWidth 7

/-- One accumulation of the decoder: `((ACC << 7) | g) mod 2^32` (40_vle.md R101). -/
def vleAccumulate (acc : Dim) (g : BitVec 7) : Dim := (acc <<< 7) ||| g.setWidth 32

/-- The bits of an octet from position 7 down to 0 (42_unpack.md R145, R150). -/
def octetBits (o : Octet) : List Bool :=
  [o.getLsbD 7, o.getLsbD 6, o.getLsbD 5, o.getLsbD 4, o.getLsbD 3, o.getLsbD 2, o.getLsbD 1, o.getLsbD 0]

/-- `OCT | (zext_8(bit) << (7 - NB))` (44_pack.md R180). -/
def packBit (oct : Octet) (nb : BitVec 4) (bit : Bool) : Octet :=
  oct ||| ((BitVec.ofBool bit).setWidth 8 <<< (7 - nb.toNat))

end Sys2Proof.Machine
end

