-- ==== Sys2Proof/Machine/Flags.lean ====
section
/-! DEFINITION. The block has no status flags and no condition codes (10_state.md R22). What stands here are
the conditions its data-dependent decisions test (45_orchestration.md R212): the threshold comparator and
the two buffer-length checks. -/

namespace Sys2Proof.Machine

/-- The comparator on one luminance byte: unsigned, inclusive on the white side (43_threshold.md R161, R162). -/
def thrcmpLuma (s t : Octet) : Bool := t.toNat ≤ s.toNat

/-- The four-byte average, alpha included, remainder dropped, on an exact sum (43_threshold.md R163 to R165;
90_conflicts.md C1). -/
def rgbaAverage (r g b a : Octet) : Octet :=
  BitVec.ofNat 8 ((r.toNat + g.toNat + b.toNat + a.toNat) / 4)

/-- The comparator on one red, green, blue, alpha sample (43_threshold.md R163, R167). -/
def thrcmpRgba (r g b a t : Octet) : Bool := thrcmpLuma (rgbaAverage r g b a) t

/-- `PIX_LEN < w * h`: the pixel buffer is rejected (42_unpack.md R142). -/
def pixTooShort (pixLen : Nat) (w h : Dim) : Bool := pixLen < pixelCount w h

/-- `SMP_LEN != w * h * bpp`: the sample buffer is rejected (44_pack.md R177). -/
def smpWrongLength (smpLen : Nat) (k : ColorKind) (w h : Dim) : Bool := smpLen != sampleLength k w h

/-- The image has no pixel, so no row has an octet (42_unpack.md R148, 44_pack.md R183). -/
def emptyImage (w h : Dim) : Bool := w = 0 || h = 0

/-- The flush condition: 8 bits accumulated, or the row's last pixel done (44_pack.md R181). -/
def flushDue (w col : Dim) (nb : BitVec 4) : Bool := nb = 8 || col = w - 1

end Sys2Proof.Machine
end

