-- ==== Sys2Proof/Machine/Ops.lean ====
section
/-! DEFINITION. The named operations over registers, streams and buffers, and the end of an operation: success
(60_exceptions.md R231) and `raise` (R230), the block's only exception entry. There is no return from one:
there is no handler (R233). -/

namespace Sys2Proof.Machine

/-- `PHASE` as its two bits (10_state.md R12). -/
def Phase.code : Phase → BitVec 2
  | .uninitialized => 0
  | .headerRead => 1
  | .ready => 2

/-- `BUSY` (10_state.md R21, 20_memory.md R41). -/
def State.busy (s : State) : Bool := s.activity != .idle

/-! ## Buffers -/

/-- What a byte reads as that no cell lists (log 11). -/
def unlistedByte : Octet := 0x00

/-- The byte a cell list gives an index. -/
def lookupCell : List Host.Cell → Nat → Octet
  | [], _ => unlistedByte
  | c :: rest, i => if c.1 = i then c.2 else lookupCell rest i

/-- A cell in front of a list, left out where an unlisted byte reads the same. -/
def consCell (i : Nat) (v : Octet) (rest : List Host.Cell) : List Host.Cell :=
  if v = unlistedByte then rest else (i, v) :: rest

/-- The cell list after byte `i` is set to `v`, in canonical form. -/
def storeCell (i : Nat) (v : Octet) : List Host.Cell → List Host.Cell
  | [] => consCell i v []
  | c :: rest =>
    if i < c.1 then consCell i v (c :: rest)
    else if i = c.1 then consCell i v rest
    else c :: storeCell i v rest

/-- Indices strictly rising from `lo` on, every one below `len`, no cell equal to an unlisted byte. -/
def cellsOk (len : Nat) : Nat → List Host.Cell → Bool
  | _, [] => true
  | lo, c :: rest => decide (lo ≤ c.1 ∧ c.1 < len ∧ c.2 ≠ unlistedByte) && cellsOk len (c.1 + 1) rest

/-- The canonical form of a buffer. -/
def Memory.wf (m : Memory) : Bool := cellsOk m.len 0 m.cells

/-- The byte at index `i`. -/
def Memory.read (m : Memory) (i : Nat) : Octet := lookupCell m.cells i

/-- The buffer with byte `i` set. -/
def Memory.write (m : Memory) (i : Nat) (v : Octet) : Memory := { m with cells := storeCell i v m.cells }

/-- `MemRead(SMP, i, 1)` (20_memory.md R46); `none` where no byte `i` exists. -/
def memRead (m : Memory) (i : Nat) : Option Octet := if i < m.len then some (m.read i) else none

/-- `MemWrite(PIX, i, 1, v)` (20_memory.md R47); `none` where no byte `i` exists. -/
def memWrite (m : Memory) (i : Nat) (v : Octet) : Option Memory :=
  if i < m.len then some (m.write i v) else none

/-- The zero fill of bytes `0 .. n-1` (42_unpack.md R143): `0x00` at each, which no cell lists. -/
def Memory.zeroFill (m : Memory) (n : Nat) : Memory :=
  { m with cells := m.cells.filter (fun c => decide (n ≤ c.1)) }

/-- A buffer holding a byte sequence. -/
def Memory.ofBytes (bs : List Octet) : Memory :=
  bs.zipIdx.foldl (fun m p => m.write p.2 p.1) { len := bs.length, cells := [] }

/-! ## Streams -/

/-- What a source read comes to (20_memory.md R43). -/
inductive ReadReply where
  | delivered (o : Octet) (s : State)
  | failed (cause : IoCause) (s : State)
  | silent

/-- The source gives its next octet, or the end of the stream forces a failure (20_memory.md R43); `rest` are
the environment's answers after this read's. -/
def srcDeliver (rest : List ReadAnswer) (s : State) : ReadReply :=
  match s.src[s.ipos]? with
  | some o => .delivered o { s with ipos := s.ipos + 1, srcAnswers := rest }
  | none => .failed .eos { s with srcAnswers := rest }

/-- `SrcRead()` (20_memory.md R43): the environment answers as its script says, as a plain source does when the
script has run out (log 8). At the end of the stream every failure has the cause `EOS`. -/
def srcRead (s : State) : ReadReply :=
  match s.srcAnswers with
  | [] => srcDeliver [] s
  | .deliver :: rest => srcDeliver rest s
  | .fail c :: rest => .failed (if s.ipos < s.src.length then c else .eos) { s with srcAnswers := rest }
  | .silent :: _ => .silent

/-- What a sink write comes to (20_memory.md R45). -/
inductive WriteReply where
  | accepted (s : State)
  | failed (cause : IoCause) (s : State)
  | silent

/-- `SnkWrite(b)` (20_memory.md R45): the environment answers as its script says, as a plain sink does when the
script has run out (log 8). -/
def snkWrite (b : Octet) (s : State) : WriteReply :=
  match s.snkAnswers with
  | [] => .accepted { s with snk := s.snk ++ [b] }
  | .accept :: rest => .accepted { s with snk := s.snk ++ [b], snkAnswers := rest }
  | .fail c :: rest => .failed c { s with snkAnswers := rest }
  | .silent :: _ => .silent

/-- Octets of the source not yet consumed. -/
def State.srcLeft (s : State) : Nat := s.src.length - s.ipos

/-! ## Free values -/

/-- The transient registers are dropped: unspecified between operations (10_state.md R16, R230 (6); U9). -/
def State.dropTransients (s : State) : State :=
  { s with
    thrS := Config.freeThrS s.freeIdx
    acc := Config.freeAcc s.freeIdx
    grp := Config.freeGrp s.freeIdx
    oct := Config.freeOct s.freeIdx
    nb := Config.freeNb s.freeIdx
    row := Config.freeRow s.freeIdx
    col := Config.freeCol s.freeIdx
    rowbuf := Config.freeRowbuf s.freeIdx
    freeIdx := s.freeIdx + 1 }

/-- The decoder half is Uninitialized and the old header is dropped: `HDR_*` are unspecified outside Ready
(45_orchestration.md R196 to R198; U8). -/
def State.forgetHeader (s : State) : State :=
  { s with
    phase := .uninitialized
    hdrType := Config.freeHdrType s.freeIdx
    hdrExt := Config.freeHdrExt s.freeIdx
    hdrW := Config.freeHdrW s.freeIdx
    hdrH := Config.freeHdrH s.freeIdx
    freeIdx := s.freeIdx + 1 }

/-! ## Registers -/

/-- `DEC_NEW` latches the header, all four registers at once, and passes through HeaderRead to Ready
(45_orchestration.md R196; 10_state.md R12, R13). -/
def State.latchHeader (s : State) (w h : Dim) : State :=
  let latched := { s with hdrType := 0x00, hdrExt := 0, hdrW := w, hdrH := h }
  let headerRead := { latched with phase := .headerRead }
  { headerRead with phase := .ready }

/-- `THR <- t` (45_orchestration.md R203, R205). -/
def State.setThr (s : State) (t : Octet) : State := { s with thr := t }

/-- `PIX` replaced by a written one. -/
def State.setPix (s : State) (m : Memory) : State := { s with pix := m }

/-- The block is at `a` (20_memory.md R41). -/
def State.setActivity (s : State) (a : Activity) : State := { s with activity := a }

/-! ## Ends of an operation -/

/-- The error as the record of the result port: the numbers of 60_exceptions.md R226, no payload (R230 (4)). -/
def Err.record : Err → Result
  | .ioError c => { kind := 1, info := 0, cause := some c, a := 0, b := 0 }
  | .unsupportedType t => { kind := 2, info := t, cause := none, a := 0, b := 0 }
  | .unsupportedHeaders => { kind := 3, info := 0, cause := none, a := 0, b := 0 }
  | .usageError => { kind := 4, info := 0, cause := none, a := 0, b := 0 }
  | .invalidImageData => { kind := 5, info := 0, cause := none, a := 0, b := 0 }

/-- The record of a success with payload `a`, `b` (60_exceptions.md R231). -/
def okRecord (a b : Dim) : Result := { kind := 0, info := 0, cause := none, a := a, b := b }

/-- The operation in progress ends: exactly one result is delivered, the transient registers are dropped, and
`BUSY <- 0` (20_memory.md R41; 60_exceptions.md R230, R231). -/
def finish (r : Result) (s : State) : State :=
  { s.dropTransients with results := s.results ++ [r], activity := .idle }

/-- `return` with payload `a`, `b` (00_scope.md, notation). -/
def succeed (a b : Dim) (s : State) : State := finish (okRecord a b) s

/-- `raise E(info)`: the operation ends at the failing step; nothing is undone, nothing saved, no mode changes
and control goes nowhere (60_exceptions.md R230). -/
def raise (e : Err) (s : State) : State := finish e.record s

/-- A command reaches the block only when `BUSY` = 0; offered while `BUSY` = 1 it waits at the port and is not
seen (20_memory.md R41; log 14). -/
def whenIdle (s : State) (k : State → Host.Outcome State Fault Refusal) : Host.Outcome State Fault Refusal :=
  if s.busy then .next s else k s

/-- One outcome after another: a fault or a refusal ends the step. -/
def andThen (o : Host.Outcome State Fault Refusal) (k : State → Host.Outcome State Fault Refusal) :
    Host.Outcome State Fault Refusal :=
  match o with
  | .next s => k s
  | .fault f => .fault f
  | .refused r => .refused r

/-- The field of the wire format a reader stands at (30_encoding.md R80). -/
def Reader.field : Reader → Field
  | .typeField _ => .typeField
  | .fixHeader _ => .fixHeader
  | .width _ => .width
  | .height _ _ => .height
  | .value => .value
  | .pixelRow _ _ => .pixelData

end Sys2Proof.Machine
end

