-- ==== Sys2Proof/Machine/Octets.lean ====
section
/-! DEFINITION. The seven octet classes of the wire format (30_encoding.md R80): what the block does with one
octet just read from the source, at the field where the reader stands. At any other place the octet is not
of that class, and the meaning is refused (log 13). -/

namespace Sys2Proof.Machine

/-- The header is complete: delivered on the result port by `RDHDR`, latched by `DEC_NEW`
(41_header.md R121, R129; 45_orchestration.md R196). -/
def headerDone (d : HeaderDest) (w h : Dim) (s : State) : State :=
  match d with
  | .deliver => succeed w h s
  | .latch => succeed 0 0 (s.latchHeader w h)

/-- `TYPE.OK` (41_header.md R122): accepted, the FixHeaderField is next. -/
def execTypeOk (s : State) : Host.Outcome State Fault Refusal :=
  match s.activity with
  | .reading (.typeField d) => .next (s.setActivity (.reading (.fixHeader d)))
  | _ => .refused .octetOutOfPlace

/-- `TYPE.BAD t` (41_header.md R122): `UnsupportedType(t)`; `0x00` is not of this class. -/
def execTypeBad (t : Octet) (s : State) : Host.Outcome State Fault Refusal :=
  match s.activity with
  | .reading (.typeField _) =>
    if t = 0x00 then .refused .octetOutOfPlace else .next (raise (.unsupportedType t) s)
  | _ => .refused .octetOutOfPlace

/-- `FIXHDR.OK` (41_header.md R123): extension type and reserved bits have no effect; Width is next, with a
fresh accumulator (40_vle.md R101). -/
def execFixhdrOk (_t : BitVec 2) (_r : BitVec 5) (s : State) : Host.Outcome State Fault Refusal :=
  match s.activity with
  | .reading (.fixHeader d) => .next { s with acc := 0, activity := .reading (.width d) }
  | _ => .refused .octetOutOfPlace

/-- `FIXHDR.EXT` (41_header.md R123): `UnsupportedHeaders`, which records nothing. -/
def execFixhdrExt (_t : BitVec 2) (_r : BitVec 5) (s : State) : Host.Outcome State Fault Refusal :=
  match s.activity with
  | .reading (.fixHeader _) => .next (raise .unsupportedHeaders s)
  | _ => .refused .octetOutOfPlace

/-- `VLE.CONT g` (40_vle.md R101): accumulate and go on. -/
def execVleCont (g : BitVec 7) (s : State) : Host.Outcome State Fault Refusal :=
  match s.activity with
  | .reading (.width _) | .reading (.height _ _) | .reading .value =>
    .next { s with acc := vleAccumulate s.acc g }
  | _ => .refused .octetOutOfPlace

/-- `VLE.LAST g` (40_vle.md R101): accumulate; the integer is complete. After Width comes Height with a fresh
accumulator, after Height the header is complete (41_header.md R121). -/
def execVleLast (g : BitVec 7) (s : State) : Host.Outcome State Fault Refusal :=
  match s.activity with
  | .reading (.width d) =>
    .next { s with acc := 0, activity := .reading (.height d (vleAccumulate s.acc g)) }
  | .reading (.height d w) => .next (headerDone d w (vleAccumulate s.acc g) s)
  | .reading .value => .next (succeed (vleAccumulate s.acc g) 0 s)
  | _ => .refused .octetOutOfPlace

/-- One inspected bit (42_unpack.md R145): a 1 writes `0xFF` at the next output position, a 0 leaves the byte,
and `COL` advances. Once `COL` = `w` the bit is padding and is skipped (R146). -/
def inspectBit (w : Dim) (bit : Bool) (s : State) : Host.Outcome State Fault Refusal :=
  if s.col = w then .next s
  else if bit then
    match memWrite s.pix (pixelIndex w s.row s.col) Config.white with
    | some m => .next { s with pix := m, col := s.col + 1 }
    | none => .fault (.pixelIndex (pixelIndex w s.row s.col))
  else .next { s with col := s.col + 1 }

/-- A sequence of inspected bits (42_unpack.md R145, R150). -/
def inspectBits (w : Dim) : List Bool → State → Host.Outcome State Fault Refusal
  | [], s => .next s
  | bit :: rest, s => andThen (inspectBit w bit s) (inspectBits w rest)

/-- The bits of the whole row in `ROWBUF`, octet after octet, from `COL` = 0 (42_unpack.md R145, R150). -/
def inspectRow (w : Dim) (s : State) : Host.Outcome State Fault Refusal :=
  inspectBits w (s.rowbuf.flatMap octetBits) { s with col := 0 }

/-- The row is done: the next row starts with `COL` = 0 and an empty `ROWBUF`, or the unpack ends (42_unpack.md R141;
10_state.md R21, R28; log 24). -/
def rowDone (h : Dim) (s : State) : State :=
  if s.row + 1 = h then succeed 0 0 s else { s with row := s.row + 1, col := 0, rowbuf := [] }

/-- `PIXOCT p` (42_unpack.md R144, R145): the octet goes to `ROWBUF`; once the whole row is there its bits are
inspected, up to 8 pixels an octet (log 23). -/
def execPixoct (p : Octet) (s : State) : Host.Outcome State Fault Refusal :=
  match s.activity with
  | .reading (.pixelRow w h) =>
    let s1 := { s with rowbuf := s.rowbuf ++ [p] }
    if rowOctets w ≤ s1.rowbuf.length then
      andThen (inspectRow w s1) (fun s2 => .next (rowDone h s2))
    else .next s1
  | _ => .refused .octetOutOfPlace

/-- What the block does with an octet of each class. -/
def receive (c : OctetClass) (s : State) : Host.Outcome State Fault Refusal :=
  match c with
  | .typeOk => execTypeOk s
  | .typeBad t => execTypeBad t s
  | .fixhdrOk t r => execFixhdrOk t r s
  | .fixhdrExt t r => execFixhdrExt t r s
  | .vleCont g => execVleCont g s
  | .vleLast g => execVleLast g s
  | .pixoct p => execPixoct p s

/-- Reads, one octet at a time, until the operation ends, the environment does not answer, or `n` octets have
been read (20_memory.md R43, R48, R59; 30_encoding.md R80). A failed read raises `IoError` (R221). -/
def readLoop : Nat → State → Host.Outcome State Fault Refusal
  | 0, s => .next s
  | n + 1, s =>
    match s.activity with
    | .reading r =>
      match srcRead s with
      | .silent => .next s
      | .failed c s1 => .next (raise (.ioError c) s1)
      | .delivered o s1 => andThen (receive (decodeOctet r.field o) s1) (readLoop n)
    | _ => .next s

/-- The reading operation in progress runs as far as the environment lets it: every read but the last takes an
octet that is left, so the count never cuts a run short. -/
def runReader (s : State) : Host.Outcome State Fault Refusal := readLoop (s.srcLeft + 1) s

end Sys2Proof.Machine
end

