-- ==== Sys2Proof/Machine/Writing.lean ====
section
/-! DEFINITION. The writing half of the units: the header and the variable-length integer (41_header.md R126,
40_vle.md R105) and the bit-packer (44_pack.md R176 to R181), one sink write at a time. -/

namespace Sys2Proof.Machine

/-- The bit of the pixel at `ROW`, `COL` (44_pack.md R179; 20_memory.md R46, R52); `none` where `SMP` has no
such byte. -/
def sampleBit (k : ColorKind) (w : Dim) (s : State) : Option Bool :=
  let i := pixelIndex w s.row s.col
  match k with
  | .luma8 => (memRead s.smp i).map (fun v => thrcmpLuma v s.thrS)
  | .rgba8 =>
    match memRead s.smp (4 * i), memRead s.smp (4 * i + 1), memRead s.smp (4 * i + 2), memRead s.smp (4 * i + 3) with
    | some r, some g, some b, some a => some (thrcmpRgba r g b a s.thrS)
    | _, _, _, _ => none

/-- The accumulation of one bit: `OCT` and `NB` (44_pack.md R180). -/
def accumulateBit (bit : Bool) (s : State) : State :=
  { s with oct := packBit s.oct s.nb bit, nb := s.nb + 1 }

/-- Pixels are accumulated until a flush is due (44_pack.md R180, R181); `n` bounds the pixels, and 8 are
enough from `NB` = 0. -/
def fillOctet (k : ColorKind) (w : Dim) : Nat → State → Host.Outcome State Fault Refusal
  | 0, s => .next s
  | n + 1, s =>
    match sampleBit k w s with
    | none => .fault (.sampleIndex (bytesPerPixel k * pixelIndex w s.row s.col))
    | some bit =>
      let s1 := accumulateBit bit s
      if flushDue w s1.col s1.nb then .next s1
      else fillOctet k w n { s1 with col := s1.col + 1 }

/-- The next octet of pixel data is accumulated from `OCT` = 0, `NB` = 0 (44_pack.md R178, R181). -/
def nextOctet (k : ColorKind) (w : Dim) (s : State) : Host.Outcome State Fault Refusal :=
  fillOctet k w 8 { s with oct := 0, nb := 0 }

/-- The pack proper (44_pack.md R176, R177): the length check, then the first octet of the first row; an image
without pixels writes nothing (R183). -/
def startPack (k : ColorKind) (w h : Dim) (s : State) : Host.Outcome State Fault Refusal :=
  if smpWrongLength s.smp.len k w h then .next (raise .invalidImageData s)
  else if emptyImage w h then .next (succeed 0 0 s)
  else nextOctet k w { s with row := 0, col := 0, activity := .writing (.pixelRow k w h) }

/-- The octet a writing operation offers next: `0x00` for the two fixed header octets (41_header.md R126), the
octet of group `GRP` (40_vle.md R105), or `OCT` (44_pack.md R181). -/
def Writer.octet (w : Writer) (s : State) : Octet :=
  match w with
  | .typeField _ _ _ => Config.headerOctet
  | .fixHeader _ _ _ => Config.headerOctet
  | .width _ w _ => vleOctet w s.grp
  | .height _ _ h => vleOctet h s.grp
  | .value v => vleOctet v s.grp
  | .pixelRow _ _ _ => s.oct

/-- After the flush: the next octet of the row, the next row, or the end (44_pack.md R176, R181). -/
def afterFlush (k : ColorKind) (w h : Dim) (s : State) : Host.Outcome State Fault Refusal :=
  if s.col = w - 1 then
    if s.row + 1 = h then .next (succeed 0 0 s)
    else nextOctet k w { s with row := s.row + 1, col := 0 }
  else nextOctet k w { s with col := s.col + 1 }

/-- The header is written: `WRHDR` ends, `ENCODE` goes on to its pack (41_header.md R126,
45_orchestration.md R207). -/
def afterHeader (body : Option ColorKind) (w h : Dim) (s : State) : Host.Outcome State Fault Refusal :=
  match body with
  | none => .next (succeed 0 0 s)
  | some k => startPack k w h s

/-- What follows an accepted octet (41_header.md R126, 40_vle.md R105, 44_pack.md R176). -/
def afterWrite (w : Writer) (s : State) : Host.Outcome State Fault Refusal :=
  match w with
  | .typeField body w h => .next (s.setActivity (.writing (.fixHeader body w h)))
  | .fixHeader body w h => .next { s with grp := firstGroup w, activity := .writing (.width body w h) }
  | .width body w h =>
    if s.grp = 0 then .next { s with grp := firstGroup h, activity := .writing (.height body w h) }
    else .next { s with grp := s.grp - 1 }
  | .height body w h =>
    if s.grp = 0 then afterHeader body w h s else .next { s with grp := s.grp - 1 }
  | .value _ => if s.grp = 0 then .next (succeed 0 0 s) else .next { s with grp := s.grp - 1 }
  | .pixelRow k w h => afterFlush k w h s

/-- Writes, one octet at a time, until the operation ends, the environment does not answer, or `n` octets have
been offered (20_memory.md R45, R48, R59). A failed write raises `IoError` (60_exceptions.md R221). -/
def writeLoop : Nat → State → Host.Outcome State Fault Refusal
  | 0, s => .next s
  | n + 1, s =>
    match s.activity with
    | .writing w =>
      match snkWrite (w.octet s) s with
      | .silent => .next s
      | .failed c s1 => .next (raise (.ioError c) s1)
      | .accepted s1 => andThen (afterWrite w s1) (writeLoop n)
    | _ => .next s

/-- One sink write of the writing operation in progress, and what follows it. -/
def writeStep (s : State) : Host.Outcome State Fault Refusal := writeLoop 1 s

/-- A bound of the octets an operation still writes: at most 12 of a header (41_header.md R126), 5 of an
integer (40_vle.md R106), `h * ceil(w/8)` of pixel data (44_pack.md R181). -/
def Writer.octetsBound : Writer → Nat
  | .typeField _ w h => 12 + h.toNat * rowOctets w
  | .fixHeader _ w h => 12 + h.toNat * rowOctets w
  | .width _ w h => 12 + h.toNat * rowOctets w
  | .height _ w h => 12 + h.toNat * rowOctets w
  | .value _ => 5
  | .pixelRow _ w h => h.toNat * rowOctets w

/-- The writing operation in progress runs as far as the environment lets it. -/
def runWriter (s : State) : Host.Outcome State Fault Refusal :=
  match s.activity with
  | .writing w => writeLoop w.octetsBound s
  | _ => .next s

end Sys2Proof.Machine
end

