-- ==== Sys2Proof/Machine/Header.lean ====
section
/-! DEFINITION. The commands `RDHDR` and `WRHDR` (41_header.md). They touch no persistent register (R120). -/

namespace Sys2Proof.Machine

/-- `RDHDR` (41_header.md R121): TypeField, FixHeaderField, Width, Height, each checked as soon as it is read
(R122 to R124); the header goes to the result port (R129). -/
def execRdhdr (s : State) : Host.Outcome State Fault Refusal :=
  whenIdle s fun s => runReader (s.setActivity (.reading (.typeField .deliver)))

/-- `WRHDR w, h` (41_header.md R126): two octets `0x00`, then `w`, then `h`. -/
def execWrhdr (w h : Dim) (s : State) : Host.Outcome State Fault Refusal :=
  whenIdle s fun s => runWriter (s.setActivity (.writing (.typeField none w h)))

end Sys2Proof.Machine
end

