-- ==== Sys2Proof/Machine/Unpack.lean ====
section
/-! DEFINITION. The bit-unpacker (42_unpack.md): the command `UNPACK`, and the start it shares with `RDIMG`. -/

namespace Sys2Proof.Machine

/-- The zero fill, done by the block unless `UNPACK_PREZERO` gives it to the caller (42_unpack.md R143). -/
def prezero (w h : Dim) (s : State) : State :=
  match s.cfg.unpackPrezero with
  | .block => s.setPix (s.pix.zeroFill (pixelCount w h))
  | .caller => s

/-- The start of an unpack (42_unpack.md R141 to R144): the length check, the zero fill, then the first row. An
image without pixels reads nothing (R148). -/
def startUnpack (w h : Dim) (s : State) : State :=
  if pixTooShort s.pix.len w h then raise .usageError s
  else if emptyImage w h then succeed 0 0 (prezero w h s)
  else { prezero w h s with row := 0, col := 0, rowbuf := [], activity := .reading (.pixelRow w h) }

/-- `UNPACK w, h` (42_unpack.md R141), in every phase (R149). -/
def execUnpack (w h : Dim) (s : State) : Host.Outcome State Fault Refusal :=
  whenIdle s fun s => runReader (startUnpack w h s)

end Sys2Proof.Machine
end

