-- ==== Sys2Proof/Machine/Orchestration.lean ====
section
/-! DEFINITION. The public operations of the decoder and encoder halves (45_orchestration.md): `DEC_NEW`,
`DIMS`, `RDIMG`, `ENC_NEW`, `SETTHR`, `ENCODE.L`, `ENCODE.C`. -/

namespace Sys2Proof.Machine

/-- `DEC_NEW` (45_orchestration.md R196 to R198): Uninitialized first, in any phase, and the old header dropped;
then the header read of `RDHDR`, latched on success. -/
def execDecNew (s : State) : Host.Outcome State Fault Refusal :=
  whenIdle s fun s => runReader (s.forgetHeader.setActivity (.reading (.typeField .latch)))

/-- `DIMS` (45_orchestration.md R199): width and height of the latched header; no meaning outside Ready (R200). -/
def execDims (s : State) : Host.Outcome State Fault Refusal :=
  whenIdle s fun s =>
    if s.phase = .ready then .next (succeed s.hdrW s.hdrH s) else .refused .noDecoder

/-- `RDIMG` (45_orchestration.md R201, R202): `UNPACK HDR_W, HDR_H` from where the source stands; no meaning
outside Ready (R200). -/
def execRdimg (s : State) : Host.Outcome State Fault Refusal :=
  whenIdle s fun s =>
    if s.phase = .ready then runReader (startUnpack s.hdrW s.hdrH s) else .refused .noDecoder

/-- `ENC_NEW` (45_orchestration.md R203, R204): only the threshold's default. -/
def execEncNew (s : State) : Host.Outcome State Fault Refusal :=
  whenIdle s fun s => .next (succeed 0 0 (s.setThr Config.thrReset))

/-- `SETTHR t` (45_orchestration.md R205). -/
def execSetthr (t : Octet) (s : State) : Host.Outcome State Fault Refusal :=
  whenIdle s fun s => .next (succeed 0 0 (s.setThr t))

/-- An encode (45_orchestration.md R207): `THR` is read once, here, then the header, then the pack. Under
`check_first` the sample length is checked before the header is written (R208; log 10). -/
def runEncode (k : ColorKind) (w h : Dim) (s : State) : Host.Outcome State Fault Refusal :=
  if s.cfg.encodeCheckOrder = .checkFirst ∧ smpWrongLength s.smp.len k w h then
    .next (raise .invalidImageData s)
  else runWriter { s with thrS := s.thr, activity := .writing (.typeField (some k) w h) }

/-- `ENCODE.L w, h` (45_orchestration.md R207). -/
def execEncodeL (w h : Dim) (s : State) : Host.Outcome State Fault Refusal :=
  whenIdle s (runEncode .luma8 w h)

/-- `ENCODE.C w, h` (45_orchestration.md R207). -/
def execEncodeC (w h : Dim) (s : State) : Host.Outcome State Fault Refusal :=
  whenIdle s (runEncode .rgba8 w h)

end Sys2Proof.Machine
end

