-- ==== Sys2Proof/Machine/Pack.lean ====
section
/-! DEFINITION. The commands `PACK.L` and `PACK.C` (44_pack.md). The threshold is the operand, sampled into
`THR_S`; `THR` is not read (R176). -/

namespace Sys2Proof.Machine

/-- A pack with its threshold sampled (44_pack.md R176). -/
def runPack (k : ColorKind) (w h : Dim) (t : Octet) (s : State) : Host.Outcome State Fault Refusal :=
  andThen (startPack k w h { s with thrS := t }) runWriter

/-- `PACK.L w, h, t` (44_pack.md R176). -/
def execPackL (w h : Dim) (t : Octet) (s : State) : Host.Outcome State Fault Refusal :=
  whenIdle s (runPack .luma8 w h t)

/-- `PACK.C w, h, t` (44_pack.md R176). -/
def execPackC (w h : Dim) (t : Octet) (s : State) : Host.Outcome State Fault Refusal :=
  whenIdle s (runPack .rgba8 w h t)

end Sys2Proof.Machine
end

