-- ==== Sys2Proof/Machine/Threshold.lean ====
section
/-! DEFINITION. The commands of the threshold comparator (43_threshold.md). They read no register, stream or
buffer and cannot fail (R160). -/

namespace Sys2Proof.Machine

/-- A comparator's bit as the payload `res_a`: bit 0, bits 31:1 zero (60_exceptions.md R231). -/
def bitPayload (bit : Bool) : Dim := (BitVec.ofBool bit).setWidth 32

/-- `THRCMP.L s, t` (43_threshold.md R162). -/
def execThrcmpL (v t : Octet) (s : State) : Host.Outcome State Fault Refusal :=
  whenIdle s fun s => .next (succeed (bitPayload (thrcmpLuma v t)) 0 s)

/-- `THRCMP.C r, g, b, a, t` (43_threshold.md R163). -/
def execThrcmpC (r g b a t : Octet) (s : State) : Host.Outcome State Fault Refusal :=
  whenIdle s fun s => .next (succeed (bitPayload (thrcmpRgba r g b a t)) 0 s)

end Sys2Proof.Machine
end

