-- ==== Sys2Proof/Machine/Vle.lean ====
section
/-! DEFINITION. The commands `VLDEC` and `VLENC` (40_vle.md). They touch no persistent register (R109). -/

namespace Sys2Proof.Machine

/-- `VLDEC` (40_vle.md R101): a fresh accumulator, then octets of the source until one has bit 7 clear. -/
def execVldec (s : State) : Host.Outcome State Fault Refusal :=
  whenIdle s fun s => runReader { s with acc := 0, activity := .reading .value }

/-- `VLENC v` (40_vle.md R105): the groups from `n-1` down to 0 go to the sink. -/
def execVlenc (v : Dim) (s : State) : Host.Outcome State Fault Refusal :=
  whenIdle s fun s => runWriter { s with grp := firstGroup v, activity := .writing (.value v) }

end Sys2Proof.Machine
end

