-- ==== Sys2Proof/Machine/Dispatch.lean ====
section
/-! DEFINITION. Every instruction's meaning, one arm a constructor. -/

namespace Sys2Proof.Machine

def exec (i : Instr) (s : State) : Host.Outcome State Fault Refusal :=
  match i with
  | .decNew => Sys2Proof.Machine.execDecNew s
  | .dims => Sys2Proof.Machine.execDims s
  | .rdimg => Sys2Proof.Machine.execRdimg s
  | .encNew => Sys2Proof.Machine.execEncNew s
  | .setthr t => Sys2Proof.Machine.execSetthr t s
  | .encodeL w h => Sys2Proof.Machine.execEncodeL w h s
  | .encodeC w h => Sys2Proof.Machine.execEncodeC w h s
  | .rdhdr => Sys2Proof.Machine.execRdhdr s
  | .wrhdr w h => Sys2Proof.Machine.execWrhdr w h s
  | .unpack w h => Sys2Proof.Machine.execUnpack w h s
  | .packL w h t => Sys2Proof.Machine.execPackL w h t s
  | .packC w h t => Sys2Proof.Machine.execPackC w h t s
  | .vldec => Sys2Proof.Machine.execVldec s
  | .vlenc v => Sys2Proof.Machine.execVlenc v s
  | .thrcmpL v t => Sys2Proof.Machine.execThrcmpL v t s
  | .thrcmpC r g b a t => Sys2Proof.Machine.execThrcmpC r g b a t s
  | .typeOk => Sys2Proof.Machine.execTypeOk s
  | .typeBad t => Sys2Proof.Machine.execTypeBad t s
  | .fixhdrOk t r => Sys2Proof.Machine.execFixhdrOk t r s
  | .fixhdrExt t r => Sys2Proof.Machine.execFixhdrExt t r s
  | .vleCont g => Sys2Proof.Machine.execVleCont g s
  | .vleLast g => Sys2Proof.Machine.execVleLast g s
  | .pixoct p => Sys2Proof.Machine.execPixoct p s

end Sys2Proof.Machine
end

