-- ==== Sys2Proof/Machine/Fetch.lean ====
section
/-! DEFINITION. Where the next instruction comes from. There is no program counter (10_state.md R20): an idle
block takes a word of the command port (20_memory.md R41), a block in a reading operation takes an octet of
the source (20_memory.md R43), decoded at the field where the reader stands (30_encoding.md R80). -/

namespace Sys2Proof.Machine

/-- What a fetch comes to. -/
inductive Fetched where
  /-- an instruction, and the state with its word or octet taken -/
  | instr (i : Instr) (s : State)
  /-- no instruction: the step ends in this state -/
  | done (s : State)
  /-- the word offered is reserved -/
  | reserved (low : Octet)

/-- The oldest word offered at the command port (20_memory.md R41; oldest first: DESIGN CHOICE, log 25). Without one
the block does nothing (70_reset_and_hazards.md R261); a reserved word is refused (30_encoding.md R86). -/
def fetchCommand (s : State) : Fetched :=
  match s.cmds with
  | [] => .done s
  | c :: rest =>
    match decodeCommand c with
    | .ok i => .instr i { s with cmds := rest }
    | .error (.reservedCommand low) => .reserved low

/-- The next octet of the source for a blocked reader (20_memory.md R43, R48): the operation waits while the
environment does not answer, and ends with `IoError` where it fails the read. -/
def fetchOctet (r : Reader) (s : State) : Fetched :=
  match srcRead s with
  | .silent => .done s
  | .failed c s1 => .done (raise (.ioError c) s1)
  | .delivered o s1 => .instr (decodeOctet r.field o).toInstr s1

/-- `s` with the word of a table row where the next step fetches it (log 15): at the head of the command port
of an idle block, or as the next octet of the source with the reader at the field `tablePort` names. -/
def placeFetchWord (s : State) (nbits w : Nat) : State :=
  let word := BitVec.ofNat 80 (w % 2 ^ nbits)
  let withOctet (r : Reader) : State :=
    { s with
      activity := .reading r
      src := s.src.take s.ipos ++ word.extractLsb' 0 8 :: s.src.drop s.ipos
      ipos := (s.src.take s.ipos).length
      srcAnswers := .deliver :: s.srcAnswers }
  match tablePort nbits w with
  | .command => { s with activity := .idle, cmds := word :: s.cmds }
  | .source .typeField => withOctet (.typeField .deliver)
  | .source .fixHeader => withOctet (.fixHeader .deliver)
  | .source .width => withOctet (.width .deliver)
  | .source .height => withOctet (.height .deliver 0)
  | .source .value => withOctet .value
  | .source .pixelData => withOctet (.pixelRow 8 1)

end Sys2Proof.Machine
end

