-- ==== Sys2Proof/Machine/Step.lean ====
section
/-! DEFINITION. One step of the block: an idle block runs the next command of its port, a blocked reading
operation runs the next octet of the source, a blocked writing operation tries its write again. -/

namespace Sys2Proof.Machine

/-- What is fetched is executed. -/
def runFetched (f : Fetched) : Host.Outcome State Fault Refusal :=
  match f with
  | .instr i s => exec i s
  | .done s => .next s
  | .reserved low => .refused (.reservedCommand low)

/-- One step (20_memory.md R41, R48; 30_encoding.md R80). -/
def step (s : State) : Host.Outcome State Fault Refusal :=
  match s.activity with
  | .idle => runFetched (fetchCommand s)
  | .reading r => runFetched (fetchOctet r s)
  | .writing _ => writeStep s

/-- `s` with an instruction's word stored where the next step fetches it (log 15). -/
def State.withFetchWord (s : State) (nbits w : Nat) : State := placeFetchWord s nbits w

end Sys2Proof.Machine
end

