-- ==== Sys2Proof/Machine/Environment.lean ====
section
/-! DEFINITION. What the environment may do (20_memory.md R40 to R48; 70_reset_and_hazards.md R262 to R270).
These moves are no instruction and no part of `step`: they are the host's side of the ports. -/

namespace Sys2Proof.Machine

/-- A move of the environment. -/
inductive EnvMove where
  /-- offer a command: it waits at the port (20_memory.md R41), behind those that wait already, any number of them, and
  is not withdrawn (DESIGN CHOICE, log 25) -/
  | offer (c : CommandWord)
  /-- attach or replace the source, from its first octet (20_memory.md R42, 70_reset_and_hazards.md R263) -/
  | attachSource (octets : List Octet)
  /-- reposition the source, for instance rewind it (20_memory.md R42) -/
  | reposition (position : Nat)
  /-- attach a sink that already holds these octets (20_memory.md R44, 70_reset_and_hazards.md R264) -/
  | attachSink (octets : List Octet)
  /-- attach the sample buffer (20_memory.md R46) -/
  | attachSamples (bytes : List Octet)
  /-- attach the pixel buffer (20_memory.md R47) -/
  | attachPixels (bytes : List Octet)
  /-- decide how the coming reads are answered (20_memory.md R43), a blocked one first (R48) -/
  | answerReads (answers : List ReadAnswer)
  /-- decide how the coming writes are answered (20_memory.md R45), a blocked one first (R48) -/
  | answerWrites (answers : List WriteAnswer)
  /-- drive the reset input (70_reset_and_hazards.md R260, R262) -/
  | reset
deriving DecidableEq, Repr

/-- The reset input: the registers take their reset values, an operation in progress is abandoned without a
result, and the environment's state is not touched (10_state.md R25; 70_reset_and_hazards.md R260, R262). The
registers the spec leaves unspecified take the values of `State.reset` (log 2, 3, 19). -/
def State.resetInput (s : State) : State :=
  { State.reset with
    cfg := s.cfg
    cmds := s.cmds
    results := s.results
    src := s.src
    ipos := s.ipos
    srcAnswers := s.srcAnswers
    snk := s.snk
    snkAnswers := s.snkAnswers
    smp := s.smp
    pix := s.pix
    freeIdx := s.freeIdx }

/-- A change of stream or buffer, which the environment may make only between operations
(70_reset_and_hazards.md R270; U1: no move during an operation). -/
def betweenOperations (s t : State) : Option State := if s.busy then none else some t

/-- The state after a move, `none` where the environment must not make it. -/
def envMove (m : EnvMove) (s : State) : Option State :=
  match m with
  | .offer c => some { s with cmds := s.cmds ++ [c] }
  | .attachSource octets => betweenOperations s { s with src := octets, ipos := 0 }
  | .reposition position =>
    if position ≤ s.src.length then betweenOperations s { s with ipos := position } else none
  | .attachSink octets => betweenOperations s { s with snk := octets }
  | .attachSamples bytes =>
    if bytes.length < 2 ^ s.cfg.lenBits then betweenOperations s { s with smp := Memory.ofBytes bytes } else none
  | .attachPixels bytes =>
    if bytes.length < 2 ^ s.cfg.lenBits then betweenOperations s { s with pix := Memory.ofBytes bytes } else none
  | .answerReads answers => some { s with srcAnswers := answers }
  | .answerWrites answers => some { s with snkAnswers := answers }
  | .reset => some s.resetInput

end Sys2Proof.Machine
end

