-- ==== Sys2Proof/Safety.lean ====
section
/-! DEFINITION. The terms the statements use: the invariant of the block, and what an operation leaves
unchanged. -/

namespace Sys2Proof.Machine

/-- The environment's state is as 20_memory.md R42 and 00_scope.md R6 say: the position within the source,
both buffers in canonical form and shorter than `2 ^ LEN_BITS`. -/
def State.EnvOk (s : State) : Prop :=
  s.ipos ≤ s.src.length ∧ s.smp.wf = true ∧ s.pix.wf = true ∧
  s.smp.len < 2 ^ s.cfg.lenBits ∧ s.pix.len < 2 ^ s.cfg.lenBits

/-- The decoder half is as 10_state.md R12 and R14 say at an operation boundary: HeaderRead is never seen, and
in Ready the latched type and extension flag are 0. -/
def State.DecoderOk (s : State) : Prop :=
  s.phase ≠ .headerRead ∧ (s.phase = .ready → s.hdrType = 0 ∧ s.hdrExt = 0)

/-- A reading operation in progress: an unpack has passed its length check (42_unpack.md R142) and stands in a
row that exists, with part of it in `ROWBUF` (R144) and no pixel of it written, so `COL` = 0 (10_state.md R21,
R28); a `DEC_NEW` has set Uninitialized (45_orchestration.md R196). -/
def Reader.Ok (r : Reader) (s : State) : Prop :=
  match r with
  | .typeField d | .fixHeader d | .width d | .height d _ => d = .latch → s.phase = .uninitialized
  | .value => True
  | .pixelRow w h =>
    pixelCount w h ≤ s.pix.len ∧ s.row.toNat < h.toNat ∧ s.rowbuf.length < rowOctets w ∧ s.col = 0

/-- A writing operation in progress: `GRP` names a group of the integer (40_vle.md R105); a pack has passed its
length check (44_pack.md R177), stands at a pixel that exists, and holds in `OCT` the bits of the octet it is
about to flush, the bits below them 0 (10_state.md R26, R27). -/
def Writer.Ok (w : Writer) (s : State) : Prop :=
  match w with
  | .typeField _ _ _ | .fixHeader _ _ _ => True
  | .width _ w _ => s.grp.toNat < vleLength w
  | .height _ _ h => s.grp.toNat < vleLength h
  | .value v => s.grp.toNat < vleLength v
  | .pixelRow k w h =>
    s.smp.len = sampleLength k w h ∧ s.row.toNat < h.toNat ∧ s.col.toNat < w.toNat ∧
    s.nb.toNat = s.col.toNat % 8 + 1 ∧ s.oct.toNat % 2 ^ (8 - s.nb.toNat) = 0 ∧ flushDue w s.col s.nb = true

/-- What holds of the operation in progress. -/
def Activity.Ok (a : Activity) (s : State) : Prop :=
  match a with
  | .idle => True
  | .reading r => r.Ok s
  | .writing w => w.Ok s

/-- The invariant of the block. -/
def State.Inv (s : State) : Prop := s.EnvOk ∧ s.DecoderOk ∧ s.activity.Ok s

/-- `THR`, `PHASE` and `HDR_*` are as before (10_state.md R11 to R13). -/
def SameRegisters (s t : State) : Prop :=
  t.thr = s.thr ∧ t.phase = s.phase ∧ t.hdrType = s.hdrType ∧ t.hdrExt = s.hdrExt ∧ t.hdrW = s.hdrW ∧ t.hdrH = s.hdrH

/-- `PHASE` and `HDR_*`, the decoder half's registers, are as before. -/
def SameDecoder (s t : State) : Prop :=
  t.phase = s.phase ∧ t.hdrType = s.hdrType ∧ t.hdrExt = s.hdrExt ∧ t.hdrW = s.hdrW ∧ t.hdrH = s.hdrH

/-- The source is not accessed: its octets, its position and the answers still to come are as before. -/
def SameSource (s t : State) : Prop := t.src = s.src ∧ t.ipos = s.ipos ∧ t.srcAnswers = s.srcAnswers

/-- The sink is not accessed. -/
def SameSink (s t : State) : Prop := t.snk = s.snk ∧ t.snkAnswers = s.snkAnswers

/-- Every byte of a buffer reads as before, and its length is as before. -/
def SameBytes (m n : Memory) : Prop := n.len = m.len ∧ ∀ i, n.read i = m.read i

/-- Every byte of a buffer from index `k` on reads as before, and its length is as before. -/
def SameBytesFrom (k : Nat) (m n : Memory) : Prop := n.len = m.len ∧ ∀ i, k ≤ i → n.read i = m.read i

/-- The parameters and the commands still waiting are as before. -/
def SamePort (s t : State) : Prop := t.cfg = s.cfg ∧ t.cmds = s.cmds

/-- The operation has ended with the result `r`, and only that (20_memory.md R41). -/
def Ended (r : Result) (s t : State) : Prop := t.activity = .idle ∧ t.results = s.results ++ [r]

/-- The operation is blocked at an access: in progress, with no result (20_memory.md R48). -/
def Blocked (s t : State) : Prop := t.busy = true ∧ t.results = s.results

/-- The octets `VLENC v` writes (40_vle.md R105): group `n-1` first, down to group 0. -/
def vleOctets (v : Dim) : List Octet :=
  (List.range (vleLength v)).reverse.map (fun g => vleOctet v (BitVec.ofNat 3 g))

/-- The octets `WRHDR w, h` writes (41_header.md R126). -/
def headerOctets (w h : Dim) : List Octet := [0x00, 0x00] ++ vleOctets w ++ vleOctets h

/-- The value of a VLE integer's octets (30_encoding.md R74): the sum of its groups, each at its place, modulo
`2 ^ 32`. -/
def vleValue (octets : List Octet) : Dim :=
  BitVec.ofNat 32 (octets.foldl (fun acc o => acc * 128 + o.toNat % 128) 0)

/-- The octets of exactly one VLE integer (30_encoding.md R74, R75): bit 7 set on all but the last. -/
def isVleInteger : List Octet → Bool
  | [] => false
  | [o] => !o.getLsbD 7
  | o :: rest => o.getLsbD 7 && isVleInteger rest

/-- The bit of the pixel in row `r`, column `c` that a pack computes from the bytes of `SMP` with threshold `t`
(44_pack.md R179; 43_threshold.md R162, R163). -/
def pixelBit (k : ColorKind) (m : Memory) (t : Octet) (w r c : Nat) : Bool :=
  let i := r * w + c
  match k with
  | .luma8 => thrcmpLuma (m.read i) t
  | .rgba8 => thrcmpRgba (m.read (4 * i)) (m.read (4 * i + 1)) (m.read (4 * i + 2)) (m.read (4 * i + 3)) t

/-- Octet `j` of row `r` of the packed image (44_pack.md R180, R181): bit `7 - b` is pixel `8j + b`, a padding
bit is 0. -/
def packedOctet (k : ColorKind) (m : Memory) (t : Octet) (w r j : Nat) : Octet :=
  (List.range 8).foldl
    (fun acc b =>
      if 8 * j + b < w ∧ pixelBit k m t w r (8 * j + b) then acc ||| (1#8 <<< (7 - b)) else acc) 0

/-- The pixel data of an image (44_pack.md R181): `h` rows of `ceil(w/8)` octets. -/
def packedOctets (k : ColorKind) (m : Memory) (t : Octet) (w h : Dim) : List Octet :=
  (List.range h.toNat).flatMap fun r =>
    (List.range (rowOctets w)).map fun j => packedOctet k m t w.toNat r j

/-- The bit of the pixel in row `r`, column `c` in the pixel data that starts at position `at0` of a source
(20_memory.md R50, R54; 42_unpack.md R145): bit `7 - (c mod 8)` of octet `c div 8` of the row. -/
def streamBit (src : List Octet) (at0 : Nat) (w : Dim) (r c : Nat) : Bool :=
  (src.getD (at0 + r * rowOctets w + c / 8) 0).getLsbD (7 - c % 8)

/-- Nothing but the transient registers and the result port has changed. -/
def Quiet (s t : State) : Prop :=
  SamePort s t ∧ SameRegisters s t ∧ SameSource s t ∧ SameSink s t ∧ SameBytes s.smp t.smp ∧ SameBytes s.pix t.pix

/-- What an operation leaves alone that reads `n` octets of the source, unanswered or failed accesses apart, and
writes no octet and no byte; the registers are said beside it. -/
def ReadsOctets (n : Nat) (s t : State) : Prop :=
  SamePort s t ∧ t.src = s.src ∧ t.ipos = s.ipos + n ∧ SameSink s t ∧ SameBytes s.smp t.smp ∧ SameBytes s.pix t.pix

/-- What an operation leaves alone that appends `octets` to the sink: everything but the sink's answers still to come. -/
def WritesOctets (octets : List Octet) (s t : State) : Prop :=
  SamePort s t ∧ SameRegisters s t ∧ SameSource s t ∧ SameBytes s.smp t.smp ∧ SameBytes s.pix t.pix ∧
  t.snk = s.snk ++ octets

/-- `n` steps one after another. -/
def runSteps : Nat → State → Host.Outcome State Fault Refusal
  | 0, s => .next s
  | n + 1, s => andThen (step s) (runSteps n)

/-- The persistent registers (10_state.md R11 to R13). -/
structure Registers where
  thr : Octet
  phase : Phase
  hdrType : Octet
  hdrExt : BitVec 1
  hdrW : Dim
  hdrH : Dim
deriving DecidableEq, Repr

/-- The state with other persistent registers. -/
def State.withRegisters (r : Registers) (s : State) : State :=
  { s with thr := r.thr, phase := r.phase, hdrType := r.hdrType, hdrExt := r.hdrExt, hdrW := r.hdrW, hdrH := r.hdrH }

/-- The state with other registers of the decoder half. -/
def State.withDecoder (r : Registers) (s : State) : State :=
  { s with phase := r.phase, hdrType := r.hdrType, hdrExt := r.hdrExt, hdrW := r.hdrW, hdrH := r.hdrH }

/-- The commands that expose one unit (30_encoding.md R85, second group; 45_orchestration.md R211, last row). -/
def isComponent : Instr → Bool
  | .rdhdr | .wrhdr _ _ | .unpack _ _ | .packL _ _ _ | .packC _ _ _ | .vldec | .vlenc _ | .thrcmpL _ _
  | .thrcmpC _ _ _ _ _ => true
  | .decNew | .dims | .rdimg | .encNew | .setthr _ | .encodeL _ _ | .encodeC _ _ | .typeOk | .typeBad _
  | .fixhdrOk _ _ | .fixhdrExt _ _ | .vleCont _ | .vleLast _ | .pixoct _ => false

/-- The commands of the decoder half (45_orchestration.md R195). -/
def isDecoderCommand : Instr → Bool
  | .decNew | .dims | .rdimg => true
  | .encNew | .setthr _ | .encodeL _ _ | .encodeC _ _ | .rdhdr | .wrhdr _ _ | .unpack _ _ | .packL _ _ _
  | .packC _ _ _ | .vldec | .vlenc _ | .thrcmpL _ _ | .thrcmpC _ _ _ _ _ | .typeOk | .typeBad _
  | .fixhdrOk _ _ | .fixhdrExt _ _ | .vleCont _ | .vleLast _ | .pixoct _ => false

/-- The commands of the encoder half (45_orchestration.md R195). -/
def isEncoderCommand : Instr → Bool
  | .encNew | .setthr _ | .encodeL _ _ | .encodeC _ _ => true
  | .decNew | .dims | .rdimg | .rdhdr | .wrhdr _ _ | .unpack _ _ | .packL _ _ _
  | .packC _ _ _ | .vldec | .vlenc _ | .thrcmpL _ _ | .thrcmpC _ _ _ _ _ | .typeOk | .typeBad _
  | .fixhdrOk _ _ | .fixhdrExt _ _ | .vleCont _ | .vleLast _ | .pixoct _ => false

/-- `i` unpacks an image of width `w` and height `h`: `UNPACK`, or `RDIMG` with these dimensions latched
(42_unpack.md R141, 45_orchestration.md R201). -/
def Unpacks (i : Instr) (w h : Dim) (s : State) : Prop :=
  i = .unpack w h ∨ (i = .rdimg ∧ s.phase = .ready ∧ s.hdrW = w ∧ s.hdrH = h)

/-- `i` packs samples of kind `k` with threshold `t` (44_pack.md R176). -/
def Packs (i : Instr) (k : ColorKind) (w h : Dim) (t : Octet) : Prop :=
  (k = .luma8 ∧ i = .packL w h t) ∨ (k = .rgba8 ∧ i = .packC w h t)

/-- `i` encodes samples of kind `k` (45_orchestration.md R207). -/
def Encodes (i : Instr) (k : ColorKind) (w h : Dim) : Prop :=
  (k = .luma8 ∧ i = .encodeL w h) ∨ (k = .rgba8 ∧ i = .encodeC w h)

/-- The octets a command writes when the sink takes them all and the sample buffer has the right length
(40_vle.md R105, 41_header.md R126, 44_pack.md R176, 45_orchestration.md R207). -/
def octetsToWrite (i : Instr) (s : State) : List Octet :=
  match i with
  | .vlenc v => vleOctets v
  | .wrhdr w h => headerOctets w h
  | .packL w h t => packedOctets .luma8 s.smp t w h
  | .packC w h t => packedOctets .rgba8 s.smp t w h
  | .encodeL w h => headerOctets w h ++ packedOctets .luma8 s.smp s.thr w h
  | .encodeC w h => headerOctets w h ++ packedOctets .rgba8 s.smp s.thr w h
  | .decNew | .dims | .rdimg | .encNew | .setthr _ | .rdhdr | .unpack _ _ | .vldec | .thrcmpL _ _
  | .thrcmpC _ _ _ _ _ | .typeOk | .typeBad _ | .fixhdrOk _ _ | .fixhdrExt _ _ | .vleCont _ | .vleLast _
  | .pixoct _ => []

/-- The sample buffer has the length the command demands, where it demands one (44_pack.md R177). -/
def samplesFit (i : Instr) (s : State) : Prop :=
  match i with
  | .packL w h _ | .encodeL w h => s.smp.len = sampleLength .luma8 w h
  | .packC w h _ | .encodeC w h => s.smp.len = sampleLength .rgba8 w h
  | .decNew | .dims | .rdimg | .encNew | .setthr _ | .rdhdr | .wrhdr _ _ | .unpack _ _ | .vldec | .vlenc _
  | .thrcmpL _ _ | .thrcmpC _ _ _ _ _ | .typeOk | .typeBad _ | .fixhdrOk _ _ | .fixhdrExt _ _ | .vleCont _
  | .vleLast _ | .pixoct _ => True

/-- A plain source that holds `rest` has no header there: the error of the first failing step, and the octets
consumed before it (41_header.md R122 to R124). -/
def HeaderFails (rest : List Octet) (e : Err) (n : Nat) : Prop :=
  (rest = [] ∧ e = .ioError .eos ∧ n = 0) ∨
  (∃ t tail, rest = t :: tail ∧ t ≠ 0x00 ∧ e = .unsupportedType t ∧ n = 1) ∨
  (rest = [0x00] ∧ e = .ioError .eos ∧ n = 1) ∨
  (∃ f tail, rest = 0x00 :: f :: tail ∧ f.getLsbD 7 = true ∧ e = .unsupportedHeaders ∧ n = 2) ∨
  (∃ f ws, rest = 0x00 :: f :: ws ∧ f.getLsbD 7 = false ∧ (∀ o ∈ ws, o.getLsbD 7 = true) ∧
    e = .ioError .eos ∧ n = 2 + ws.length) ∨
  (∃ f ws hs, rest = 0x00 :: f :: (ws ++ hs) ∧ f.getLsbD 7 = false ∧ isVleInteger ws = true ∧
    (∀ o ∈ hs, o.getLsbD 7 = true) ∧ e = .ioError .eos ∧ n = 2 + ws.length + hs.length)

/-- Octets that stop short of a whole header: a header read takes them all and needs another (41_header.md R121,
R124). -/
def StopsShort (octets : List Octet) : Prop := HeaderFails octets (.ioError .eos) octets.length

/-- What a pixel byte reads as before its row is unpacked (42_unpack.md R143): zero-filled by the block, or as the
caller handed it over. -/
def prefilled (s : State) (j : Nat) : Octet :=
  match s.cfg.unpackPrezero with
  | .block => 0x00
  | .caller => s.pix.read j

/-- What an unpack of `w` times `h` leaves that has consumed `n` octets and unpacked `r` rows: each byte of those rows
is `0xFF` exactly where its bit is 1, no byte of a later row is written by a bit, and nothing else has changed
(42_unpack.md R144 to R146, R149). -/
def Unpacked (w h : Dim) (r n : Nat) (s u : State) : Prop :=
  SamePort s u ∧ SameRegisters s u ∧ SameSink s u ∧ SameBytes s.smp u.smp ∧ u.src = s.src ∧ u.ipos = s.ipos + n ∧
  SameBytesFrom (w.toNat * h.toNat) s.pix u.pix ∧
  (∀ r' c, r' < r → c < w.toNat →
    u.pix.read (r' * w.toNat + c) =
      if streamBit s.src s.ipos w r' c then 0xFF else prefilled s (r' * w.toNat + c)) ∧
  ∀ j, r * w.toNat ≤ j → j < w.toNat * h.toNat → u.pix.read j = prefilled s j

/-- The octets of the source consumed between two states. -/
def consumed (s t : State) : List Octet := (s.src.drop s.ipos).take (t.ipos - s.ipos)

/-- The errors a command can end with (60_exceptions.md R226, last column). -/
def mayRaise (i : Instr) (e : Err) : Prop :=
  match e with
  | .ioError _ => i = .decNew ∨ i = .rdimg ∨ i = .rdhdr ∨ i = .vldec ∨ (∃ v, i = .vlenc v) ∨
      (∃ w h, i = .encodeL w h ∨ i = .encodeC w h ∨ i = .wrhdr w h ∨ i = .unpack w h) ∨
      ∃ w h t, i = .packL w h t ∨ i = .packC w h t
  | .unsupportedType t => t ≠ 0x00 ∧ (i = .decNew ∨ i = .rdhdr)
  | .unsupportedHeaders => i = .decNew ∨ i = .rdhdr
  | .usageError => i = .rdimg ∨ ∃ w h, i = .unpack w h
  | .invalidImageData => (∃ w h, i = .encodeL w h ∨ i = .encodeC w h) ∨ ∃ w h t, i = .packL w h t ∨ i = .packC w h t

/-- The payload `a`, `b` with which a command that takes `s` to `t` succeeds (60_exceptions.md R231): the latched
width and height, those of the header consumed, the value of the integer consumed, the comparator's bit, and 0
elsewhere. -/
def mayDeliver (i : Instr) (s t : State) (a b : Dim) : Prop :=
  match i with
  | .dims => a = s.hdrW ∧ b = s.hdrH
  | .rdhdr => ∃ f ws hs, consumed s t = 0x00 :: f :: (ws ++ hs) ∧ f.getLsbD 7 = false ∧ isVleInteger ws = true ∧
      isVleInteger hs = true ∧ a = vleValue ws ∧ b = vleValue hs
  | .vldec => isVleInteger (consumed s t) = true ∧ a = vleValue (consumed s t) ∧ b = 0
  | .thrcmpL v x => a = (if x.toNat ≤ v.toNat then 1 else 0) ∧ b = 0
  | .thrcmpC r g bl al x => a = (if x.toNat ≤ (r.toNat + g.toNat + bl.toNat + al.toNat) / 4 then 1 else 0) ∧ b = 0
  | .decNew | .rdimg | .encNew | .setthr _ | .encodeL _ _ | .encodeC _ _ | .wrhdr _ _ | .unpack _ _ | .packL _ _ _
  | .packC _ _ _ | .vlenc _ | .typeOk | .typeBad _ | .fixhdrOk _ _ | .fixhdrExt _ _ | .vleCont _ | .vleLast _
  | .pixoct _ => a = 0 ∧ b = 0

end Sys2Proof.Machine
end

