-- ==== Sys2Proof/Certificates/Slice0/Obligations.lean ====
section
/-! DEFINITION. The statements for the provers. -/

open Sys2Proof Sys2Proof.Machine

/-! ## Reset and the invariant -/

/-- The reset input (10_state.md R25, 70_reset_and_hazards.md R262): `THR`, `PHASE` and `BUSY` take their reset values,
an operation in progress is abandoned without a result, and the environment's state is not touched. That a reset input
exists and does this is the spec's own choice ("this spec's choice", R25; decision D19); log 19. -/
def Obligations.ResetInputGivesResetValues : Prop :=
  ∀ s : State, s.resetInput.thr = 0x7F ∧ s.resetInput.phase.code = 0 ∧ s.resetInput.busy = false ∧
    s.resetInput.results = s.results ∧ SameSource s s.resetInput ∧ SameSink s s.resetInput ∧
    s.resetInput.smp = s.smp ∧ s.resetInput.pix = s.pix

/-- The state after reset meets the invariant. -/
def Obligations.ResetStateMeetsInvariant : Prop := State.reset.Inv ∧ ∀ s : State, s.EnvOk → s.resetInput.Inv

/-- Every step keeps the invariant: buffers in canonical form, the position within the source, `PHASE` never
HeaderRead (10_state.md R12), the latched type and flag 0 in Ready (R14), `OCT` and `NB` as R26 and R27 say, `COL` 0
while a row is read and none of its pixels written (R28), and the length checks of 42_unpack.md R142 and 44_pack.md
R177 passed by the operation in progress. -/
def Obligations.StepKeepsInvariant : Prop := ∀ s t : State, s.Inv → step s = .next t → t.Inv

/-- Every move of the environment keeps the invariant (20_memory.md R42 to R47, 70_reset_and_hazards.md R262, R270). -/
def Obligations.EnvironmentKeepsInvariant : Prop :=
  ∀ (m : EnvMove) (s t : State), s.Inv → envMove m s = some t → t.Inv

/-- No access leaves a buffer: from a state that meets the invariant nothing faults (20_memory.md R46, R47). -/
def Obligations.NoInstructionFaults : Prop :=
  ∀ s : State, s.Inv → (∀ (i : Instr) (f : Fault), exec i s ≠ .fault f) ∧ ∀ f : Fault, step s ≠ .fault f

/-! ## Encoding -/

/-- Decoding the encoding of a well-formed instruction gives it back, at every port where it is found
(30_encoding.md R71 to R73, R80, R84, R85). -/
def Obligations.DecodeOfEncodeIsTheInstruction : Prop :=
  ∀ (i : Instr) (p : Port), WellFormed i = true → i.foundAt p = true → decode p (encode i) = .ok i

/-- What the decoder answers is well-formed, belongs to the port, and has the low byte of the word it was read from. -/
def Obligations.DecodedInstructionBelongsToPort : Prop :=
  ∀ (p : Port) (c : CommandWord) (i : Instr), decode p c = .ok i →
    WellFormed i = true ∧ i.foundAt p = true ∧ CommandWord.low (encode i) = CommandWord.low c

/-- 30_encoding.md R86: which low bytes are reserved, that a reserved command is refused, and that operand fields an
operation does not use are ignored. -/
def Obligations.ReservedCommandsAreRefused : Prop :=
  (∀ c : CommandWord,
    decodeCommand c = .error (.reservedCommand (CommandWord.low c)) ↔
      (c.extractLsb' 0 4 = 0x0#4 ∨ c.extractLsb' 0 4 = 0x7#4 ∨ c.extractLsb' 0 4 = 0xF#4 ∨
       (c.getLsbD 4 = true ∧ c.extractLsb' 0 4 ≠ 0x6#4 ∧ c.extractLsb' 0 4 ≠ 0xB#4 ∧ c.extractLsb' 0 4 ≠ 0xE#4) ∨
       c.extractLsb' 5 3 ≠ 0#3)) ∧
  (∀ (s : State) (c : CommandWord), s.activity = .idle → s.cmds = [c] →
    decodeCommand c = .error (.reservedCommand (CommandWord.low c)) →
    step s = .refused (.reservedCommand (CommandWord.low c))) ∧
  (∀ (low : Octet) (a a' b b' : Dim) (t t' : Octet),
    (low ∈ [0x01#8, 0x02#8, 0x03#8, 0x04#8, 0x08#8, 0x0C#8] →
      decodeCommand (commandWord b a t low) = decodeCommand (commandWord b' a' t' low)) ∧
    (low = 0x05#8 → decodeCommand (commandWord b a t low) = decodeCommand (commandWord b' a' t low)) ∧
    (low ∈ [0x06#8, 0x16#8, 0x09#8, 0x0A#8] →
      decodeCommand (commandWord b a t low) = decodeCommand (commandWord b a t' low)) ∧
    (low = 0x0D#8 → decodeCommand (commandWord b a t low) = decodeCommand (commandWord b' a t' low)) ∧
    (low = 0x0E#8 → a.extractLsb' 0 8 = a'.extractLsb' 0 8 →
      decodeCommand (commandWord b a t low) = decodeCommand (commandWord b' a' t low)) ∧
    (low = 0x1E#8 → decodeCommand (commandWord b a t low) = decodeCommand (commandWord b' a t low)))

/-- The example words of 30_encoding.md R92, which the spec marks as derived from R84 and R85. -/
def Obligations.ExampleCommandWordsDecode : Prop :=
  decode .command 0x00000000000000000001#80 = .ok .decNew ∧
  decode .command 0x00000000000000008005#80 = .ok (.setthr 0x80) ∧
  decode .command 0x00000002000000020006#80 = .ok (.encodeL 2 2) ∧
  decode .command 0x00000002000000030016#80 = .ok (.encodeC 3 2) ∧
  decode .command 0x00000001000000097F0B#80 = .ok (.packL 9 1 0x7F) ∧
  decode .command 0x0000000000004000000D#80 = .ok (.vlenc 16384) ∧
  decode .command 0x0000000000FFFFFF7F1E#80 = .ok (.thrcmpC 255 255 255 0 0x7F)

/-- A word of each octet class, bit by bit from 30_encoding.md R71 to R73 and R76. -/
def Obligations.ExampleWireOctetsDecode : Prop :=
  decode (.source .typeField) 0b00000000#80 = .ok .typeOk ∧
  decode (.source .typeField) 0b10000001#80 = .ok (.typeBad 0x81) ∧
  decode (.source .fixHeader) 0b01100101#80 = .ok (.fixhdrOk 0b11 0b00101) ∧
  decode (.source .fixHeader) 0b11100101#80 = .ok (.fixhdrExt 0b11 0b00101) ∧
  decode (.source .width) 0b11000010#80 = .ok (.vleCont 0b1000010) ∧
  decode (.source .height) 0b01000010#80 = .ok (.vleLast 0b1000010) ∧
  decode (.source .pixelData) 0b10100101#80 = .ok (.pixoct 0b10100101)

/-! ## The step -/

/-- A step runs the decoded instruction: an idle block the oldest command of the port, a reading operation the octet
the source delivers, decoded at the field where the reader stands (20_memory.md R41, R43; 30_encoding.md R80). A
reserved word at the head of the port is refused. That commands wait in a list, the oldest first, is the model's choice
(DESIGN CHOICE, log 25). -/
def Obligations.StepRunsTheDecodedInstruction : Prop :=
  (∀ (s : State) (c : CommandWord) (rest : List CommandWord) (i : Instr), s.activity = .idle → s.cmds = c :: rest →
    decode .command c = .ok i → step s = exec i { s with cmds := rest }) ∧
  (∀ (s : State) (c : CommandWord) (rest : List CommandWord) (low : Octet), s.activity = .idle → s.cmds = c :: rest →
    decode .command c = .error (.reservedCommand low) → step s = .refused (.reservedCommand low)) ∧
  (∀ (s : State) (r : Reader) (o : Octet) (i : Instr), s.activity = .reading r → s.src[s.ipos]? = some o →
    decode (.source r.field) (octetWord o) = .ok i →
    (s.srcAnswers = [] → step s = exec i { s with ipos := s.ipos + 1 }) ∧
    (∀ rest, s.srcAnswers = .deliver :: rest →
      step s = exec i { s with ipos := s.ipos + 1, srcAnswers := rest }))

/-- An idle block without a command does nothing (70_reset_and_hazards.md R261). -/
def Obligations.IdleBlockWaitsForACommand : Prop :=
  ∀ s : State, s.activity = .idle → s.cmds = [] → step s = .next s

/-- A busy block takes no command from the port (20_memory.md R41). That the meaning of a command on a busy block
leaves the state as it is, is the model's form of waiting (DESIGN CHOICE, log 14). -/
def Obligations.BusyBlockTakesNoCommand : Prop :=
  ∀ s : State, s.busy = true →
    (∀ t, step s = .next t → t.cmds = s.cmds) ∧ ∀ i : Instr, i.foundAt .command = true → exec i s = .next s

/-! ## Configuration and the latched header -/

/-- `SETTHR t` (45_orchestration.md R205). -/
def Obligations.SetThresholdWritesThr : Prop :=
  ∀ (t : Octet) (s : State), s.activity = .idle →
    ∃ u, exec (.setthr t) s = .next u ∧ Ended (okRecord 0 0) s u ∧ u.thr = t ∧ SameDecoder s u ∧ SamePort s u ∧
      SameSource s u ∧ SameSink s u ∧ SameBytes s.smp u.smp ∧ SameBytes s.pix u.pix

/-- `ENC_NEW` (45_orchestration.md R203): the default threshold, and nothing written to the sink. -/
def Obligations.NewEncoderRestoresDefaultThreshold : Prop :=
  ∀ s : State, s.activity = .idle →
    ∃ u, exec .encNew s = .next u ∧ Ended (okRecord 0 0) s u ∧ u.thr = 0x7F ∧ SameDecoder s u ∧ SamePort s u ∧
      SameSource s u ∧ SameSink s u ∧ SameBytes s.smp u.smp ∧ SameBytes s.pix u.pix

/-- `DIMS` in Ready (45_orchestration.md R199): width first, and no access. -/
def Obligations.DimsDeliversTheLatchedHeader : Prop :=
  ∀ s : State, s.activity = .idle → s.phase = .ready →
    ∃ u, exec .dims s = .next u ∧ Ended (okRecord s.hdrW s.hdrH) s u ∧ Quiet s u

/-- `DIMS` and `RDIMG` outside Ready have no meaning (45_orchestration.md R200). -/
def Obligations.NoDecoderNoMeaning : Prop :=
  ∀ s : State, s.activity = .idle → s.phase ≠ .ready →
    exec .dims s = .refused .noDecoder ∧ exec .rdimg s = .refused .noDecoder

/-- `DEC_NEW` on a plain source that holds a header (45_orchestration.md R196, R198; 41_header.md R129): the header is
latched and the decoder is Ready, in whatever phase it was. -/
def Obligations.DecNewLatchesTheHeader : Prop :=
  ∀ (s : State) (f : Octet) (ws hs tail : List Octet), s.activity = .idle → s.srcAnswers = [] →
    s.src.drop s.ipos = 0x00 :: f :: (ws ++ (hs ++ tail)) → f.getLsbD 7 = false → isVleInteger ws = true →
    isVleInteger hs = true →
    ∃ u, exec .decNew s = .next u ∧ Ended (okRecord 0 0) s u ∧ u.phase = .ready ∧ u.hdrType = 0x00 ∧ u.hdrExt = 0 ∧
      u.hdrW = vleValue ws ∧ u.hdrH = vleValue hs ∧ u.thr = s.thr ∧ ReadsOctets (2 + ws.length + hs.length) s u

/-- Whatever the source does, `DEC_NEW` ends Ready with success, or it leaves no decoder: ended with an error, or
blocked (45_orchestration.md R197, R198; 20_memory.md R48). -/
def Obligations.FailedDecNewLeavesNoDecoder : Prop :=
  ∀ s : State, s.activity = .idle →
    ∃ u, exec .decNew s = .next u ∧ u.thr = s.thr ∧ SamePort s u ∧ SameSink s u ∧ SameBytes s.smp u.smp ∧
      SameBytes s.pix u.pix ∧
      ((u.phase = .ready ∧ u.hdrType = 0x00 ∧ u.hdrExt = 0 ∧ Ended (okRecord 0 0) s u) ∨
       (u.phase = .uninitialized ∧ ∃ e : Err, Ended e.record s u) ∨
       (u.phase = .uninitialized ∧ Blocked s u))

/-! ## The threshold comparator -/

/-- `THRCMP.L` (43_threshold.md R161, R162): unsigned, and white from the threshold on. -/
def Obligations.LumaComparisonIsInclusive : Prop :=
  ∀ (v t : Octet) (s : State), s.activity = .idle →
    ∃ u, exec (.thrcmpL v t) s = .next u ∧ Quiet s u ∧
      (v.toNat < t.toNat → Ended (okRecord 0 0) s u) ∧ (t.toNat ≤ v.toNat → Ended (okRecord 1 0) s u)

/-- `THRCMP.*` in full (43_threshold.md R167, which the spec marks as derived from R162 and R163): `[s >= t]`, and of
four bytes their average, remainder dropped. -/
def Obligations.RgbaComparisonUsesTheAverage : Prop :=
  (∀ (v t : Octet) (s : State), s.activity = .idle →
    ∃ u, exec (.thrcmpL v t) s = .next u ∧ Quiet s u ∧
      Ended (okRecord (if t.toNat ≤ v.toNat then 1 else 0) 0) s u) ∧
  (∀ (r g b a t : Octet) (s : State), s.activity = .idle →
    ∃ u, exec (.thrcmpC r g b a t) s = .next u ∧ Quiet s u ∧
      Ended (okRecord (if t.toNat ≤ (r.toNat + g.toNat + b.toNat + a.toNat) / 4 then 1 else 0) 0) s u)

/-! ## Variable-length integers -/

/-- `VLENC v` on a plain sink (40_vle.md R105): the groups of `v`, most significant first, the continuation bit on all
but the last. -/
def Obligations.VlencWritesTheGroups : Prop :=
  ∀ (v : Dim) (s : State), s.activity = .idle → s.snkAnswers = [] →
    ∃ u, exec (.vlenc v) s = .next u ∧ Ended (okRecord 0 0) s u ∧ WritesOctets (vleOctets v) s u ∧
      (∀ j, j < vleLength v → ∃ o, (vleOctets v)[j]? = some o ∧
        o.toNat = (if j + 1 = vleLength v then 0 else 128) + v.toNat / 128 ^ (vleLength v - 1 - j) % 128)

/-- How many octets `VLENC v` writes, and its first one (40_vle.md R106). -/
def Obligations.VlencWritesTheShortestForm : Prop :=
  ∀ (v : Dim) (s : State), s.activity = .idle → s.snkAnswers = [] →
    ∃ u o os, exec (.vlenc v) s = .next u ∧ u.snk = s.snk ++ o :: os ∧
      os.length + 1 = (if v.toNat ≤ 127 then 1 else if v.toNat ≤ 16383 then 2 else if v.toNat ≤ 2097151 then 3
        else if v.toNat ≤ 268435455 then 4 else 5) ∧
      (o.toNat % 128 = 0 ↔ v = 0) ∧
      (os.length = 4 → o.toNat = 128 + v.toNat / 2 ^ 28 ∧ 0x81 ≤ o.toNat ∧ o.toNat ≤ 0x8F)

/-- `VLDEC` on a plain source that holds an integer (40_vle.md R101, R103): the value modulo `2 ^ 32`, no error, and
exactly the integer's octets consumed. -/
def Obligations.VldecReadsOneInteger : Prop :=
  ∀ (s : State) (os tail : List Octet), s.activity = .idle → s.srcAnswers = [] → s.src.drop s.ipos = os ++ tail →
    isVleInteger os = true →
    ∃ u, exec .vldec s = .next u ∧ SameRegisters s u ∧ ReadsOctets os.length s u ∧
      Ended (okRecord (BitVec.ofNat 32 (os.foldl (fun acc o => acc * 128 + o.toNat % 128) 0)) 0) s u

/-- Leading zero groups (40_vle.md R102, which the spec marks as derived from R101): an octet `0x80` on an empty
accumulator changes nothing, and an integer with any number of them in front has the value it has without them;
`80 80 7F` is 127. -/
def Obligations.LeadingZeroGroupsAreAccepted : Prop :=
  (∀ s : State, (∃ r, s.activity = .reading r ∧ (Instr.vleCont 0).foundAt (.source r.field) = true) → s.acc = 0 →
    exec (.vleCont 0) s = .next s) ∧
  (∀ (s : State) (n : Nat) (os tail : List Octet), s.activity = .idle → s.srcAnswers = [] →
    s.src.drop s.ipos = List.replicate n 0x80 ++ (os ++ tail) → isVleInteger os = true →
    ∃ u, exec .vldec s = .next u ∧ SameRegisters s u ∧ ReadsOctets (n + os.length) s u ∧
      Ended (okRecord (vleValue os) 0) s u) ∧
  vleValue [0x80, 0x80, 0x7F] = 127

/-- An integer that never ends on a finite plain source ends in `IoError(EOS)` when the source is exhausted
(40_vle.md R104); where the read after some of its octets is not answered, `VLDEC` is blocked with exactly these
consumed (20_memory.md R43, R48). -/
def Obligations.UnendingIntegerEndsInIoError : Prop :=
  (∀ s : State, s.activity = .idle → s.srcAnswers = [] → s.ipos ≤ s.src.length →
    (∀ o ∈ s.src.drop s.ipos, o.getLsbD 7 = true) →
    ∃ u, exec .vldec s = .next u ∧ SameRegisters s u ∧ ReadsOctets (s.src.length - s.ipos) s u ∧
      Ended (Err.record (.ioError .eos)) s u) ∧
  (∀ (s : State) (os tail : List Octet) (rest : List ReadAnswer), s.activity = .idle →
    s.srcAnswers = List.replicate os.length .deliver ++ .silent :: rest → s.src.drop s.ipos = os ++ tail →
    (∀ o ∈ os, o.getLsbD 7 = true) →
    ∃ u, exec .vldec s = .next u ∧ Blocked s u ∧ u.srcAnswers = .silent :: rest ∧ SameRegisters s u ∧
      ReadsOctets os.length s u)

/-- Failure part-way (40_vle.md R108): of a `VLENC` the octets before the failed write stay, all with their
continuation bit; of a `VLDEC` the octets before the failed read are consumed, and no value is delivered. -/
def Obligations.IntegerFailurePartWay : Prop :=
  (∀ (s : State) (v : Dim) (k : Nat) (c : IoCause) (rest : List WriteAnswer), s.activity = .idle →
    s.snkAnswers = List.replicate k .accept ++ .fail c :: rest → k < (vleOctets v).length →
    ∃ u, exec (.vlenc v) s = .next u ∧ Ended (Err.record (.ioError c)) s u ∧ u.snkAnswers = rest ∧
      WritesOctets ((vleOctets v).take k) s u ∧ ∀ o ∈ (vleOctets v).take k, o.getLsbD 7 = true) ∧
  (∀ (s : State) (os tail : List Octet) (c : IoCause) (rest : List ReadAnswer), s.activity = .idle →
    s.srcAnswers = List.replicate os.length .deliver ++ .fail c :: rest → s.src.drop s.ipos = os ++ tail →
    (∀ o ∈ os, o.getLsbD 7 = true) →
    ∃ u, exec .vldec s = .next u ∧ u.srcAnswers = rest ∧ SameRegisters s u ∧ ReadsOctets os.length s u ∧
      Ended { kind := 1, info := 0, cause := some (if tail = [] then .eos else c), a := 0, b := 0 } s u)

/-- Round trip (40_vle.md R107, which the spec marks as derived from R101 and R105): a `VLDEC` that reads exactly the
octets `VLENC v` wrote returns `v` and consumes all of them, for every 32-bit `v`. -/
def Obligations.VleRoundTrip : Prop :=
  ∀ (v : Dim) (s : State), s.activity = .idle → s.snkAnswers = [] →
    ∃ u os, exec (.vlenc v) s = .next u ∧ Ended (okRecord 0 0) s u ∧ u.snk = s.snk ++ os ∧
      ∀ (s' : State) (tail : List Octet), s'.activity = .idle → s'.srcAnswers = [] → s'.src.drop s'.ipos = os ++ tail →
        ∃ u', exec .vldec s' = .next u' ∧ Ended (okRecord v 0) s' u' ∧ u'.ipos = s'.ipos + os.length

/-! ## Headers -/

/-- `RDHDR` on a plain source that holds a header (41_header.md R121, R123, R125): extension type, reserved bits and
what follows the height have no effect. -/
def Obligations.RdhdrReadsAHeader : Prop :=
  ∀ (s : State) (f : Octet) (ws hs tail : List Octet), s.activity = .idle → s.srcAnswers = [] →
    s.src.drop s.ipos = 0x00 :: f :: (ws ++ (hs ++ tail)) → f.getLsbD 7 = false → isVleInteger ws = true →
    isVleInteger hs = true →
    ∃ u, exec .rdhdr s = .next u ∧ Ended (okRecord (vleValue ws) (vleValue hs)) s u ∧ SameRegisters s u ∧
      ReadsOctets (2 + ws.length + hs.length) s u

/-- The errors of a header read in their order, with the octets consumed (41_header.md R122 to R124;
45_orchestration.md R197): on a plain source; for an error of the format, whatever the environment would answer to
the reads after it; and where the read after some octets of the header fails, with the environment's cause (`EOS` at
the end of the source), or is not answered (20_memory.md R43, R48). -/
def Obligations.HeaderErrorsInOrder : Prop :=
  (∀ (s : State) (e : Err) (n : Nat), s.activity = .idle → s.srcAnswers = [] → HeaderFails (s.src.drop s.ipos) e n →
    (∃ u, exec .rdhdr s = .next u ∧ Ended e.record s u ∧ SameRegisters s u ∧ ReadsOctets n s u) ∧
    (∃ u, exec .decNew s = .next u ∧ Ended e.record s u ∧ u.phase = .uninitialized ∧ u.thr = s.thr ∧
      ReadsOctets n s u)) ∧
  (∀ (s : State) (e : Err) (n : Nat) (rest : List ReadAnswer), s.activity = .idle →
    s.srcAnswers = List.replicate n .deliver ++ rest → HeaderFails (s.src.drop s.ipos) e n →
    (∀ c, e ≠ .ioError c) →
    (∃ u, exec .rdhdr s = .next u ∧ Ended e.record s u ∧ u.srcAnswers = rest ∧ SameRegisters s u ∧
      ReadsOctets n s u) ∧
    (∃ u, exec .decNew s = .next u ∧ Ended e.record s u ∧ u.srcAnswers = rest ∧ u.phase = .uninitialized ∧
      u.thr = s.thr ∧ ReadsOctets n s u)) ∧
  (∀ (s : State) (os tail : List Octet) (c : IoCause) (rest : List ReadAnswer), s.activity = .idle →
    s.srcAnswers = List.replicate os.length .deliver ++ .fail c :: rest → s.src.drop s.ipos = os ++ tail →
    StopsShort os →
    (∃ u, exec .rdhdr s = .next u ∧ Ended (Err.record (.ioError (if tail = [] then .eos else c))) s u ∧
      u.srcAnswers = rest ∧ SameRegisters s u ∧ ReadsOctets os.length s u) ∧
    (∃ u, exec .decNew s = .next u ∧ Ended (Err.record (.ioError (if tail = [] then .eos else c))) s u ∧
      u.srcAnswers = rest ∧ u.phase = .uninitialized ∧ u.thr = s.thr ∧ ReadsOctets os.length s u)) ∧
  (∀ (s : State) (os tail : List Octet) (rest : List ReadAnswer), s.activity = .idle →
    s.srcAnswers = List.replicate os.length .deliver ++ .silent :: rest → s.src.drop s.ipos = os ++ tail →
    StopsShort os →
    (∃ u, exec .rdhdr s = .next u ∧ Blocked s u ∧ u.srcAnswers = .silent :: rest ∧ SameRegisters s u ∧
      ReadsOctets os.length s u) ∧
    (∃ u, exec .decNew s = .next u ∧ Blocked s u ∧ u.srcAnswers = .silent :: rest ∧ u.phase = .uninitialized ∧
      u.thr = s.thr ∧ ReadsOctets os.length s u))

/-- `WRHDR w, h` on a plain sink (41_header.md R126, R128): two octets `0x00`, then width, then height. -/
def Obligations.WrhdrWritesAHeader : Prop :=
  ∀ (w h : Dim) (s : State), s.activity = .idle → s.snkAnswers = [] →
    ∃ u, exec (.wrhdr w h) s = .next u ∧ Ended (okRecord 0 0) s u ∧
      WritesOctets ([0x00, 0x00] ++ vleOctets w ++ vleOctets h) s u

/-- Header round trip (41_header.md R127, which the spec marks as derived from R121 and R126), for all 32-bit `w` and
`h`. -/
def Obligations.HeaderRoundTrip : Prop :=
  ∀ (w h : Dim) (s : State), s.activity = .idle → s.snkAnswers = [] →
    ∃ u os, exec (.wrhdr w h) s = .next u ∧ Ended (okRecord 0 0) s u ∧ u.snk = s.snk ++ os ∧
      ∀ (s' : State) (tail : List Octet), s'.activity = .idle → s'.srcAnswers = [] → s'.src.drop s'.ipos = os ++ tail →
        ∃ u', exec .rdhdr s' = .next u' ∧ Ended (okRecord w h) s' u' ∧ u'.ipos = s'.ipos + os.length

/-! ## The bit-unpacker -/

/-- `UNPACK w, h`, and `RDIMG` with `w` and `h` latched, in any phase, on a plain source with enough octets, the zero
fill done by the block (42_unpack.md R149, R147, which the spec marks as derived from R141 to R146): after it every
pixel byte is `0xFF` exactly where the stream's bit is 1 and `0x00` elsewhere, and bytes from `w * h` on, the
registers and the sink are untouched. -/
def Obligations.UnpackWritesThePixels : Prop :=
  ∀ (i : Instr) (w h : Dim) (s : State), Unpacks i w h s → s.activity = .idle → s.srcAnswers = [] →
    s.pix.wf = true → w.toNat * h.toNat ≤ s.pix.len →
    s.ipos + h.toNat * ((w.toNat + 7) / 8) ≤ s.src.length → s.cfg.unpackPrezero = .block →
    ∃ u, exec i s = .next u ∧ Ended (okRecord 0 0) s u ∧ SamePort s u ∧ SameRegisters s u ∧ SameSink s u ∧
      SameBytes s.smp u.smp ∧ u.src = s.src ∧ u.ipos = s.ipos + h.toNat * ((w.toNat + 7) / 8) ∧
      SameBytesFrom (w.toNat * h.toNat) s.pix u.pix ∧
      ∀ r c, r < h.toNat → c < w.toNat →
        u.pix.read (r * w.toNat + c) = if streamBit s.src s.ipos w r c then 0xFF else 0x00

/-- The same under `UNPACK_PREZERO = caller` (42_unpack.md R143; the setting is a parameter, log 10): a 0 bit leaves
the byte as the caller handed it over. -/
def Obligations.UnpackLeavesTheCallersZeros : Prop :=
  ∀ (i : Instr) (w h : Dim) (s : State), Unpacks i w h s → s.activity = .idle → s.srcAnswers = [] →
    s.pix.wf = true → w.toNat * h.toNat ≤ s.pix.len →
    s.ipos + h.toNat * ((w.toNat + 7) / 8) ≤ s.src.length → s.cfg.unpackPrezero = .caller →
    ∃ u, exec i s = .next u ∧ Ended (okRecord 0 0) s u ∧ SamePort s u ∧ SameRegisters s u ∧ SameSink s u ∧
      SameBytes s.smp u.smp ∧ u.src = s.src ∧ u.ipos = s.ipos + h.toNat * ((w.toNat + 7) / 8) ∧
      SameBytesFrom (w.toNat * h.toNat) s.pix u.pix ∧
      ∀ r c, r < h.toNat → c < w.toNat →
        u.pix.read (r * w.toNat + c) =
          if streamBit s.src s.ipos w r c then 0xFF else s.pix.read (r * w.toNat + c)

/-- A pixel buffer that is too short (42_unpack.md R142, R147; 60_exceptions.md R224): `UsageError` before anything
else, whatever the source would answer, and nothing is touched. -/
def Obligations.ShortPixelBufferIsAUsageError : Prop :=
  ∀ (i : Instr) (w h : Dim) (s : State), Unpacks i w h s → s.activity = .idle →
    s.pix.len < w.toNat * h.toNat →
    ∃ u, exec i s = .next u ∧ Ended { kind := 4, info := 0, cause := none, a := 0, b := 0 } s u ∧ Quiet s u

/-- An image without pixels (42_unpack.md R148, which the spec marks as derived from R141): nothing is read or
written, even where the source would not answer, for every length of the buffer. -/
def Obligations.UnpackOfNoPixels : Prop :=
  ∀ (i : Instr) (w h : Dim) (s : State), Unpacks i w h s → s.activity = .idle → w = 0 ∨ h = 0 →
    ∃ u, exec i s = .next u ∧ Ended (okRecord 0 0) s u ∧ Quiet s u

/-- A read of row `r` that fails, or is not answered, after `d` of the row's octets, `n` octets into the pixel data
(42_unpack.md R143, R144, R147; 60_exceptions.md R232; 20_memory.md R43, R48): the rows before it stand, no pixel of it
or of a later row is written, and its octets are consumed and lost. The cause is the environment's, `EOS` at the end
of the source. What `PIX` shows while the unpack is blocked is the model's choice (log 20). -/
def Obligations.FailedRowWritesNoPixel : Prop :=
  ∀ (i : Instr) (w h : Dim) (s : State) (r d n : Nat), Unpacks i w h s → s.activity = .idle →
    s.pix.wf = true → w.toNat * h.toNat ≤ s.pix.len → r < h.toNat → d < (w.toNat + 7) / 8 →
    n = r * ((w.toNat + 7) / 8) + d →
    (s.srcAnswers = [] → s.src.length = s.ipos + n →
      ∃ u, exec i s = .next u ∧ Ended (Err.record (.ioError .eos)) s u ∧ Unpacked w h r n s u) ∧
    (∀ c rest, s.srcAnswers = List.replicate n .deliver ++ .fail c :: rest → s.ipos + n ≤ s.src.length →
      ∃ u, exec i s = .next u ∧ u.srcAnswers = rest ∧ Unpacked w h r n s u ∧
        Ended (Err.record (.ioError (if s.ipos + n < s.src.length then c else .eos))) s u) ∧
    (∀ rest, s.srcAnswers = List.replicate n .deliver ++ .silent :: rest → s.ipos + n ≤ s.src.length →
      ∃ u, exec i s = .next u ∧ u.srcAnswers = .silent :: rest ∧ Unpacked w h r n s u ∧ Blocked s u)

/-! ## The bit-packer -/

/-- `PACK.L` and `PACK.C` on a plain sink, the sample buffer of the right length (44_pack.md R176, R179 to R181):
`h * ceil(w/8)` octets whose bit for each pixel is the comparator's, every padding bit 0. -/
def Obligations.PackWritesThePixelBits : Prop :=
  ∀ (i : Instr) (k : ColorKind) (w h : Dim) (t : Octet) (s : State), Packs i k w h t → s.activity = .idle →
    s.snkAnswers = [] → s.smp.len = w.toNat * h.toNat * bytesPerPixel k →
    ∃ u os, exec i s = .next u ∧ Ended (okRecord 0 0) s u ∧ WritesOctets os s u ∧
      os.length = h.toNat * ((w.toNat + 7) / 8) ∧
      ∀ r c, r < h.toNat → c < 8 * ((w.toNat + 7) / 8) →
        streamBit os 0 w r c = decide (c < w.toNat ∧ pixelBit k s.smp t w.toNat r c = true)

/-- A sample buffer of the wrong length (44_pack.md R177; 60_exceptions.md R225): `InvalidImageData`, nothing written.
-/
def Obligations.WrongSampleLengthStopsPack : Prop :=
  ∀ (i : Instr) (k : ColorKind) (w h : Dim) (t : Octet) (s : State), Packs i k w h t → s.activity = .idle →
    s.smp.len ≠ w.toNat * h.toNat * bytesPerPixel k →
    ∃ u, exec i s = .next u ∧ Ended { kind := 5, info := 0, cause := none, a := 0, b := 0 } s u ∧ Quiet s u

/-- An image without pixels (44_pack.md R183, which the spec marks as derived from R176): no octet is written, and the
buffer must be empty. -/
def Obligations.PackOfNoPixels : Prop :=
  ∀ (i : Instr) (k : ColorKind) (w h : Dim) (t : Octet) (s : State), Packs i k w h t → s.activity = .idle →
    w = 0 ∨ h = 0 →
    ∃ u, exec i s = .next u ∧ Quiet s u ∧ (s.smp.len = 0 → Ended (okRecord 0 0) s u) ∧
      (s.smp.len ≠ 0 → Ended (Err.record .invalidImageData) s u)

/-- The extreme thresholds (44_pack.md R184, which the spec marks as derived from R176, R162 and R163). -/
def Obligations.PackAtTheExtremeThresholds : Prop :=
  (∀ (i : Instr) (k : ColorKind) (w h : Dim) (s : State), Packs i k w h 0x00 → s.activity = .idle →
    s.snkAnswers = [] → s.smp.len = w.toNat * h.toNat * bytesPerPixel k →
    ∃ u os, exec i s = .next u ∧ WritesOctets os s u ∧ os.length = h.toNat * ((w.toNat + 7) / 8) ∧
      ∀ r, r < h.toNat →
        (∀ j, j < w.toNat / 8 → os[r * ((w.toNat + 7) / 8) + j]? = some 0xFF) ∧
        (w.toNat % 8 ≠ 0 → os[r * ((w.toNat + 7) / 8) + w.toNat / 8]? = some (0xFF#8 <<< (8 - w.toNat % 8)))) ∧
  (∀ (i : Instr) (k : ColorKind) (w h : Dim) (s : State), Packs i k w h 0xFF → s.activity = .idle →
    s.snkAnswers = [] → s.smp.len = w.toNat * h.toNat * bytesPerPixel k →
    ∃ u os, exec i s = .next u ∧ WritesOctets os s u ∧ os.length = h.toNat * ((w.toNat + 7) / 8) ∧
      ∀ r c, r < h.toNat → c < w.toNat →
        (streamBit os 0 w r c = true ↔
          ∀ b, b < bytesPerPixel k → s.smp.read (bytesPerPixel k * (r * w.toNat + c) + b) = 0xFF))

/-- Round trip with the unpacker (44_pack.md R185, which the spec marks as derived from R176, R141 and R162): a
luminance buffer of black and white bytes comes back through `PACK.L` at any threshold from `0x01` on, and `UNPACK`.
-/
def Obligations.PackUnpackRoundTrip : Prop :=
  ∀ (w h : Dim) (t : Octet) (s : State), s.activity = .idle → s.snkAnswers = [] →
    s.smp.len = w.toNat * h.toNat → (∀ j, j < w.toNat * h.toNat → s.smp.read j = 0x00 ∨ s.smp.read j = 0xFF) →
    1 ≤ t.toNat →
    ∃ u os, exec (.packL w h t) s = .next u ∧ Ended (okRecord 0 0) s u ∧ u.snk = s.snk ++ os ∧
      ∀ (s' : State) (tail : List Octet), s'.activity = .idle → s'.srcAnswers = [] → s'.src.drop s'.ipos = os ++ tail →
        s'.pix.wf = true → w.toNat * h.toNat ≤ s'.pix.len →
        (s'.cfg.unpackPrezero = .caller → ∀ j, j < w.toNat * h.toNat → s'.pix.read j = 0x00) →
        ∃ u', exec (.unpack w h) s' = .next u' ∧ Ended (okRecord 0 0) s' u' ∧ u'.ipos = s'.ipos + os.length ∧
          ∀ j, j < w.toNat * h.toNat → u'.pix.read j = s.smp.read j

/-! ## Encoding an image -/

/-- `ENCODE.L` and `ENCODE.C` on a plain sink, the sample buffer of the right length (45_orchestration.md R207, R209):
the header, then the pixel data packed with `THR`; nothing else changes. -/
def Obligations.EncodeWritesHeaderAndPixels : Prop :=
  ∀ (i : Instr) (k : ColorKind) (w h : Dim) (s : State), Encodes i k w h → s.activity = .idle →
    s.snkAnswers = [] → s.smp.len = w.toNat * h.toNat * bytesPerPixel k →
    ∃ u os, exec i s = .next u ∧ Ended (okRecord 0 0) s u ∧ WritesOctets (headerOctets w h ++ os) s u ∧
      os.length = h.toNat * ((w.toNat + 7) / 8) ∧
      ∀ r c, r < h.toNat → c < 8 * ((w.toNat + 7) / 8) →
        streamBit os 0 w r c = decide (c < w.toNat ∧ pixelBit k s.smp s.thr w.toNat r c = true)

/-- `ENCODE.*` with a sample buffer of the wrong length (45_orchestration.md R208; the order is a parameter, log 10).
Under `check_first` nothing is written and the sink is not asked. Under `header_first` the header comes first: once all
of it is accepted, `InvalidImageData`; where a write of it fails, `IoError` with the environment's cause instead
(60_exceptions.md R229; U15), the octets before it in the sink; where a write of it is not answered, the encode is
blocked with these octets written, and when the sink then takes every write, each further step writes one octet more of
the header, and with the last the encode ends with `InvalidImageData`. What the sink shows of an encode in progress is
the model's choice (log 20), and so is the size of a step (log 1). -/
def Obligations.WrongSampleLengthStopsEncode : Prop :=
  ∀ (i : Instr) (k : ColorKind) (w h : Dim) (s : State), Encodes i k w h → s.activity = .idle →
    s.smp.len ≠ w.toNat * h.toNat * bytesPerPixel k →
    (s.cfg.encodeCheckOrder = .headerFirst → s.snkAnswers = [] →
      ∃ u, exec i s = .next u ∧ Ended (Err.record .invalidImageData) s u ∧ WritesOctets (headerOctets w h) s u) ∧
    (∀ rest, s.cfg.encodeCheckOrder = .headerFirst →
      s.snkAnswers = List.replicate (headerOctets w h).length .accept ++ rest →
      ∃ u, exec i s = .next u ∧ Ended (Err.record .invalidImageData) s u ∧ u.snkAnswers = rest ∧
        WritesOctets (headerOctets w h) s u) ∧
    (∀ n c rest, s.cfg.encodeCheckOrder = .headerFirst → n < (headerOctets w h).length →
      s.snkAnswers = List.replicate n .accept ++ .fail c :: rest →
      ∃ u, exec i s = .next u ∧ Ended (Err.record (.ioError c)) s u ∧ u.snkAnswers = rest ∧
        WritesOctets ((headerOctets w h).take n) s u) ∧
    (∀ n rest, s.cfg.encodeCheckOrder = .headerFirst → n < (headerOctets w h).length →
      s.snkAnswers = List.replicate n .accept ++ .silent :: rest →
      ∃ u, exec i s = .next u ∧ Blocked s u ∧ u.snkAnswers = .silent :: rest ∧
        WritesOctets ((headerOctets w h).take n) s u ∧
        ∀ m, n + m ≤ (headerOctets w h).length →
          ∃ t, runSteps m { u with snkAnswers := [] } = .next t ∧
            WritesOctets ((headerOctets w h).take (n + m)) s t ∧
            (n + m < (headerOctets w h).length → Blocked s t) ∧
            (n + m = (headerOctets w h).length → Ended (Err.record .invalidImageData) s t)) ∧
    (s.cfg.encodeCheckOrder = .checkFirst →
      ∃ u, exec i s = .next u ∧ Ended (Err.record .invalidImageData) s u ∧ Quiet s u)

/-- Whole-image round trip (45_orchestration.md R210, which the spec marks as derived from R127 and R185): the octets
of a successful `ENCODE.L`, presented as a source to any block, are read back by `DEC_NEW`, `DIMS` and `RDIMG`. -/
def Obligations.WholeImageRoundTrip : Prop :=
  ∀ (w h : Dim) (s u : State), s.activity = .idle → 1 ≤ s.thr.toNat → s.smp.len = w.toNat * h.toNat →
    (∀ j, j < w.toNat * h.toNat → s.smp.read j = 0x00 ∨ s.smp.read j = 0xFF) →
    exec (.encodeL w h) s = .next u → Ended (okRecord 0 0) s u →
    ∃ os, u.snk = s.snk ++ os ∧
      ∀ s' : State, s'.activity = .idle → s'.srcAnswers = [] → s'.src.drop s'.ipos = os →
        s'.pix.wf = true → w.toNat * h.toNat ≤ s'.pix.len →
        (s'.cfg.unpackPrezero = .caller → ∀ j, j < w.toNat * h.toNat → s'.pix.read j = 0x00) →
        ∃ a b c, exec .decNew s' = .next a ∧ Ended (okRecord 0 0) s' a ∧
          exec .dims a = .next b ∧ Ended (okRecord w h) a b ∧
          exec .rdimg b = .next c ∧ Ended (okRecord 0 0) b c ∧ c.ipos = c.src.length ∧
          ∀ j, j < w.toNat * h.toNat → c.pix.read j = s.smp.read j

/-! ## Streams that fail, do not answer, or only grow -/

/-- Every command that has octets to write, its sample buffer of the right length where it takes one (for the others:
`WrongSampleLengthStopsPack`, `WrongSampleLengthStopsEncode`). When the environment accepts every write, the operation
ends with success. When the write after `k` accepted ones fails or is not answered (20_memory.md R45, R48;
60_exceptions.md R230, R232), the first `k` octets are in the sink and stay, and the operation has ended with the
environment's cause, or is blocked. When the sink then takes every write, each further step writes one octet more, and
with the last the operation ends with success. That the sink shows the octets while the operation is still in progress
is the model's choice (log 20), and so is the size of a step (log 1). -/
def Obligations.EarlierOctetsStayInTheSink : Prop :=
  ∀ (i : Instr) (s : State) (rest : List WriteAnswer), s.activity = .idle → samplesFit i s →
    octetsToWrite i s ≠ [] →
    (s.snkAnswers = List.replicate (octetsToWrite i s).length .accept ++ rest →
      ∃ u, exec i s = .next u ∧ Ended (okRecord 0 0) s u ∧ u.snkAnswers = rest ∧
        WritesOctets (octetsToWrite i s) s u) ∧
    (∀ k c, k < (octetsToWrite i s).length → s.snkAnswers = List.replicate k .accept ++ .fail c :: rest →
      ∃ u, exec i s = .next u ∧ Ended { kind := 1, info := 0, cause := some c, a := 0, b := 0 } s u ∧
        u.snkAnswers = rest ∧ WritesOctets ((octetsToWrite i s).take k) s u) ∧
    (∀ k, k < (octetsToWrite i s).length → s.snkAnswers = List.replicate k .accept ++ .silent :: rest →
      ∃ u, exec i s = .next u ∧ Blocked s u ∧ u.snkAnswers = .silent :: rest ∧
        WritesOctets ((octetsToWrite i s).take k) s u ∧
        ∀ m, k + m ≤ (octetsToWrite i s).length →
          ∃ t, runSteps m { u with snkAnswers := [] } = .next t ∧
            WritesOctets ((octetsToWrite i s).take (k + m)) s t ∧
            (k + m < (octetsToWrite i s).length → Blocked s t) ∧
            (k + m = (octetsToWrite i s).length → Ended (okRecord 0 0) s t))

/-- `ipos` never decreases and `snk` is only ever extended (10_state.md R29), in every instruction and every step. -/
def Obligations.StreamsOnlyGrow : Prop :=
  (∀ (i : Instr) (s t : State), exec i s = .next t → s.ipos ≤ t.ipos ∧ s.snk <+: t.snk) ∧
  (∀ s t : State, step s = .next t → s.ipos ≤ t.ipos ∧ s.snk <+: t.snk)

/-- An access that is never answered (20_memory.md R48): however many steps, the operation stays in progress, no result
is delivered, and no command is accepted. That a command's meaning on the busy block leaves the state as it is, is the
model's form of waiting (DESIGN CHOICE, log 14). -/
def Obligations.UnansweredAccessHangs : Prop :=
  ∀ s : State,
    ((∃ r rest, s.activity = .reading r ∧ s.srcAnswers = .silent :: rest) ∨
     (∃ w rest, s.activity = .writing w ∧ s.snkAnswers = .silent :: rest)) →
    s.busy = true ∧ (∀ n, runSteps n s = .next s) ∧ ∀ i : Instr, i.foundAt .command = true → exec i s = .next s

/-- A failing access (60_exceptions.md R221, R230; 20_memory.md R43, R45): the operation in progress ends with the
environment's cause, `EOS` at the end of the stream, and the failing step has no effect on a stream or a buffer. -/
def Obligations.FailingAccessEndsTheOperation : Prop :=
  (∀ (s : State) (r : Reader) (c : IoCause) (rest : List ReadAnswer), s.activity = .reading r →
    s.srcAnswers = .fail c :: rest →
    ∃ u, step s = .next u ∧
      Ended (Err.record (.ioError (if s.ipos < s.src.length then c else .eos))) s u ∧ u.srcAnswers = rest ∧
      SameRegisters s u ∧ ReadsOctets 0 s u) ∧
  (∀ (s : State) (r : Reader), s.activity = .reading r → s.srcAnswers = [] → s.src.length ≤ s.ipos →
    ∃ u, step s = .next u ∧ Ended (Err.record (.ioError .eos)) s u ∧ SameRegisters s u ∧ ReadsOctets 0 s u) ∧
  (∀ (s : State) (w : Writer) (c : IoCause) (rest : List WriteAnswer), s.activity = .writing w →
    s.snkAnswers = .fail c :: rest →
    ∃ u, step s = .next u ∧ Ended (Err.record (.ioError c)) s u ∧ u.snkAnswers = rest ∧ WritesOctets [] s u)

/-- A blocked write that the sink now takes (20_memory.md R45, R48): one step writes exactly the octet offered, and
then the operation is at another write, or has ended with success, or, with the last octet of an `ENCODE`'s header and
a sample buffer of the wrong length, with `InvalidImageData` (45_orchestration.md R208). That a step writes one octet
is the model's step size (DESIGN CHOICE, log 1); what the sink shows before the result is the model's choice (log 20).
-/
def Obligations.WritingStepOffersOneOctet : Prop :=
  ∀ (s : State) (w : Writer), s.Inv → s.activity = .writing w →
    (s.snkAnswers = [] ∨ ∃ rest, s.snkAnswers = .accept :: rest) →
    ∃ t, step s = .next t ∧ WritesOctets [w.octet s] s t ∧
      ((t.results = s.results ∧ ∃ w', t.activity = .writing w') ∨ Ended (okRecord 0 0) s t ∨
       (Ended (Err.record .invalidImageData) s t ∧
         ∃ k v h, w = .height (some k) v h ∧ s.smp.len ≠ v.toNat * h.toNat * bytesPerPixel k))

/-! ## The whole machine -/

/-- Every command accepted by a block that meets the invariant either ends with exactly one result or stands at an
access the environment does not answer (20_memory.md R41, R48); `DIMS` and `RDIMG` where they have a meaning. -/
def Obligations.EveryCommandEndsOrBlocks : Prop :=
  ∀ (i : Instr) (s : State), s.Inv → s.activity = .idle → i.foundAt .command = true →
    (i = .dims ∨ i = .rdimg → s.phase = .ready) →
    ∃ t, exec i s = .next t ∧
      ((∃ r, Ended r s t) ∨
       (Blocked s t ∧ (∃ r rest, t.activity = .reading r ∧ t.srcAnswers = .silent :: rest)) ∨
       (Blocked s t ∧ (∃ w rest, t.activity = .writing w ∧ t.snkAnswers = .silent :: rest)))

/-- Which results a command can end with: the error kinds of 60_exceptions.md R226, or a success with the payload
that R231 gives the command. -/
def Obligations.ResultsAreThoseOfTheCommand : Prop :=
  ∀ (i : Instr) (s t : State), i.foundAt .command = true → s.activity = .idle → exec i s = .next t →
    t.results = s.results ∨ (∃ a b, mayDeliver i s t a b ∧ t.results = s.results ++ [okRecord a b]) ∨
    ∃ e, mayRaise i e ∧ t.results = s.results ++ [e.record]

/-- Which instructions write the persistent registers (10_state.md R11 to R13): `THR` only `SETTHR` and `ENC_NEW`, the
decoder's registers only `DEC_NEW`. -/
def Obligations.RegistersHaveTheirWriters : Prop :=
  (∀ (i : Instr) (s t : State), exec i s = .next t → i ≠ .encNew → (∀ x, i ≠ .setthr x) → t.thr = s.thr) ∧
  (∀ (i : Instr) (s t : State), exec i s = .next t → i.foundAt .command = true → i ≠ .decNew → SameDecoder s t)

/-- The commands that expose one unit neither read nor write a persistent register: with other values in them the
outcome is the same, with those values in them (40_vle.md R109, 41_header.md R120, 42_unpack.md R149,
43_threshold.md R160, 44_pack.md R186). -/
def Obligations.UnitsDoNotSeeRegisters : Prop :=
  ∀ (i : Instr) (r : Registers) (s : State), isComponent i = true →
    exec i (s.withRegisters r) = andThen (exec i s) (fun t => .next (t.withRegisters r))

/-- The two halves share no register (10_state.md R31): no command of the decoder half depends on `THR`, none of the
encoder half on `PHASE` or `HDR_*`, and neither changes the other's. -/
def Obligations.HalvesShareNoRegister : Prop :=
  (∀ (i : Instr) (t : Octet) (s : State), isDecoderCommand i = true →
    exec i { s with thr := t } = andThen (exec i s) (fun u => .next { u with thr := t })) ∧
  (∀ (i : Instr) (r : Registers) (s : State), isEncoderCommand i = true →
    exec i (s.withDecoder r) = andThen (exec i s) (fun u => .next (u.withDecoder r)))

/-! ## The octet classes -/

/-- `TYPE.OK` and `TYPE.BAD` at the TypeField (41_header.md R122). -/
def Obligations.TypeOctetsAtTheTypeField : Prop :=
  ∀ (s : State) (d : HeaderDest), s.activity = .reading (.typeField d) →
    exec .typeOk s = .next { s with activity := .reading (.fixHeader d) } ∧
    ∀ t : Octet, t ≠ 0x00 →
      ∃ u, exec (.typeBad t) s = .next u ∧ Ended { kind := 2, info := t, cause := none, a := 0, b := 0 } s u ∧ Quiet s u

/-- `FIXHDR.OK` and `FIXHDR.EXT` at the FixHeaderField (41_header.md R123): extension type and reserved bits have no
effect. -/
def Obligations.FlagOctetsAtTheFixHeaderField : Prop :=
  ∀ (s : State) (d : HeaderDest) (t : BitVec 2) (r : BitVec 5), s.activity = .reading (.fixHeader d) →
    exec (.fixhdrOk t r) s = .next { s with acc := 0, activity := .reading (.width d) } ∧
    ∃ u, exec (.fixhdrExt t r) s = .next u ∧ Ended { kind := 3, info := 0, cause := none, a := 0, b := 0 } s u ∧
      Quiet s u

/-- `VLE.CONT` and `VLE.LAST` at an integer (40_vle.md R101; 41_header.md R121, R129): the accumulator takes the group
modulo `2 ^ 32`; after Width comes Height with a fresh accumulator, after Height the header is delivered or latched,
and a `VLDEC` ends with the value. -/
def Obligations.GroupOctetsAtAnInteger : Prop :=
  ∀ (s : State) (r : Reader) (g : BitVec 7) (v : Dim), s.activity = .reading r →
    v = BitVec.ofNat 32 (s.acc.toNat * 128 + g.toNat) →
    (r.field = .width ∨ r.field = .height ∨ r.field = .value → exec (.vleCont g) s = .next { s with acc := v }) ∧
    (∀ d, r = .width d → exec (.vleLast g) s = .next { s with acc := 0, activity := .reading (.height d v) }) ∧
    (∀ w, r = .height .deliver w →
      ∃ u, exec (.vleLast g) s = .next u ∧ Ended (okRecord w v) s u ∧ Quiet s u) ∧
    (∀ w, r = .height .latch w →
      ∃ u, exec (.vleLast g) s = .next u ∧ Ended (okRecord 0 0) s u ∧ u.phase = .ready ∧ u.hdrType = 0x00 ∧
        u.hdrExt = 0 ∧ u.hdrW = w ∧ u.hdrH = v ∧ u.thr = s.thr ∧ ReadsOctets 0 s u) ∧
    (r = .value → ∃ u, exec (.vleLast g) s = .next u ∧ Ended (okRecord v 0) s u ∧ Quiet s u)

/-- `PIXOCT` in a row of pixel data (42_unpack.md R144 to R146, R150): an octet before the row's last goes to
`ROWBUF`; with the last the row's pixels are written, and the next row begins, with `COL` = 0 (10_state.md R21, R28),
or the unpack ends. What PIX shows before the unpack's result is the model's choice (log 20). -/
def Obligations.PixelOctetsFillTheRow : Prop :=
  ∀ (s : State) (w h : Dim) (p : Octet), s.Inv → s.activity = .reading (.pixelRow w h) →
    (s.rowbuf.length + 1 < (w.toNat + 7) / 8 →
      exec (.pixoct p) s = .next { s with rowbuf := s.rowbuf ++ [p] }) ∧
    (s.rowbuf.length + 1 = (w.toNat + 7) / 8 →
      ∃ u, exec (.pixoct p) s = .next u ∧ SameRegisters s u ∧ SamePort s u ∧ SameSource s u ∧ SameSink s u ∧
        SameBytes s.smp u.smp ∧ u.pix.len = s.pix.len ∧
        (∀ c, c < w.toNat → u.pix.read (s.row.toNat * w.toNat + c) =
          if ((s.rowbuf ++ [p]).getD (c / 8) 0).getLsbD (7 - c % 8) then 0xFF
          else s.pix.read (s.row.toNat * w.toNat + c)) ∧
        (∀ j, (j < s.row.toNat * w.toNat ∨ s.row.toNat * w.toNat + w.toNat ≤ j) → u.pix.read j = s.pix.read j) ∧
        (s.row.toNat + 1 = h.toNat → Ended (okRecord 0 0) s u) ∧
        (s.row.toNat + 1 < h.toNat →
          u.activity = s.activity ∧ u.results = s.results ∧ u.row.toNat = s.row.toNat + 1 ∧ u.col = 0 ∧
            u.rowbuf = [] ∧ u.thrS = s.thrS ∧ u.acc = s.acc ∧ u.grp = s.grp ∧ u.oct = s.oct ∧ u.nb = s.nb))

/-- An octet class has a meaning only at its field (30_encoding.md R80; the refusal is the model's form of it,
log 13). -/
def Obligations.OctetsOutOfPlaceAreRefused : Prop :=
  ∀ (i : Instr) (s : State), i.foundAt .command = false →
    (∀ r, s.activity = .reading r → i.foundAt (.source r.field) = false) → exec i s = .refused .octetOutOfPlace
end

