-- ==== Sys2Proof/Laws/State.lean ====
section
/-! SUPPORT. One lemma per field per update, true by `rfl` and tagged `@[simp]`, so that no proof unfolds a record
update. -/

namespace Sys2Proof.Machine

@[simp] theorem dropTransients_cfg (s : State) : s.dropTransients.cfg = s.cfg := rfl
@[simp] theorem dropTransients_thr (s : State) : s.dropTransients.thr = s.thr := rfl
@[simp] theorem dropTransients_phase (s : State) : s.dropTransients.phase = s.phase := rfl
@[simp] theorem dropTransients_hdrType (s : State) : s.dropTransients.hdrType = s.hdrType := rfl
@[simp] theorem dropTransients_hdrExt (s : State) : s.dropTransients.hdrExt = s.hdrExt := rfl
@[simp] theorem dropTransients_hdrW (s : State) : s.dropTransients.hdrW = s.hdrW := rfl
@[simp] theorem dropTransients_hdrH (s : State) : s.dropTransients.hdrH = s.hdrH := rfl
@[simp] theorem dropTransients_thrS (s : State) : s.dropTransients.thrS = Config.freeThrS s.freeIdx := rfl
@[simp] theorem dropTransients_acc (s : State) : s.dropTransients.acc = Config.freeAcc s.freeIdx := rfl
@[simp] theorem dropTransients_grp (s : State) : s.dropTransients.grp = Config.freeGrp s.freeIdx := rfl
@[simp] theorem dropTransients_oct (s : State) : s.dropTransients.oct = Config.freeOct s.freeIdx := rfl
@[simp] theorem dropTransients_nb (s : State) : s.dropTransients.nb = Config.freeNb s.freeIdx := rfl
@[simp] theorem dropTransients_row (s : State) : s.dropTransients.row = Config.freeRow s.freeIdx := rfl
@[simp] theorem dropTransients_col (s : State) : s.dropTransients.col = Config.freeCol s.freeIdx := rfl
@[simp] theorem dropTransients_rowbuf (s : State) : s.dropTransients.rowbuf = Config.freeRowbuf s.freeIdx := rfl
@[simp] theorem dropTransients_activity (s : State) : s.dropTransients.activity = s.activity := rfl
@[simp] theorem dropTransients_cmds (s : State) : s.dropTransients.cmds = s.cmds := rfl
@[simp] theorem dropTransients_results (s : State) : s.dropTransients.results = s.results := rfl
@[simp] theorem dropTransients_src (s : State) : s.dropTransients.src = s.src := rfl
@[simp] theorem dropTransients_ipos (s : State) : s.dropTransients.ipos = s.ipos := rfl
@[simp] theorem dropTransients_srcAnswers (s : State) : s.dropTransients.srcAnswers = s.srcAnswers := rfl
@[simp] theorem dropTransients_snk (s : State) : s.dropTransients.snk = s.snk := rfl
@[simp] theorem dropTransients_snkAnswers (s : State) : s.dropTransients.snkAnswers = s.snkAnswers := rfl
@[simp] theorem dropTransients_smp (s : State) : s.dropTransients.smp = s.smp := rfl
@[simp] theorem dropTransients_pix (s : State) : s.dropTransients.pix = s.pix := rfl
@[simp] theorem dropTransients_freeIdx (s : State) : s.dropTransients.freeIdx = s.freeIdx + 1 := rfl

@[simp] theorem forgetHeader_cfg (s : State) : s.forgetHeader.cfg = s.cfg := rfl
@[simp] theorem forgetHeader_thr (s : State) : s.forgetHeader.thr = s.thr := rfl
@[simp] theorem forgetHeader_phase (s : State) : s.forgetHeader.phase = .uninitialized := rfl
@[simp] theorem forgetHeader_hdrType (s : State) : s.forgetHeader.hdrType = Config.freeHdrType s.freeIdx := rfl
@[simp] theorem forgetHeader_hdrExt (s : State) : s.forgetHeader.hdrExt = Config.freeHdrExt s.freeIdx := rfl
@[simp] theorem forgetHeader_hdrW (s : State) : s.forgetHeader.hdrW = Config.freeHdrW s.freeIdx := rfl
@[simp] theorem forgetHeader_hdrH (s : State) : s.forgetHeader.hdrH = Config.freeHdrH s.freeIdx := rfl
@[simp] theorem forgetHeader_thrS (s : State) : s.forgetHeader.thrS = s.thrS := rfl
@[simp] theorem forgetHeader_acc (s : State) : s.forgetHeader.acc = s.acc := rfl
@[simp] theorem forgetHeader_grp (s : State) : s.forgetHeader.grp = s.grp := rfl
@[simp] theorem forgetHeader_oct (s : State) : s.forgetHeader.oct = s.oct := rfl
@[simp] theorem forgetHeader_nb (s : State) : s.forgetHeader.nb = s.nb := rfl
@[simp] theorem forgetHeader_row (s : State) : s.forgetHeader.row = s.row := rfl
@[simp] theorem forgetHeader_col (s : State) : s.forgetHeader.col = s.col := rfl
@[simp] theorem forgetHeader_rowbuf (s : State) : s.forgetHeader.rowbuf = s.rowbuf := rfl
@[simp] theorem forgetHeader_activity (s : State) : s.forgetHeader.activity = s.activity := rfl
@[simp] theorem forgetHeader_cmds (s : State) : s.forgetHeader.cmds = s.cmds := rfl
@[simp] theorem forgetHeader_results (s : State) : s.forgetHeader.results = s.results := rfl
@[simp] theorem forgetHeader_src (s : State) : s.forgetHeader.src = s.src := rfl
@[simp] theorem forgetHeader_ipos (s : State) : s.forgetHeader.ipos = s.ipos := rfl
@[simp] theorem forgetHeader_srcAnswers (s : State) : s.forgetHeader.srcAnswers = s.srcAnswers := rfl
@[simp] theorem forgetHeader_snk (s : State) : s.forgetHeader.snk = s.snk := rfl
@[simp] theorem forgetHeader_snkAnswers (s : State) : s.forgetHeader.snkAnswers = s.snkAnswers := rfl
@[simp] theorem forgetHeader_smp (s : State) : s.forgetHeader.smp = s.smp := rfl
@[simp] theorem forgetHeader_pix (s : State) : s.forgetHeader.pix = s.pix := rfl
@[simp] theorem forgetHeader_freeIdx (s : State) : s.forgetHeader.freeIdx = s.freeIdx + 1 := rfl

@[simp] theorem latchHeader_cfg (s : State) (w h : Dim) : (s.latchHeader w h).cfg = s.cfg := rfl
@[simp] theorem latchHeader_thr (s : State) (w h : Dim) : (s.latchHeader w h).thr = s.thr := rfl
@[simp] theorem latchHeader_phase (s : State) (w h : Dim) : (s.latchHeader w h).phase = .ready := rfl
@[simp] theorem latchHeader_hdrType (s : State) (w h : Dim) : (s.latchHeader w h).hdrType = 0x00 := rfl
@[simp] theorem latchHeader_hdrExt (s : State) (w h : Dim) : (s.latchHeader w h).hdrExt = 0 := rfl
@[simp] theorem latchHeader_hdrW (s : State) (w h : Dim) : (s.latchHeader w h).hdrW = w := rfl
@[simp] theorem latchHeader_hdrH (s : State) (w h : Dim) : (s.latchHeader w h).hdrH = h := rfl
@[simp] theorem latchHeader_thrS (s : State) (w h : Dim) : (s.latchHeader w h).thrS = s.thrS := rfl
@[simp] theorem latchHeader_acc (s : State) (w h : Dim) : (s.latchHeader w h).acc = s.acc := rfl
@[simp] theorem latchHeader_grp (s : State) (w h : Dim) : (s.latchHeader w h).grp = s.grp := rfl
@[simp] theorem latchHeader_oct (s : State) (w h : Dim) : (s.latchHeader w h).oct = s.oct := rfl
@[simp] theorem latchHeader_nb (s : State) (w h : Dim) : (s.latchHeader w h).nb = s.nb := rfl
@[simp] theorem latchHeader_row (s : State) (w h : Dim) : (s.latchHeader w h).row = s.row := rfl
@[simp] theorem latchHeader_col (s : State) (w h : Dim) : (s.latchHeader w h).col = s.col := rfl
@[simp] theorem latchHeader_rowbuf (s : State) (w h : Dim) : (s.latchHeader w h).rowbuf = s.rowbuf := rfl
@[simp] theorem latchHeader_activity (s : State) (w h : Dim) : (s.latchHeader w h).activity = s.activity := rfl
@[simp] theorem latchHeader_cmds (s : State) (w h : Dim) : (s.latchHeader w h).cmds = s.cmds := rfl
@[simp] theorem latchHeader_results (s : State) (w h : Dim) : (s.latchHeader w h).results = s.results := rfl
@[simp] theorem latchHeader_src (s : State) (w h : Dim) : (s.latchHeader w h).src = s.src := rfl
@[simp] theorem latchHeader_ipos (s : State) (w h : Dim) : (s.latchHeader w h).ipos = s.ipos := rfl
@[simp] theorem latchHeader_srcAnswers (s : State) (w h : Dim) : (s.latchHeader w h).srcAnswers = s.srcAnswers := rfl
@[simp] theorem latchHeader_snk (s : State) (w h : Dim) : (s.latchHeader w h).snk = s.snk := rfl
@[simp] theorem latchHeader_snkAnswers (s : State) (w h : Dim) : (s.latchHeader w h).snkAnswers = s.snkAnswers := rfl
@[simp] theorem latchHeader_smp (s : State) (w h : Dim) : (s.latchHeader w h).smp = s.smp := rfl
@[simp] theorem latchHeader_pix (s : State) (w h : Dim) : (s.latchHeader w h).pix = s.pix := rfl
@[simp] theorem latchHeader_freeIdx (s : State) (w h : Dim) : (s.latchHeader w h).freeIdx = s.freeIdx := rfl

@[simp] theorem setThr_cfg (s : State) (t : Octet) : (s.setThr t).cfg = s.cfg := rfl
@[simp] theorem setThr_thr (s : State) (t : Octet) : (s.setThr t).thr = t := rfl
@[simp] theorem setThr_phase (s : State) (t : Octet) : (s.setThr t).phase = s.phase := rfl
@[simp] theorem setThr_hdrType (s : State) (t : Octet) : (s.setThr t).hdrType = s.hdrType := rfl
@[simp] theorem setThr_hdrExt (s : State) (t : Octet) : (s.setThr t).hdrExt = s.hdrExt := rfl
@[simp] theorem setThr_hdrW (s : State) (t : Octet) : (s.setThr t).hdrW = s.hdrW := rfl
@[simp] theorem setThr_hdrH (s : State) (t : Octet) : (s.setThr t).hdrH = s.hdrH := rfl
@[simp] theorem setThr_thrS (s : State) (t : Octet) : (s.setThr t).thrS = s.thrS := rfl
@[simp] theorem setThr_acc (s : State) (t : Octet) : (s.setThr t).acc = s.acc := rfl
@[simp] theorem setThr_grp (s : State) (t : Octet) : (s.setThr t).grp = s.grp := rfl
@[simp] theorem setThr_oct (s : State) (t : Octet) : (s.setThr t).oct = s.oct := rfl
@[simp] theorem setThr_nb (s : State) (t : Octet) : (s.setThr t).nb = s.nb := rfl
@[simp] theorem setThr_row (s : State) (t : Octet) : (s.setThr t).row = s.row := rfl
@[simp] theorem setThr_col (s : State) (t : Octet) : (s.setThr t).col = s.col := rfl
@[simp] theorem setThr_rowbuf (s : State) (t : Octet) : (s.setThr t).rowbuf = s.rowbuf := rfl
@[simp] theorem setThr_activity (s : State) (t : Octet) : (s.setThr t).activity = s.activity := rfl
@[simp] theorem setThr_cmds (s : State) (t : Octet) : (s.setThr t).cmds = s.cmds := rfl
@[simp] theorem setThr_results (s : State) (t : Octet) : (s.setThr t).results = s.results := rfl
@[simp] theorem setThr_src (s : State) (t : Octet) : (s.setThr t).src = s.src := rfl
@[simp] theorem setThr_ipos (s : State) (t : Octet) : (s.setThr t).ipos = s.ipos := rfl
@[simp] theorem setThr_srcAnswers (s : State) (t : Octet) : (s.setThr t).srcAnswers = s.srcAnswers := rfl
@[simp] theorem setThr_snk (s : State) (t : Octet) : (s.setThr t).snk = s.snk := rfl
@[simp] theorem setThr_snkAnswers (s : State) (t : Octet) : (s.setThr t).snkAnswers = s.snkAnswers := rfl
@[simp] theorem setThr_smp (s : State) (t : Octet) : (s.setThr t).smp = s.smp := rfl
@[simp] theorem setThr_pix (s : State) (t : Octet) : (s.setThr t).pix = s.pix := rfl
@[simp] theorem setThr_freeIdx (s : State) (t : Octet) : (s.setThr t).freeIdx = s.freeIdx := rfl

@[simp] theorem setPix_cfg (s : State) (m : Memory) : (s.setPix m).cfg = s.cfg := rfl
@[simp] theorem setPix_thr (s : State) (m : Memory) : (s.setPix m).thr = s.thr := rfl
@[simp] theorem setPix_phase (s : State) (m : Memory) : (s.setPix m).phase = s.phase := rfl
@[simp] theorem setPix_hdrType (s : State) (m : Memory) : (s.setPix m).hdrType = s.hdrType := rfl
@[simp] theorem setPix_hdrExt (s : State) (m : Memory) : (s.setPix m).hdrExt = s.hdrExt := rfl
@[simp] theorem setPix_hdrW (s : State) (m : Memory) : (s.setPix m).hdrW = s.hdrW := rfl
@[simp] theorem setPix_hdrH (s : State) (m : Memory) : (s.setPix m).hdrH = s.hdrH := rfl
@[simp] theorem setPix_thrS (s : State) (m : Memory) : (s.setPix m).thrS = s.thrS := rfl
@[simp] theorem setPix_acc (s : State) (m : Memory) : (s.setPix m).acc = s.acc := rfl
@[simp] theorem setPix_grp (s : State) (m : Memory) : (s.setPix m).grp = s.grp := rfl
@[simp] theorem setPix_oct (s : State) (m : Memory) : (s.setPix m).oct = s.oct := rfl
@[simp] theorem setPix_nb (s : State) (m : Memory) : (s.setPix m).nb = s.nb := rfl
@[simp] theorem setPix_row (s : State) (m : Memory) : (s.setPix m).row = s.row := rfl
@[simp] theorem setPix_col (s : State) (m : Memory) : (s.setPix m).col = s.col := rfl
@[simp] theorem setPix_rowbuf (s : State) (m : Memory) : (s.setPix m).rowbuf = s.rowbuf := rfl
@[simp] theorem setPix_activity (s : State) (m : Memory) : (s.setPix m).activity = s.activity := rfl
@[simp] theorem setPix_cmds (s : State) (m : Memory) : (s.setPix m).cmds = s.cmds := rfl
@[simp] theorem setPix_results (s : State) (m : Memory) : (s.setPix m).results = s.results := rfl
@[simp] theorem setPix_src (s : State) (m : Memory) : (s.setPix m).src = s.src := rfl
@[simp] theorem setPix_ipos (s : State) (m : Memory) : (s.setPix m).ipos = s.ipos := rfl
@[simp] theorem setPix_srcAnswers (s : State) (m : Memory) : (s.setPix m).srcAnswers = s.srcAnswers := rfl
@[simp] theorem setPix_snk (s : State) (m : Memory) : (s.setPix m).snk = s.snk := rfl
@[simp] theorem setPix_snkAnswers (s : State) (m : Memory) : (s.setPix m).snkAnswers = s.snkAnswers := rfl
@[simp] theorem setPix_smp (s : State) (m : Memory) : (s.setPix m).smp = s.smp := rfl
@[simp] theorem setPix_pix (s : State) (m : Memory) : (s.setPix m).pix = m := rfl
@[simp] theorem setPix_freeIdx (s : State) (m : Memory) : (s.setPix m).freeIdx = s.freeIdx := rfl

@[simp] theorem setActivity_cfg (s : State) (a : Activity) : (s.setActivity a).cfg = s.cfg := rfl
@[simp] theorem setActivity_thr (s : State) (a : Activity) : (s.setActivity a).thr = s.thr := rfl
@[simp] theorem setActivity_phase (s : State) (a : Activity) : (s.setActivity a).phase = s.phase := rfl
@[simp] theorem setActivity_hdrType (s : State) (a : Activity) : (s.setActivity a).hdrType = s.hdrType := rfl
@[simp] theorem setActivity_hdrExt (s : State) (a : Activity) : (s.setActivity a).hdrExt = s.hdrExt := rfl
@[simp] theorem setActivity_hdrW (s : State) (a : Activity) : (s.setActivity a).hdrW = s.hdrW := rfl
@[simp] theorem setActivity_hdrH (s : State) (a : Activity) : (s.setActivity a).hdrH = s.hdrH := rfl
@[simp] theorem setActivity_thrS (s : State) (a : Activity) : (s.setActivity a).thrS = s.thrS := rfl
@[simp] theorem setActivity_acc (s : State) (a : Activity) : (s.setActivity a).acc = s.acc := rfl
@[simp] theorem setActivity_grp (s : State) (a : Activity) : (s.setActivity a).grp = s.grp := rfl
@[simp] theorem setActivity_oct (s : State) (a : Activity) : (s.setActivity a).oct = s.oct := rfl
@[simp] theorem setActivity_nb (s : State) (a : Activity) : (s.setActivity a).nb = s.nb := rfl
@[simp] theorem setActivity_row (s : State) (a : Activity) : (s.setActivity a).row = s.row := rfl
@[simp] theorem setActivity_col (s : State) (a : Activity) : (s.setActivity a).col = s.col := rfl
@[simp] theorem setActivity_rowbuf (s : State) (a : Activity) : (s.setActivity a).rowbuf = s.rowbuf := rfl
@[simp] theorem setActivity_activity (s : State) (a : Activity) : (s.setActivity a).activity = a := rfl
@[simp] theorem setActivity_cmds (s : State) (a : Activity) : (s.setActivity a).cmds = s.cmds := rfl
@[simp] theorem setActivity_results (s : State) (a : Activity) : (s.setActivity a).results = s.results := rfl
@[simp] theorem setActivity_src (s : State) (a : Activity) : (s.setActivity a).src = s.src := rfl
@[simp] theorem setActivity_ipos (s : State) (a : Activity) : (s.setActivity a).ipos = s.ipos := rfl
@[simp] theorem setActivity_srcAnswers (s : State) (a : Activity) : (s.setActivity a).srcAnswers = s.srcAnswers := rfl
@[simp] theorem setActivity_snk (s : State) (a : Activity) : (s.setActivity a).snk = s.snk := rfl
@[simp] theorem setActivity_snkAnswers (s : State) (a : Activity) : (s.setActivity a).snkAnswers = s.snkAnswers := rfl
@[simp] theorem setActivity_smp (s : State) (a : Activity) : (s.setActivity a).smp = s.smp := rfl
@[simp] theorem setActivity_pix (s : State) (a : Activity) : (s.setActivity a).pix = s.pix := rfl
@[simp] theorem setActivity_freeIdx (s : State) (a : Activity) : (s.setActivity a).freeIdx = s.freeIdx := rfl

@[simp] theorem finish_cfg (r : Result) (s : State) : (finish r s).cfg = s.cfg := rfl
@[simp] theorem finish_thr (r : Result) (s : State) : (finish r s).thr = s.thr := rfl
@[simp] theorem finish_phase (r : Result) (s : State) : (finish r s).phase = s.phase := rfl
@[simp] theorem finish_hdrType (r : Result) (s : State) : (finish r s).hdrType = s.hdrType := rfl
@[simp] theorem finish_hdrExt (r : Result) (s : State) : (finish r s).hdrExt = s.hdrExt := rfl
@[simp] theorem finish_hdrW (r : Result) (s : State) : (finish r s).hdrW = s.hdrW := rfl
@[simp] theorem finish_hdrH (r : Result) (s : State) : (finish r s).hdrH = s.hdrH := rfl
@[simp] theorem finish_thrS (r : Result) (s : State) : (finish r s).thrS = Config.freeThrS s.freeIdx := rfl
@[simp] theorem finish_acc (r : Result) (s : State) : (finish r s).acc = Config.freeAcc s.freeIdx := rfl
@[simp] theorem finish_grp (r : Result) (s : State) : (finish r s).grp = Config.freeGrp s.freeIdx := rfl
@[simp] theorem finish_oct (r : Result) (s : State) : (finish r s).oct = Config.freeOct s.freeIdx := rfl
@[simp] theorem finish_nb (r : Result) (s : State) : (finish r s).nb = Config.freeNb s.freeIdx := rfl
@[simp] theorem finish_row (r : Result) (s : State) : (finish r s).row = Config.freeRow s.freeIdx := rfl
@[simp] theorem finish_col (r : Result) (s : State) : (finish r s).col = Config.freeCol s.freeIdx := rfl
@[simp] theorem finish_rowbuf (r : Result) (s : State) : (finish r s).rowbuf = Config.freeRowbuf s.freeIdx := rfl
@[simp] theorem finish_activity (r : Result) (s : State) : (finish r s).activity = .idle := rfl
@[simp] theorem finish_cmds (r : Result) (s : State) : (finish r s).cmds = s.cmds := rfl
@[simp] theorem finish_results (r : Result) (s : State) : (finish r s).results = s.results ++ [r] := rfl
@[simp] theorem finish_src (r : Result) (s : State) : (finish r s).src = s.src := rfl
@[simp] theorem finish_ipos (r : Result) (s : State) : (finish r s).ipos = s.ipos := rfl
@[simp] theorem finish_srcAnswers (r : Result) (s : State) : (finish r s).srcAnswers = s.srcAnswers := rfl
@[simp] theorem finish_snk (r : Result) (s : State) : (finish r s).snk = s.snk := rfl
@[simp] theorem finish_snkAnswers (r : Result) (s : State) : (finish r s).snkAnswers = s.snkAnswers := rfl
@[simp] theorem finish_smp (r : Result) (s : State) : (finish r s).smp = s.smp := rfl
@[simp] theorem finish_pix (r : Result) (s : State) : (finish r s).pix = s.pix := rfl
@[simp] theorem finish_freeIdx (r : Result) (s : State) : (finish r s).freeIdx = s.freeIdx + 1 := rfl

@[simp] theorem succeed_cfg (a b : Dim) (s : State) : (succeed a b s).cfg = s.cfg := rfl
@[simp] theorem succeed_thr (a b : Dim) (s : State) : (succeed a b s).thr = s.thr := rfl
@[simp] theorem succeed_phase (a b : Dim) (s : State) : (succeed a b s).phase = s.phase := rfl
@[simp] theorem succeed_hdrType (a b : Dim) (s : State) : (succeed a b s).hdrType = s.hdrType := rfl
@[simp] theorem succeed_hdrExt (a b : Dim) (s : State) : (succeed a b s).hdrExt = s.hdrExt := rfl
@[simp] theorem succeed_hdrW (a b : Dim) (s : State) : (succeed a b s).hdrW = s.hdrW := rfl
@[simp] theorem succeed_hdrH (a b : Dim) (s : State) : (succeed a b s).hdrH = s.hdrH := rfl
@[simp] theorem succeed_thrS (a b : Dim) (s : State) : (succeed a b s).thrS = Config.freeThrS s.freeIdx := rfl
@[simp] theorem succeed_acc (a b : Dim) (s : State) : (succeed a b s).acc = Config.freeAcc s.freeIdx := rfl
@[simp] theorem succeed_grp (a b : Dim) (s : State) : (succeed a b s).grp = Config.freeGrp s.freeIdx := rfl
@[simp] theorem succeed_oct (a b : Dim) (s : State) : (succeed a b s).oct = Config.freeOct s.freeIdx := rfl
@[simp] theorem succeed_nb (a b : Dim) (s : State) : (succeed a b s).nb = Config.freeNb s.freeIdx := rfl
@[simp] theorem succeed_row (a b : Dim) (s : State) : (succeed a b s).row = Config.freeRow s.freeIdx := rfl
@[simp] theorem succeed_col (a b : Dim) (s : State) : (succeed a b s).col = Config.freeCol s.freeIdx := rfl
@[simp] theorem succeed_rowbuf (a b : Dim) (s : State) : (succeed a b s).rowbuf = Config.freeRowbuf s.freeIdx := rfl
@[simp] theorem succeed_activity (a b : Dim) (s : State) : (succeed a b s).activity = .idle := rfl
@[simp] theorem succeed_cmds (a b : Dim) (s : State) : (succeed a b s).cmds = s.cmds := rfl
@[simp] theorem succeed_results (a b : Dim) (s : State) : (succeed a b s).results = s.results ++ [okRecord a b] := rfl
@[simp] theorem succeed_src (a b : Dim) (s : State) : (succeed a b s).src = s.src := rfl
@[simp] theorem succeed_ipos (a b : Dim) (s : State) : (succeed a b s).ipos = s.ipos := rfl
@[simp] theorem succeed_srcAnswers (a b : Dim) (s : State) : (succeed a b s).srcAnswers = s.srcAnswers := rfl
@[simp] theorem succeed_snk (a b : Dim) (s : State) : (succeed a b s).snk = s.snk := rfl
@[simp] theorem succeed_snkAnswers (a b : Dim) (s : State) : (succeed a b s).snkAnswers = s.snkAnswers := rfl
@[simp] theorem succeed_smp (a b : Dim) (s : State) : (succeed a b s).smp = s.smp := rfl
@[simp] theorem succeed_pix (a b : Dim) (s : State) : (succeed a b s).pix = s.pix := rfl
@[simp] theorem succeed_freeIdx (a b : Dim) (s : State) : (succeed a b s).freeIdx = s.freeIdx + 1 := rfl

@[simp] theorem raise_cfg (e : Err) (s : State) : (raise e s).cfg = s.cfg := rfl
@[simp] theorem raise_thr (e : Err) (s : State) : (raise e s).thr = s.thr := rfl
@[simp] theorem raise_phase (e : Err) (s : State) : (raise e s).phase = s.phase := rfl
@[simp] theorem raise_hdrType (e : Err) (s : State) : (raise e s).hdrType = s.hdrType := rfl
@[simp] theorem raise_hdrExt (e : Err) (s : State) : (raise e s).hdrExt = s.hdrExt := rfl
@[simp] theorem raise_hdrW (e : Err) (s : State) : (raise e s).hdrW = s.hdrW := rfl
@[simp] theorem raise_hdrH (e : Err) (s : State) : (raise e s).hdrH = s.hdrH := rfl
@[simp] theorem raise_thrS (e : Err) (s : State) : (raise e s).thrS = Config.freeThrS s.freeIdx := rfl
@[simp] theorem raise_acc (e : Err) (s : State) : (raise e s).acc = Config.freeAcc s.freeIdx := rfl
@[simp] theorem raise_grp (e : Err) (s : State) : (raise e s).grp = Config.freeGrp s.freeIdx := rfl
@[simp] theorem raise_oct (e : Err) (s : State) : (raise e s).oct = Config.freeOct s.freeIdx := rfl
@[simp] theorem raise_nb (e : Err) (s : State) : (raise e s).nb = Config.freeNb s.freeIdx := rfl
@[simp] theorem raise_row (e : Err) (s : State) : (raise e s).row = Config.freeRow s.freeIdx := rfl
@[simp] theorem raise_col (e : Err) (s : State) : (raise e s).col = Config.freeCol s.freeIdx := rfl
@[simp] theorem raise_rowbuf (e : Err) (s : State) : (raise e s).rowbuf = Config.freeRowbuf s.freeIdx := rfl
@[simp] theorem raise_activity (e : Err) (s : State) : (raise e s).activity = .idle := rfl
@[simp] theorem raise_cmds (e : Err) (s : State) : (raise e s).cmds = s.cmds := rfl
@[simp] theorem raise_results (e : Err) (s : State) : (raise e s).results = s.results ++ [e.record] := rfl
@[simp] theorem raise_src (e : Err) (s : State) : (raise e s).src = s.src := rfl
@[simp] theorem raise_ipos (e : Err) (s : State) : (raise e s).ipos = s.ipos := rfl
@[simp] theorem raise_srcAnswers (e : Err) (s : State) : (raise e s).srcAnswers = s.srcAnswers := rfl
@[simp] theorem raise_snk (e : Err) (s : State) : (raise e s).snk = s.snk := rfl
@[simp] theorem raise_snkAnswers (e : Err) (s : State) : (raise e s).snkAnswers = s.snkAnswers := rfl
@[simp] theorem raise_smp (e : Err) (s : State) : (raise e s).smp = s.smp := rfl
@[simp] theorem raise_pix (e : Err) (s : State) : (raise e s).pix = s.pix := rfl
@[simp] theorem raise_freeIdx (e : Err) (s : State) : (raise e s).freeIdx = s.freeIdx + 1 := rfl

@[simp] theorem accumulateBit_cfg (bit : Bool) (s : State) : (accumulateBit bit s).cfg = s.cfg := rfl
@[simp] theorem accumulateBit_thr (bit : Bool) (s : State) : (accumulateBit bit s).thr = s.thr := rfl
@[simp] theorem accumulateBit_phase (bit : Bool) (s : State) : (accumulateBit bit s).phase = s.phase := rfl
@[simp] theorem accumulateBit_hdrType (bit : Bool) (s : State) : (accumulateBit bit s).hdrType = s.hdrType := rfl
@[simp] theorem accumulateBit_hdrExt (bit : Bool) (s : State) : (accumulateBit bit s).hdrExt = s.hdrExt := rfl
@[simp] theorem accumulateBit_hdrW (bit : Bool) (s : State) : (accumulateBit bit s).hdrW = s.hdrW := rfl
@[simp] theorem accumulateBit_hdrH (bit : Bool) (s : State) : (accumulateBit bit s).hdrH = s.hdrH := rfl
@[simp] theorem accumulateBit_thrS (bit : Bool) (s : State) : (accumulateBit bit s).thrS = s.thrS := rfl
@[simp] theorem accumulateBit_acc (bit : Bool) (s : State) : (accumulateBit bit s).acc = s.acc := rfl
@[simp] theorem accumulateBit_grp (bit : Bool) (s : State) : (accumulateBit bit s).grp = s.grp := rfl
@[simp] theorem accumulateBit_oct (bit : Bool) (s : State) : (accumulateBit bit s).oct = packBit s.oct s.nb bit := rfl
@[simp] theorem accumulateBit_nb (bit : Bool) (s : State) : (accumulateBit bit s).nb = s.nb + 1 := rfl
@[simp] theorem accumulateBit_row (bit : Bool) (s : State) : (accumulateBit bit s).row = s.row := rfl
@[simp] theorem accumulateBit_col (bit : Bool) (s : State) : (accumulateBit bit s).col = s.col := rfl
@[simp] theorem accumulateBit_rowbuf (bit : Bool) (s : State) : (accumulateBit bit s).rowbuf = s.rowbuf := rfl
@[simp] theorem accumulateBit_activity (bit : Bool) (s : State) : (accumulateBit bit s).activity = s.activity := rfl
@[simp] theorem accumulateBit_cmds (bit : Bool) (s : State) : (accumulateBit bit s).cmds = s.cmds := rfl
@[simp] theorem accumulateBit_results (bit : Bool) (s : State) : (accumulateBit bit s).results = s.results := rfl
@[simp] theorem accumulateBit_src (bit : Bool) (s : State) : (accumulateBit bit s).src = s.src := rfl
@[simp] theorem accumulateBit_ipos (bit : Bool) (s : State) : (accumulateBit bit s).ipos = s.ipos := rfl
@[simp] theorem accumulateBit_srcAnswers (bit : Bool) (s : State) : (accumulateBit bit s).srcAnswers = s.srcAnswers := rfl
@[simp] theorem accumulateBit_snk (bit : Bool) (s : State) : (accumulateBit bit s).snk = s.snk := rfl
@[simp] theorem accumulateBit_snkAnswers (bit : Bool) (s : State) : (accumulateBit bit s).snkAnswers = s.snkAnswers := rfl
@[simp] theorem accumulateBit_smp (bit : Bool) (s : State) : (accumulateBit bit s).smp = s.smp := rfl
@[simp] theorem accumulateBit_pix (bit : Bool) (s : State) : (accumulateBit bit s).pix = s.pix := rfl
@[simp] theorem accumulateBit_freeIdx (bit : Bool) (s : State) : (accumulateBit bit s).freeIdx = s.freeIdx := rfl

@[simp] theorem resetInput_cfg (s : State) : s.resetInput.cfg = s.cfg := rfl
@[simp] theorem resetInput_thr (s : State) : s.resetInput.thr = State.reset.thr := rfl
@[simp] theorem resetInput_phase (s : State) : s.resetInput.phase = State.reset.phase := rfl
@[simp] theorem resetInput_hdrType (s : State) : s.resetInput.hdrType = State.reset.hdrType := rfl
@[simp] theorem resetInput_hdrExt (s : State) : s.resetInput.hdrExt = State.reset.hdrExt := rfl
@[simp] theorem resetInput_hdrW (s : State) : s.resetInput.hdrW = State.reset.hdrW := rfl
@[simp] theorem resetInput_hdrH (s : State) : s.resetInput.hdrH = State.reset.hdrH := rfl
@[simp] theorem resetInput_thrS (s : State) : s.resetInput.thrS = State.reset.thrS := rfl
@[simp] theorem resetInput_acc (s : State) : s.resetInput.acc = State.reset.acc := rfl
@[simp] theorem resetInput_grp (s : State) : s.resetInput.grp = State.reset.grp := rfl
@[simp] theorem resetInput_oct (s : State) : s.resetInput.oct = State.reset.oct := rfl
@[simp] theorem resetInput_nb (s : State) : s.resetInput.nb = State.reset.nb := rfl
@[simp] theorem resetInput_row (s : State) : s.resetInput.row = State.reset.row := rfl
@[simp] theorem resetInput_col (s : State) : s.resetInput.col = State.reset.col := rfl
@[simp] theorem resetInput_rowbuf (s : State) : s.resetInput.rowbuf = State.reset.rowbuf := rfl
@[simp] theorem resetInput_activity (s : State) : s.resetInput.activity = State.reset.activity := rfl
@[simp] theorem resetInput_cmds (s : State) : s.resetInput.cmds = s.cmds := rfl
@[simp] theorem resetInput_results (s : State) : s.resetInput.results = s.results := rfl
@[simp] theorem resetInput_src (s : State) : s.resetInput.src = s.src := rfl
@[simp] theorem resetInput_ipos (s : State) : s.resetInput.ipos = s.ipos := rfl
@[simp] theorem resetInput_srcAnswers (s : State) : s.resetInput.srcAnswers = s.srcAnswers := rfl
@[simp] theorem resetInput_snk (s : State) : s.resetInput.snk = s.snk := rfl
@[simp] theorem resetInput_snkAnswers (s : State) : s.resetInput.snkAnswers = s.snkAnswers := rfl
@[simp] theorem resetInput_smp (s : State) : s.resetInput.smp = s.smp := rfl
@[simp] theorem resetInput_pix (s : State) : s.resetInput.pix = s.pix := rfl
@[simp] theorem resetInput_freeIdx (s : State) : s.resetInput.freeIdx = s.freeIdx := rfl

@[simp] theorem busy_setActivity_reading (s : State) (r : Reader) : (s.setActivity (.reading r)).busy = true := rfl
@[simp] theorem busy_setActivity_writing (s : State) (w : Writer) : (s.setActivity (.writing w)).busy = true := rfl
@[simp] theorem busy_finish (r : Result) (s : State) : (finish r s).busy = false := rfl

/-- `BUSY` = 0 exactly when nothing is in progress. -/
theorem busy_eq_false_iff (s : State) : s.busy = false ↔ s.activity = .idle := by
  simp [State.busy]

/-- On an idle block a command runs (20_memory.md R41). -/
@[simp] theorem whenIdle_of_idle {s : State} (h : s.activity = .idle)
    (k : State → Host.Outcome State Fault Refusal) : whenIdle s k = k s := by
  simp [whenIdle, State.busy, h]

/-- On a busy block a command waits (20_memory.md R41). -/
theorem whenIdle_of_busy {s : State} (h : s.activity ≠ .idle)
    (k : State → Host.Outcome State Fault Refusal) : whenIdle s k = .next s := by
  simp [whenIdle, State.busy, h]

@[simp] theorem andThen_next (s : State) (k : State → Host.Outcome State Fault Refusal) :
    andThen (.next s) k = k s := rfl
@[simp] theorem andThen_fault (f : Fault) (k : State → Host.Outcome State Fault Refusal) :
    andThen (.fault f) k = .fault f := rfl
@[simp] theorem andThen_refused (r : Refusal) (k : State → Host.Outcome State Fault Refusal) :
    andThen (.refused r) k = .refused r := rfl

/-- A sequence answers a next state only through its first part's next state. -/
theorem andThen_eq_next {o : Host.Outcome State Fault Refusal} {k : State → Host.Outcome State Fault Refusal}
    {t : State} (h : andThen o k = .next t) : ∃ s, o = .next s ∧ k s = .next t := by
  cases o with
  | next s => exact ⟨s, rfl, h⟩
  | fault f => cases h
  | refused r => cases h

/-- A sequence faults only where one of its parts does. -/
theorem andThen_eq_fault {o : Host.Outcome State Fault Refusal} {k : State → Host.Outcome State Fault Refusal}
    {f : Fault} (h : andThen o k = .fault f) : o = .fault f ∨ ∃ s, o = .next s ∧ k s = .fault f := by
  cases o with
  | next s => exact .inr ⟨s, rfl, h⟩
  | fault g => exact .inl (by simpa using h)
  | refused r => cases h

end Sys2Proof.Machine
end

