-- ==== Sys2Proof/Laws/Commands.lean ====
section
/-! SUPPORT. What each command is on an idle block (20_memory.md R41), and what the end of an operation leaves alone. -/

namespace Sys2Proof.Machine

theorem SameBytes.refl (m : Memory) : SameBytes m m := ⟨rfl, fun _ => rfl⟩

theorem SameBytes.from {m n : Memory} (k : Nat) (h : SameBytes m n) : SameBytesFrom k m n := ⟨h.1, fun i _ => h.2 i⟩

/-- The end of an operation is the end with its result (60_exceptions.md R231). -/
theorem ended_finish (r : Result) (s : State) : Ended r s (finish r s) := ⟨rfl, rfl⟩

/-- The end of an operation drops the transient registers and nothing else (60_exceptions.md R230). -/
theorem quiet_finish (r : Result) (s : State) : Quiet s (finish r s) :=
  ⟨⟨rfl, rfl⟩, ⟨rfl, rfl, rfl, rfl, rfl, rfl⟩, ⟨rfl, rfl, rfl⟩, ⟨rfl, rfl⟩, SameBytes.refl _, SameBytes.refl _⟩

section
variable {s : State} (h : s.activity = .idle)
include h

theorem exec_decNew : exec .decNew s = runReader (s.forgetHeader.setActivity (.reading (.typeField .latch))) :=
  whenIdle_of_idle h fun s => runReader (s.forgetHeader.setActivity (.reading (.typeField .latch)))

theorem exec_dims : exec .dims s =
    if s.phase = .ready then .next (succeed s.hdrW s.hdrH s) else .refused .noDecoder :=
  whenIdle_of_idle h fun s => if s.phase = .ready then .next (succeed s.hdrW s.hdrH s) else .refused .noDecoder

theorem exec_rdimg : exec .rdimg s =
    if s.phase = .ready then runReader (startUnpack s.hdrW s.hdrH s) else .refused .noDecoder :=
  whenIdle_of_idle h fun s =>
    if s.phase = .ready then runReader (startUnpack s.hdrW s.hdrH s) else .refused .noDecoder

theorem exec_encNew : exec .encNew s = .next (succeed 0 0 (s.setThr Config.thrReset)) :=
  whenIdle_of_idle h fun s => .next (succeed 0 0 (s.setThr Config.thrReset))

theorem exec_setthr (t : Octet) : exec (.setthr t) s = .next (succeed 0 0 (s.setThr t)) :=
  whenIdle_of_idle h fun s => .next (succeed 0 0 (s.setThr t))

theorem exec_encodeL (w v : Dim) : exec (.encodeL w v) s = runEncode .luma8 w v s :=
  whenIdle_of_idle h (runEncode .luma8 w v)

theorem exec_encodeC (w v : Dim) : exec (.encodeC w v) s = runEncode .rgba8 w v s :=
  whenIdle_of_idle h (runEncode .rgba8 w v)

theorem exec_rdhdr : exec .rdhdr s = runReader (s.setActivity (.reading (.typeField .deliver))) :=
  whenIdle_of_idle h fun s => runReader (s.setActivity (.reading (.typeField .deliver)))

theorem exec_wrhdr (w v : Dim) : exec (.wrhdr w v) s = runWriter (s.setActivity (.writing (.typeField none w v))) :=
  whenIdle_of_idle h fun s => runWriter (s.setActivity (.writing (.typeField none w v)))

theorem exec_unpack (w v : Dim) : exec (.unpack w v) s = runReader (startUnpack w v s) :=
  whenIdle_of_idle h fun s => runReader (startUnpack w v s)

theorem exec_packL (w v : Dim) (t : Octet) : exec (.packL w v t) s = runPack .luma8 w v t s :=
  whenIdle_of_idle h (runPack .luma8 w v t)

theorem exec_packC (w v : Dim) (t : Octet) : exec (.packC w v t) s = runPack .rgba8 w v t s :=
  whenIdle_of_idle h (runPack .rgba8 w v t)

theorem exec_vldec : exec .vldec s = runReader { s with acc := 0, activity := .reading .value } :=
  whenIdle_of_idle h fun s => runReader { s with acc := 0, activity := .reading .value }

theorem exec_vlenc (v : Dim) :
    exec (.vlenc v) s = runWriter { s with grp := firstGroup v, activity := .writing (.value v) } :=
  whenIdle_of_idle h fun s => runWriter { s with grp := firstGroup v, activity := .writing (.value v) }

theorem exec_thrcmpL (v t : Octet) : exec (.thrcmpL v t) s = .next (succeed (bitPayload (thrcmpLuma v t)) 0 s) :=
  whenIdle_of_idle h fun s => .next (succeed (bitPayload (thrcmpLuma v t)) 0 s)

theorem exec_thrcmpC (r g b a t : Octet) :
    exec (.thrcmpC r g b a t) s = .next (succeed (bitPayload (thrcmpRgba r g b a t)) 0 s) :=
  whenIdle_of_idle h fun s => .next (succeed (bitPayload (thrcmpRgba r g b a t)) 0 s)

end

/-- On a busy block every command waits (20_memory.md R41). -/
theorem exec_busy {i : Instr} (hi : i.foundAt .command = true) {s : State} (h : s.activity ≠ .idle) :
    exec i s = .next s := by
  cases i <;> simp only [exec, execDecNew, execDims, execRdimg, execEncNew, execSetthr, execEncodeL, execEncodeC,
    execRdhdr, execWrhdr, execUnpack, execPackL, execPackC, execVldec, execVlenc, execThrcmpL, execThrcmpC,
    whenIdle_of_busy h] <;> cases hi

/-- The meaning of an octet class as an instruction is what the reader does with it. -/
theorem exec_toInstr (c : OctetClass) (s : State) : exec c.toInstr s = receive c s := by
  cases c <;> rfl

end Sys2Proof.Machine
end

