-- ==== Sys2Proof/Laws/Memory.lean ====
section
/-! SUPPORT. The laws of a buffer: reading after writing, what a write and a zero fill leave alone, and that every
operation keeps the canonical form. -/

namespace Sys2Proof.Machine

@[simp] theorem Memory.write_len (m : Memory) (i : Nat) (v : Octet) : (m.write i v).len = m.len := rfl
@[simp] theorem Memory.zeroFill_len (m : Memory) (n : Nat) : (m.zeroFill n).len = m.len := rfl

/-- A cell list from `lo` on lists no index below `lo`. -/
theorem lookupCell_below {len lo : Nat} {cells : List Host.Cell} (h : cellsOk len lo cells = true) {i : Nat}
    (hi : i < lo) : lookupCell cells i = unlistedByte := by
  induction cells generalizing lo with
  | nil => rfl
  | cons c rest ih =>
    simp only [cellsOk, Bool.and_eq_true, decide_eq_true_eq] at h
    have hne : c.1 ≠ i := by omega
    simp [lookupCell, hne, ih h.2 (by omega)]

/-- The canonical form may start lower. -/
theorem cellsOk_mono {len lo lo' : Nat} {cells : List Host.Cell} (h : cellsOk len lo cells = true)
    (hl : lo' ≤ lo) : cellsOk len lo' cells = true := by
  cases cells with
  | nil => rfl
  | cons c rest =>
    simp only [cellsOk, Bool.and_eq_true, decide_eq_true_eq] at h ⊢
    exact ⟨⟨by omega, h.1.2⟩, h.2⟩

/-- What reads after one cell is stored. -/
theorem lookupCell_storeCell {len lo : Nat} {cells : List Host.Cell} (h : cellsOk len lo cells = true)
    (i : Nat) (v : Octet) (j : Nat) :
    lookupCell (storeCell i v cells) j = if j = i then v else lookupCell cells j := by
  induction cells generalizing lo with
  | nil =>
    by_cases hv : v = unlistedByte <;> by_cases hj : j = i <;> simp_all [storeCell, consCell, lookupCell]
    omega
  | cons c rest ih =>
    simp only [cellsOk, Bool.and_eq_true, decide_eq_true_eq] at h
    have hb : ∀ {k}, k < c.1 + 1 → lookupCell rest k = unlistedByte := fun hk => lookupCell_below h.2 hk
    simp only [storeCell]
    split
    · rename_i hlt
      by_cases hv : v = unlistedByte
      · simp only [consCell, hv, if_true]
        split
        · rename_i hj
          subst hj
          simp [lookupCell, show c.1 ≠ j by omega, hb (show j < c.1 + 1 by omega)]
        · rfl
      · simp only [consCell, hv, if_false, lookupCell, eq_comm (a := i)]
    · split
      · rename_i hlt heq
        by_cases hv : v = unlistedByte
        · simp only [consCell, hv, if_true, lookupCell]
          split
          · rename_i hj
            exact hb (by omega)
          · rename_i hj
            simp [show c.1 ≠ j by omega]
        · simp only [consCell, hv, if_false, lookupCell, eq_comm (a := i)]
          split
          · rfl
          · rename_i hj
            simp [show c.1 ≠ j by omega]
      · rename_i hlt hne
        simp only [lookupCell, ih h.2]
        by_cases hc : c.1 = j
        · simp [hc, show j ≠ i by omega]
        · simp [hc]

/-- Storing a cell keeps the canonical form. -/
theorem cellsOk_storeCell {len lo : Nat} {cells : List Host.Cell} (h : cellsOk len lo cells = true)
    {i : Nat} (hlo : lo ≤ i) (hlen : i < len) (v : Octet) : cellsOk len lo (storeCell i v cells) = true := by
  induction cells generalizing lo with
  | nil =>
    by_cases hv : v = unlistedByte <;> simp [storeCell, consCell, cellsOk, hv, hlo, hlen]
  | cons c rest ih =>
    have h' := h
    simp only [cellsOk, Bool.and_eq_true, decide_eq_true_eq] at h
    simp only [storeCell]
    split
    · by_cases hv : v = unlistedByte
      · simpa [consCell, hv] using h'
      · simp only [consCell, hv, if_false, cellsOk, Bool.and_eq_true, decide_eq_true_eq]
        exact ⟨⟨hlo, hlen, hv⟩, ⟨by omega, h.1.2⟩, h.2⟩
    · split
      · by_cases hv : v = unlistedByte
        · simp only [consCell, hv, if_true]
          exact cellsOk_mono h.2 (by omega)
        · simp only [consCell, hv, if_false, cellsOk, Bool.and_eq_true, decide_eq_true_eq]
          exact ⟨⟨hlo, hlen, hv⟩, cellsOk_mono h.2 (by omega)⟩
      · simp only [cellsOk, Bool.and_eq_true, decide_eq_true_eq]
        exact ⟨h.1, ih h.2 (by omega)⟩

/-- What reads after the cells below `n` are dropped. -/
theorem lookupCell_filter (cells : List Host.Cell) (n j : Nat) :
    lookupCell (cells.filter (fun c => decide (n ≤ c.1))) j =
      if j < n then unlistedByte else lookupCell cells j := by
  induction cells with
  | nil => simp [lookupCell]
  | cons c rest ih =>
    by_cases hc : n ≤ c.1
    · simp only [List.filter_cons, hc, decide_true, if_true, lookupCell, ih]
      by_cases hj : c.1 = j
      · simp [hj, show ¬ j < n by omega]
      · simp [hj]
    · simp only [List.filter_cons, hc, decide_false, Bool.false_eq_true, if_false, ih, lookupCell]
      by_cases hj : c.1 = j
      · simp [show j < n by omega]
      · simp [hj]

/-- Dropping the cells below `n` keeps the canonical form. -/
theorem cellsOk_filter {len lo : Nat} {cells : List Host.Cell} (h : cellsOk len lo cells = true) (n : Nat) :
    cellsOk len lo (cells.filter (fun c => decide (n ≤ c.1))) = true := by
  induction cells generalizing lo with
  | nil => rfl
  | cons c rest ih =>
    simp only [cellsOk, Bool.and_eq_true, decide_eq_true_eq] at h
    by_cases hc : n ≤ c.1
    · simp only [List.filter_cons, hc, decide_true, if_true, cellsOk, Bool.and_eq_true, decide_eq_true_eq]
      exact ⟨h.1, ih h.2⟩
    · simp only [List.filter_cons, hc, decide_false, Bool.false_eq_true, if_false]
      exact cellsOk_mono (ih h.2) (by omega)

/-- Reading after a write: the byte written, and every other byte as before. -/
theorem Memory.read_write {m : Memory} (h : m.wf = true) (i : Nat) (v : Octet) (j : Nat) :
    (m.write i v).read j = if j = i then v else m.read j :=
  lookupCell_storeCell h i v j

/-- A write below the length keeps the canonical form. -/
theorem Memory.wf_write {m : Memory} (h : m.wf = true) {i : Nat} (hi : i < m.len) (v : Octet) :
    (m.write i v).wf = true :=
  cellsOk_storeCell h (Nat.zero_le i) hi v

/-- Reading after a zero fill (42_unpack.md R143): 0 below `n`, and every other byte as before. -/
theorem Memory.read_zeroFill (m : Memory) (n j : Nat) :
    (m.zeroFill n).read j = if j < n then 0x00 else m.read j :=
  lookupCell_filter m.cells n j

/-- A zero fill keeps the canonical form. -/
theorem Memory.wf_zeroFill {m : Memory} (h : m.wf = true) (n : Nat) : (m.zeroFill n).wf = true :=
  cellsOk_filter h n

/-- A byte the canonical form lists is below the length. -/
theorem cellsOk_lt {len lo : Nat} {cells : List Host.Cell} (h : cellsOk len lo cells = true) {c : Host.Cell}
    (hc : c ∈ cells) : c.1 < len := by
  induction cells generalizing lo with
  | nil => cases hc
  | cons d rest ih =>
    simp only [cellsOk, Bool.and_eq_true, decide_eq_true_eq] at h
    rcases List.mem_cons.mp hc with rfl | hr
    · exact h.1.2.1
    · exact ih h.2 hr

/-- Everything `MemWrite` can do (20_memory.md R47). -/
theorem memWrite_eq_some {m n : Memory} {i : Nat} {v : Octet} (h : memWrite m i v = some n) :
    i < m.len ∧ n = m.write i v := by
  simp only [memWrite] at h
  split at h
  · rename_i hi
    exact ⟨hi, by simpa using h.symm⟩
  · cases h

/-- Everything `MemRead` can do (20_memory.md R46). -/
theorem memRead_eq_some {m : Memory} {i : Nat} {v : Octet} (h : memRead m i = some v) :
    i < m.len ∧ v = m.read i := by
  simp only [memRead] at h
  split at h
  · rename_i hi
    exact ⟨hi, by simpa using h.symm⟩
  · cases h

theorem memWrite_of_lt {m : Memory} {i : Nat} (h : i < m.len) (v : Octet) :
    memWrite m i v = some (m.write i v) := by simp [memWrite, h]

theorem memRead_of_lt {m : Memory} {i : Nat} (h : i < m.len) : memRead m i = some (m.read i) := by
  simp [memRead, h]

/-- Writing a run of bytes from index `k` on. -/
theorem foldl_write {bs : List Octet} {k : Nat} {m : Memory} (h : m.wf = true) (hl : k + bs.length ≤ m.len) :
    let n := (bs.zipIdx k).foldl (fun m p => m.write p.2 p.1) m
    n.wf = true ∧ n.len = m.len ∧
      ∀ j, n.read j = if k ≤ j ∧ j < k + bs.length then bs.getD (j - k) 0 else m.read j := by
  induction bs generalizing k m with
  | nil => exact ⟨h, rfl, fun j => (if_neg (by simp)).symm⟩
  | cons b rest ih =>
    simp only [List.length_cons] at hl
    have hk : k < m.len := by omega
    obtain ⟨h1, h2, h3⟩ := ih (k := k + 1) (m := m.write k b) (Memory.wf_write h hk b) (by simp; omega)
    refine ⟨h1, h2, fun j => ?_⟩
    have := h3 j
    simp only [List.zipIdx_cons, List.foldl_cons, List.length_cons] at this ⊢
    rw [this, Memory.read_write h]
    by_cases hj : j = k
    · subst hj
      rw [if_neg (by omega), if_pos rfl, if_pos (by omega)]
      simp
    · by_cases hin : k + 1 ≤ j ∧ j < k + 1 + rest.length
      · rw [if_pos hin, if_pos (by omega), show j - k = (j - (k + 1)) + 1 by omega]
        simp
      · rw [if_neg hin, if_neg hj, if_neg (by omega)]

/-- A buffer made of bytes: canonical, of their number, each read at its index. -/
theorem Memory.ofBytes_spec (bs : List Octet) :
    (Memory.ofBytes bs).wf = true ∧ (Memory.ofBytes bs).len = bs.length ∧
      ∀ j, j < bs.length → (Memory.ofBytes bs).read j = bs.getD j 0 := by
  obtain ⟨h1, h2, h3⟩ := foldl_write (bs := bs) (k := 0) (m := { len := bs.length, cells := [] }) rfl (by simp)
  refine ⟨h1, h2, fun j hj => (h3 j).trans ?_⟩
  rw [if_pos (by omega), Nat.sub_zero]

/-- The zero fill is the loop of writes the spec gives (42_unpack.md R143), byte for byte. -/
theorem Memory.zeroFill_eq_writes {m : Memory} (h : m.wf = true) (n : Nat) (hn : n ≤ m.len) (j : Nat) :
    (m.zeroFill n).read j =
      (((List.replicate n (0x00 : Octet)).zipIdx).foldl (fun m p => m.write p.2 p.1) m).read j := by
  obtain ⟨_, _, h3⟩ := foldl_write (bs := List.replicate n (0x00 : Octet)) (k := 0) h (by simpa using hn)
  rw [h3 j, Memory.read_zeroFill]
  by_cases hj : j < n
  · simp [hj, List.getD_eq_getElem?_getD]
  · simp [hj]

end Sys2Proof.Machine
end

