-- ==== Sys2Proof/Laws/Streams.lean ====
section
/-! SUPPORT. Everything the two stream accesses can do (20_memory.md R43, R45), said once. -/

namespace Sys2Proof.Machine

/-- A read that delivers: the octet at `ipos`, which advances by one. -/
theorem srcRead_delivered {s s' : State} {o : Octet} (h : srcRead s = .delivered o s') :
    s.src[s.ipos]? = some o ∧ ∃ rest, s' = { s with ipos := s.ipos + 1, srcAnswers := rest } := by
  have aux : ∀ rest, srcDeliver rest s = .delivered o s' →
      s.src[s.ipos]? = some o ∧ ∃ rest, s' = { s with ipos := s.ipos + 1, srcAnswers := rest } := by
    intro rest h
    unfold srcDeliver at h
    split at h
    · rename_i o' ho
      injection h with h1 h2
      exact ⟨h1 ▸ ho, rest, h2.symm⟩
    · cases h
  unfold srcRead at h
  split at h
  · exact aux _ h
  · exact aux _ h
  · cases h
  · cases h

/-- A read that fails: nothing moves, and at the end of the stream the cause is `EOS`. -/
theorem srcRead_failed {s s' : State} {c : IoCause} (h : srcRead s = .failed c s') :
    (s.src.length ≤ s.ipos → c = .eos) ∧ ∃ rest, s' = { s with srcAnswers := rest } := by
  have aux : ∀ rest, srcDeliver rest s = .failed c s' →
      (s.src.length ≤ s.ipos → c = .eos) ∧ ∃ rest, s' = { s with srcAnswers := rest } := by
    intro rest h
    unfold srcDeliver at h
    split at h
    · cases h
    · injection h with h1 h2
      exact ⟨fun _ => h1.symm, rest, h2.symm⟩
  unfold srcRead at h
  split at h
  · exact aux _ h
  · exact aux _ h
  · rename_i c' rest hc
    injection h with h1 h2
    refine ⟨fun hl => ?_, rest, h2.symm⟩
    rw [← h1, if_neg (by omega)]
  · cases h

/-- A read is unanswered exactly where the environment's script says so. -/
theorem srcRead_silent {s : State} : srcRead s = .silent ↔ ∃ rest, s.srcAnswers = .silent :: rest := by
  have aux : ∀ rest, srcDeliver rest s ≠ .silent := by
    intro rest h
    unfold srcDeliver at h
    split at h <;> cases h
  constructor
  · intro h
    unfold srcRead at h
    split at h
    · exact absurd h (aux _)
    · exact absurd h (aux _)
    · cases h
    · rename_i rest hr
      exact ⟨rest, hr⟩
  · rintro ⟨rest, h⟩
    simp [srcRead, h]

/-- A plain source delivers while octets are left. -/
theorem srcRead_plain_some {s : State} (hp : s.srcAnswers = []) {o : Octet} (ho : s.src[s.ipos]? = some o) :
    srcRead s = .delivered o { s with ipos := s.ipos + 1 } := by
  have : ({ s with ipos := s.ipos + 1 } : State) = { s with ipos := s.ipos + 1, srcAnswers := [] } := by
    rw [← hp]
  rw [this]
  simp [srcRead, hp, srcDeliver, ho]

/-- A plain source fails with `EOS` at its end. -/
theorem srcRead_plain_none {s : State} (hp : s.srcAnswers = []) (hl : s.src.length ≤ s.ipos) :
    srcRead s = .failed .eos s := by
  have : s.src[s.ipos]? = none := by simpa using hl
  have hs : ({ s with srcAnswers := [] } : State) = s := by rw [← hp]
  simp [srcRead, hp, srcDeliver, this, hs]

/-- A write that is accepted: the octet is appended. -/
theorem snkWrite_accepted {b : Octet} {s s' : State} (h : snkWrite b s = .accepted s') :
    ∃ rest, s' = { s with snk := s.snk ++ [b], snkAnswers := rest } := by
  unfold snkWrite at h
  split at h
  · rename_i hn
    injection h with h
    exact ⟨[], by rw [← h, ← hn]⟩
  · rename_i rest hn
    injection h with h
    exact ⟨rest, h.symm⟩
  · cases h
  · cases h

/-- A write that fails: the sink is unchanged. -/
theorem snkWrite_failed {b : Octet} {s s' : State} {c : IoCause} (h : snkWrite b s = .failed c s') :
    ∃ rest, s' = { s with snkAnswers := rest } := by
  unfold snkWrite at h
  split at h
  · cases h
  · cases h
  · rename_i c' rest hn
    injection h with h1 h2
    exact ⟨rest, h2.symm⟩
  · cases h

/-- A write is unanswered exactly where the environment's script says so. -/
theorem snkWrite_silent {b : Octet} {s : State} :
    snkWrite b s = .silent ↔ ∃ rest, s.snkAnswers = .silent :: rest := by
  constructor
  · intro h
    unfold snkWrite at h
    split at h
    · cases h
    · cases h
    · cases h
    · rename_i rest hr
      exact ⟨rest, hr⟩
  · rintro ⟨rest, h⟩
    simp [snkWrite, h]

/-- A plain sink accepts every write. -/
theorem snkWrite_plain {b : Octet} {s : State} (hp : s.snkAnswers = []) :
    snkWrite b s = .accepted { s with snk := s.snk ++ [b] } := by
  simp [snkWrite, hp]

end Sys2Proof.Machine
end

