-- ==== Sys2Proof/Laws/Reading.lean ====
section
/-! SUPPORT. What the reading half can do: one octet at each field, one row of pixels, and the read loop with its
two induction principles. -/

namespace Sys2Proof.Machine

/-! ## One octet -/

/-- An octet at the TypeField (41_header.md R122). -/
theorem receive_typeField {s : State} {d : HeaderDest} (h : s.activity = .reading (.typeField d)) (o : Octet) :
    receive (decodeOctet .typeField o) s =
      .next (if o = 0x00 then s.setActivity (.reading (.fixHeader d)) else raise (.unsupportedType o) s) := by
  simp only [decodeOctet]
  split
  · simp [receive, execTypeOk, h]
  · rename_i ho
    simp only [receive, execTypeBad, h, if_neg ho]

/-- An octet at the FixHeaderField (41_header.md R123). -/
theorem receive_fixHeader {s : State} {d : HeaderDest} (h : s.activity = .reading (.fixHeader d)) (o : Octet) :
    receive (decodeOctet .fixHeader o) s =
      .next (if o.getLsbD 7 then raise .unsupportedHeaders s
        else { s with acc := 0, activity := .reading (.width d) }) := by
  simp only [decodeOctet]
  split <;> simp [receive, execFixhdrOk, execFixhdrExt, h]

/-- An octet at Width (40_vle.md R101, 41_header.md R121). -/
theorem receive_width {s : State} {d : HeaderDest} (h : s.activity = .reading (.width d)) (o : Octet) :
    receive (decodeOctet .width o) s =
      .next (if o.getLsbD 7 then { s with acc := vleAccumulate s.acc (o.extractLsb' 0 7) }
        else { s with acc := 0, activity := .reading (.height d (vleAccumulate s.acc (o.extractLsb' 0 7))) }) := by
  simp only [decodeOctet]
  split <;> simp [receive, execVleCont, execVleLast, h]

/-- An octet at Height (40_vle.md R101, 41_header.md R121). -/
theorem receive_height {s : State} {d : HeaderDest} {w : Dim} (h : s.activity = .reading (.height d w)) (o : Octet) :
    receive (decodeOctet .height o) s =
      .next (if o.getLsbD 7 then { s with acc := vleAccumulate s.acc (o.extractLsb' 0 7) }
        else headerDone d w (vleAccumulate s.acc (o.extractLsb' 0 7)) s) := by
  simp only [decodeOctet]
  split <;> simp [receive, execVleCont, execVleLast, h]

/-- An octet of a `VLDEC` (40_vle.md R101). -/
theorem receive_value {s : State} (h : s.activity = .reading .value) (o : Octet) :
    receive (decodeOctet .value o) s =
      .next (if o.getLsbD 7 then { s with acc := vleAccumulate s.acc (o.extractLsb' 0 7) }
        else succeed (vleAccumulate s.acc (o.extractLsb' 0 7)) 0 s) := by
  simp only [decodeOctet]
  split <;> simp [receive, execVleCont, execVleLast, h]

/-- An octet of pixel data before the last of its row goes to `ROWBUF` (42_unpack.md R144). -/
theorem receive_pixel_part {s : State} {w h : Dim} (ha : s.activity = .reading (.pixelRow w h)) (o : Octet)
    (hr : s.rowbuf.length + 1 < rowOctets w) :
    receive (decodeOctet .pixelData o) s = .next { s with rowbuf := s.rowbuf ++ [o] } := by
  simp [decodeOctet, receive, execPixoct, ha, show ¬ rowOctets w ≤ s.rowbuf.length + 1 by omega]

/-- The last octet of a row has the row inspected (42_unpack.md R144, R145). -/
theorem receive_pixel_last {s : State} {w h : Dim} (ha : s.activity = .reading (.pixelRow w h)) (o : Octet)
    (hr : rowOctets w ≤ s.rowbuf.length + 1) :
    receive (decodeOctet .pixelData o) s =
      andThen (inspectRow w { s with rowbuf := s.rowbuf ++ [o] }) (fun t => .next (rowDone h t)) := by
  simp [decodeOctet, receive, execPixoct, ha, hr]

/-! ## One row -/

/-- A 32-bit counter below a bound advances without wrap. -/
theorem toNat_succ_of_lt {c w : Dim} (h : c.toNat < w.toNat) : (c + 1).toNat = c.toNat + 1 := by
  have h1 : (1 : Dim).toNat = 1 := rfl
  have := w.isLt
  rw [BitVec.toNat_add, h1, Nat.mod_eq_of_lt (by omega)]

/-- One inspected bit: everything it can do (42_unpack.md R145, R146). -/
theorem inspectBit_eq {w : Dim} {bit : Bool} {s : State}
    (hl : s.col ≠ w → pixelIndex w s.row s.col < s.pix.len) :
    inspectBit w bit s = .next
      (if s.col = w then s
       else { s with
              pix := if bit then s.pix.write (pixelIndex w s.row s.col) Config.white else s.pix
              col := s.col + 1 }) := by
  unfold inspectBit
  by_cases hc : s.col = w
  · simp [hc]
  · cases bit
    · simp [hc]
    · simp [hc, memWrite_of_lt (hl hc)]

/-- A run of inspected bits, from column `COL` on: it cannot fault while the row lies in the buffer; only `PIX` and
`COL` change; `COL` advances by the bits up to the row's end; a byte becomes `0xFF` exactly where a bit of 1
stands at its column, and every other byte reads as before (42_unpack.md R145, R146; 10_state.md R28). -/
theorem inspectBits_spec {w : Dim} {bits : List Bool} {s : State} (hwf : s.pix.wf = true)
    (hcol : s.col.toNat ≤ w.toNat) (hrow : s.row.toNat * w.toNat + w.toNat ≤ s.pix.len) :
    ∃ m c, inspectBits w bits s = .next { s with pix := m, col := c } ∧ m.wf = true ∧ m.len = s.pix.len ∧
      c.toNat = min w.toNat (s.col.toNat + bits.length) ∧
      ∀ j, m.read j =
        if s.row.toNat * w.toNat + s.col.toNat ≤ j ∧ j < s.row.toNat * w.toNat + c.toNat ∧
            bits.getD (j - (s.row.toNat * w.toNat + s.col.toNat)) false = true
        then Config.white else s.pix.read j := by
  induction bits generalizing s with
  | nil =>
    refine ⟨s.pix, s.col, rfl, hwf, rfl, by simp; omega, fun j => ?_⟩
    rw [if_neg (by simp)]
  | cons bit rest ih =>
    have hlt : s.col ≠ w → s.col.toNat < w.toNat := fun h => by
      rcases Nat.lt_or_eq_of_le hcol with h' | h'
      · exact h'
      · exact absurd (BitVec.eq_of_toNat_eq h') h
    have hone := inspectBit_eq (w := w) (bit := bit) (s := s)
      (fun h => by have := hlt h; simp only [pixelIndex]; omega)
    by_cases hc : s.col = w
    · simp only [hc, if_true] at hone
      obtain ⟨m, c, h1, h2, h3, h4, h5⟩ := ih hwf hcol hrow
      have hcw : c.toNat = w.toNat := by rw [h4, hc]; omega
      refine ⟨m, c, by simp [inspectBits, hone, h1], h2, h3, by rw [hcw, hc]; simp, fun j => ?_⟩
      rw [h5 j, if_neg (by rw [hc]; omega), if_neg (by rw [hc]; omega)]
    · have hlt := hlt hc
      simp only [hc, if_false] at hone
      have hc1 : (s.col + 1).toNat = s.col.toNat + 1 := toNat_succ_of_lt hlt
      have hidx : pixelIndex w s.row s.col < s.pix.len := by simp only [pixelIndex]; omega
      obtain ⟨m, c, h1, h2, h3, h4, h5⟩ := ih
        (s := { s with
                pix := if bit then s.pix.write (pixelIndex w s.row s.col) Config.white else s.pix
                col := s.col + 1 })
        (by cases bit
            · exact hwf
            · exact Memory.wf_write hwf hidx _)
        (by show (s.col + 1).toNat ≤ _; omega)
        (by cases bit <;> simpa using hrow)
      simp only [hc1] at h4 h5
      refine ⟨m, c, ?_, h2, ?_, by rw [h4, List.length_cons]; omega, fun j => ?_⟩
      · rw [inspectBits, hone, andThen_next, h1]
      · rw [h3]; cases bit <;> rfl
      · rw [h5 j]
        simp only [pixelIndex]
        generalize s.row.toNat * w.toNat = base at *
        by_cases hj : j = base + s.col.toNat
        · subst hj
          rw [if_neg (by omega)]
          cases bit
          · simp
          · rw [if_pos rfl, Memory.read_write hwf]
            have : base + s.col.toNat < base + c.toNat := by omega
            simp [this]
        · have hread : (if bit = true then s.pix.write (base + s.col.toNat) Config.white else s.pix).read j =
              s.pix.read j := by
            cases bit
            · rfl
            · rw [if_pos rfl, Memory.read_write hwf, if_neg hj]
          rw [hread]
          congr 1
          simp only [eq_iff_iff]
          constructor
          · rintro ⟨a, b, e⟩
            refine ⟨by omega, b, ?_⟩
            rw [show j - (base + s.col.toNat) = (j - (base + (s.col.toNat + 1))) + 1 by omega]
            simpa using e
          · rintro ⟨a, b, e⟩
            refine ⟨by omega, b, ?_⟩
            rw [show j - (base + s.col.toNat) = (j - (base + (s.col.toNat + 1))) + 1 by omega] at e
            simpa using e

/-- Bit `c` of the octets of a row, bit 7 of each octet first (42_unpack.md R145, R150). -/
theorem flatMap_octetBits_getD (os : List Octet) (c : Nat) :
    (os.flatMap octetBits).getD c false = (os.getD (c / 8) 0).getLsbD (7 - c % 8) := by
  induction os generalizing c with
  | nil => simp
  | cons o rest ih =>
    by_cases hc : c < 8
    · interval_cases c <;> rfl
    · obtain ⟨k, rfl⟩ : ∃ k, c = k + 8 := ⟨c - 8, by omega⟩
      have := ih k
      rw [show (k + 8) / 8 = k / 8 + 1 by omega, show (k + 8) % 8 = k % 8 by omega]
      simpa [octetBits] using this

/-- The bits of a row are 8 an octet. -/
theorem flatMap_octetBits_length (os : List Octet) : (os.flatMap octetBits).length = 8 * os.length := by
  induction os with
  | nil => rfl
  | cons o rest ih => simp [List.flatMap_cons, octetBits, ih]; omega

/-- Everything the inspection of a whole row can do: with the row in the buffer it answers, changes only `PIX` and
`COL`, and writes `0xFF` exactly at the columns below `w` whose bit is 1 (42_unpack.md R145, R146, R150). -/
theorem inspectRow_spec {w : Dim} {s : State} (hwf : s.pix.wf = true)
    (hrow : s.row.toNat * w.toNat + w.toNat ≤ s.pix.len) (hfull : rowOctets w ≤ s.rowbuf.length) :
    ∃ m, inspectRow w s = .next { s with pix := m, col := w } ∧ m.wf = true ∧ m.len = s.pix.len ∧
      ∀ j, m.read j =
        if s.row.toNat * w.toNat ≤ j ∧ j < s.row.toNat * w.toNat + w.toNat ∧
            (s.rowbuf.getD ((j - s.row.toNat * w.toNat) / 8) 0).getLsbD (7 - (j - s.row.toNat * w.toNat) % 8) = true
        then Config.white else s.pix.read j := by
  obtain ⟨m, c, h1, h2, h3, h4, h5⟩ := inspectBits_spec (w := w) (bits := s.rowbuf.flatMap octetBits)
    (s := { s with col := 0 }) hwf (by simp) hrow
  have hz : (0 : Dim).toNat = 0 := rfl
  simp only [hz, Nat.zero_add, Nat.add_zero] at h4 h5
  have hc : c = w := by
    apply BitVec.eq_of_toNat_eq
    rw [h4, flatMap_octetBits_length]
    simp only [rowOctets] at hfull
    omega
  subst hc
  refine ⟨m, h1, h2, h3, fun j => ?_⟩
  rw [h5 j, flatMap_octetBits_getD]

/-! ## Frames -/

/-- What no read, octet or row changes: the parameters, `THR`, the command port, the source's octets, the sink and
`SMP`. -/
def ReadFrame (s t : State) : Prop :=
  t.cfg = s.cfg ∧ t.thr = s.thr ∧ t.cmds = s.cmds ∧ t.src = s.src ∧ t.snk = s.snk ∧
  t.snkAnswers = s.snkAnswers ∧ t.smp = s.smp

theorem ReadFrame.refl (s : State) : ReadFrame s s := ⟨rfl, rfl, rfl, rfl, rfl, rfl, rfl⟩

theorem ReadFrame.trans {s t u : State} (h : ReadFrame s t) (k : ReadFrame t u) : ReadFrame s u := by
  obtain ⟨a1, a2, a3, a4, a5, a6, a7⟩ := h
  obtain ⟨b1, b2, b3, b4, b5, b6, b7⟩ := k
  exact ⟨b1.trans a1, b2.trans a2, b3.trans a3, b4.trans a4, b5.trans a5, b6.trans a6, b7.trans a7⟩

/-- Inspected bits change `PIX` and `COL` only. -/
theorem inspectBits_frame {w : Dim} {bits : List Bool} {s t : State} (h : inspectBits w bits s = .next t) :
    ∃ m c, t = { s with pix := m, col := c } := by
  induction bits generalizing s with
  | nil => cases h; exact ⟨t.pix, t.col, rfl⟩
  | cons bit rest ih =>
    obtain ⟨u, hu, ht⟩ := andThen_eq_next h
    obtain ⟨m, c, rfl⟩ := ih ht
    unfold inspectBit at hu
    split at hu
    · cases hu; exact ⟨m, c, rfl⟩
    · split at hu
      · split at hu
        · cases hu; exact ⟨m, c, rfl⟩
        · cases hu
      · cases hu; exact ⟨m, c, rfl⟩

/-- Everything an octet leaves alone: no stream, no `THR`, no `SMP`; and the block does not begin to write. -/
theorem receive_frame {c : OctetClass} {s t : State} (h : receive c s = .next t) :
    ReadFrame s t ∧ t.ipos = s.ipos ∧ t.srcAnswers = s.srcAnswers ∧ ∀ w, t.activity ≠ .writing w := by
  have hdone : ∀ d w h, ReadFrame s (headerDone d w h s) ∧ (headerDone d w h s).ipos = s.ipos ∧
      (headerDone d w h s).srcAnswers = s.srcAnswers ∧ ∀ v, (headerDone d w h s).activity ≠ .writing v := by
    intro d w h
    cases d <;> exact ⟨⟨rfl, rfl, rfl, rfl, rfl, rfl, rfl⟩, rfl, rfl, fun v hv => by cases hv⟩
  cases c <;> simp only [receive, execTypeOk, execTypeBad, execFixhdrOk, execFixhdrExt, execVleCont, execVleLast,
    execPixoct] at h
  case typeOk => split at h <;> cases h; exact ⟨⟨rfl, rfl, rfl, rfl, rfl, rfl, rfl⟩, rfl, rfl, by simp⟩
  case typeBad =>
    split at h
    · split at h <;> cases h; exact ⟨⟨rfl, rfl, rfl, rfl, rfl, rfl, rfl⟩, rfl, rfl, by simp⟩
    · cases h
  case fixhdrOk => split at h <;> cases h; exact ⟨⟨rfl, rfl, rfl, rfl, rfl, rfl, rfl⟩, rfl, rfl, by simp⟩
  case fixhdrExt => split at h <;> cases h; exact ⟨⟨rfl, rfl, rfl, rfl, rfl, rfl, rfl⟩, rfl, rfl, by simp⟩
  case vleCont =>
    split at h <;> cases h <;> rename_i hs <;>
      exact ⟨⟨rfl, rfl, rfl, rfl, rfl, rfl, rfl⟩, rfl, rfl, by simp [hs]⟩
  case vleLast =>
    split at h <;> cases h
    · exact ⟨⟨rfl, rfl, rfl, rfl, rfl, rfl, rfl⟩, rfl, rfl, by simp⟩
    · exact hdone _ _ _
    · exact ⟨⟨rfl, rfl, rfl, rfl, rfl, rfl, rfl⟩, rfl, rfl, by simp⟩
  case pixoct =>
    split at h
    · rename_i hs
      split at h
      · obtain ⟨u, hu, ht⟩ := andThen_eq_next h
        obtain ⟨m, c, rfl⟩ := inspectBits_frame hu
        cases ht
        unfold rowDone
        split
        · exact ⟨⟨rfl, rfl, rfl, rfl, rfl, rfl, rfl⟩, rfl, rfl, by simp⟩
        · exact ⟨⟨rfl, rfl, rfl, rfl, rfl, rfl, rfl⟩, rfl, rfl, by simp [hs]⟩
      · cases h
        exact ⟨⟨rfl, rfl, rfl, rfl, rfl, rfl, rfl⟩, rfl, rfl, by simp [hs]⟩
    · cases h

/-! ## The read loop -/

/-- Nothing is read outside a reading operation. -/
theorem readLoop_not_reading {s : State} (h : ∀ r, s.activity ≠ .reading r) (n : Nat) : readLoop n s = .next s := by
  cases n with
  | zero => rfl
  | succ n =>
    unfold readLoop
    split
    · rename_i r hr
      exact absurd hr (h r)
    · rfl

@[simp] theorem readLoop_finish (n : Nat) (r : Result) (s : State) : readLoop n (finish r s) = .next (finish r s) :=
  readLoop_not_reading (fun _ h => by cases h) n

@[simp] theorem readLoop_succeed (n : Nat) (a b : Dim) (s : State) :
    readLoop n (succeed a b s) = .next (succeed a b s) := readLoop_finish n _ s

@[simp] theorem readLoop_raise (n : Nat) (e : Err) (s : State) : readLoop n (raise e s) = .next (raise e s) :=
  readLoop_finish n _ s

/-- One delivered octet of the loop. -/
theorem readLoop_delivered {s s' : State} {r : Reader} {o : Octet} (hr : s.activity = .reading r)
    (hd : srcRead s = .delivered o s') (n : Nat) :
    readLoop (n + 1) s = andThen (receive (decodeOctet r.field o) s') (readLoop n) := by
  simp [readLoop, hr, hd]

/-- One failed read of the loop. -/
theorem readLoop_failed {s s' : State} {r : Reader} {c : IoCause} (hr : s.activity = .reading r)
    (hd : srcRead s = .failed c s') (n : Nat) : readLoop (n + 1) s = .next (raise (.ioError c) s') := by
  simp [readLoop, hr, hd]

/-- One unanswered read of the loop. -/
theorem readLoop_silent {s : State} {r : Reader} (hr : s.activity = .reading r) (hd : srcRead s = .silent)
    (n : Nat) : readLoop (n + 1) s = .next s := by
  simp [readLoop, hr, hd]

/-- A property that every read and every octet keep, with an octet always answering, holds where the loop ends. -/
theorem readLoop_total {P : State → Prop}
    (hfail : ∀ s r c s', P s → s.activity = .reading r → srcRead s = .failed c s' → P (raise (.ioError c) s'))
    (hstep : ∀ s r o s', P s → s.activity = .reading r → srcRead s = .delivered o s' →
      ∃ t, receive (decodeOctet r.field o) s' = .next t ∧ P t)
    (n : Nat) (s : State) (h : P s) : ∃ t, readLoop n s = .next t ∧ P t := by
  induction n generalizing s with
  | zero => exact ⟨s, rfl, h⟩
  | succ n ih =>
    unfold readLoop
    split
    · rename_i r hr
      split
      · exact ⟨s, rfl, h⟩
      · rename_i c s' hd
        exact ⟨_, rfl, hfail s r c s' h hr hd⟩
      · rename_i o s' hd
        obtain ⟨t, ht, hP⟩ := hstep s r o s' h hr hd
        obtain ⟨u, hu, hP'⟩ := ih t hP
        exact ⟨u, by rw [ht, andThen_next, hu], hP'⟩
    · exact ⟨s, rfl, h⟩

/-- A property that every read and every octet keep holds of the state the loop answers. -/
theorem readLoop_induct {P : State → Prop}
    (hfail : ∀ s r c s', P s → s.activity = .reading r → srcRead s = .failed c s' → P (raise (.ioError c) s'))
    (hstep : ∀ s r o s' t, P s → s.activity = .reading r → srcRead s = .delivered o s' →
      receive (decodeOctet r.field o) s' = .next t → P t)
    {n : Nat} {s t : State} (h : P s) (ht : readLoop n s = .next t) : P t := by
  induction n generalizing s with
  | zero => cases ht; exact h
  | succ n ih =>
    unfold readLoop at ht
    split at ht
    · rename_i r hr
      split at ht
      · cases ht; exact h
      · rename_i c s' hd
        cases ht; exact hfail s r c s' h hr hd
      · rename_i o s' hd
        obtain ⟨u, hu, ht'⟩ := andThen_eq_next ht
        exact ih (hstep s r o s' u h hr hd hu) ht'
    · cases ht; exact h

/-- Everything the read loop leaves alone; the position never goes back (10_state.md R29). -/
theorem readLoop_frame {n : Nat} {s t : State} (h : readLoop n s = .next t) :
    ReadFrame s t ∧ s.ipos ≤ t.ipos := by
  refine readLoop_induct (P := fun u => ReadFrame s u ∧ s.ipos ≤ u.ipos) ?_ ?_ ⟨ReadFrame.refl s, Nat.le_refl _⟩ h
  · rintro u r c u' ⟨hf, hi⟩ _ hd
    obtain ⟨_, rest, rfl⟩ := srcRead_failed hd
    exact ⟨hf.trans ⟨rfl, rfl, rfl, rfl, rfl, rfl, rfl⟩, hi⟩
  · rintro u r o u' v ⟨hf, hi⟩ _ hd hv
    obtain ⟨_, rest, rfl⟩ := srcRead_delivered hd
    obtain ⟨hr, hp, _, _⟩ := receive_frame hv
    refine ⟨hf.trans (ReadFrame.trans ⟨rfl, rfl, rfl, rfl, rfl, rfl, rfl⟩ hr), ?_⟩
    rw [hp]
    exact Nat.le_succ_of_le hi

/-- With a count above the octets left the loop ends the operation or stops at an unanswered read
(20_memory.md R41, R48). -/
theorem readLoop_settles {n : Nat} {s t : State} (hw : ∀ w, s.activity ≠ .writing w) (hn : s.srcLeft < n)
    (h : readLoop n s = .next t) :
    t.activity = .idle ∨ (∃ r, t.activity = .reading r) ∧ ∃ rest, t.srcAnswers = .silent :: rest := by
  induction n generalizing s with
  | zero => omega
  | succ n ih =>
    unfold readLoop at h
    split at h
    · rename_i r hr
      split at h
      · rename_i hd
        cases h
        exact .inr ⟨⟨r, hr⟩, srcRead_silent.mp hd⟩
      · cases h
        exact .inl rfl
      · rename_i o s' hd
        obtain ⟨ho, rest, rfl⟩ := srcRead_delivered hd
        obtain ⟨u, hu, ht⟩ := andThen_eq_next h
        obtain ⟨hf, hp, _, hw'⟩ := receive_frame hu
        have hlt : s.ipos < s.src.length := (List.getElem?_eq_some_iff.mp ho).1
        refine ih hw' ?_ ht
        have hsrc : u.src = s.src := hf.2.2.2.1
        simp only [State.srcLeft, hp, hsrc] at hn ⊢
        omega
    · rename_i hr
      cases h
      cases ha : t.activity with
      | idle => exact .inl rfl
      | reading r => exact absurd ha (hr r)
      | writing w => exact absurd ha (hw w)

/-! ## Variable-length integers -/

/-- One accumulation is arithmetic modulo `2 ^ 32` (30_encoding.md R74). -/
theorem vleAccumulate_toNat (acc : Dim) (g : BitVec 7) :
    (vleAccumulate acc g).toNat = (acc.toNat * 128 + g.toNat) % 2 ^ 32 := by
  have hg := g.isLt
  have h2 : g.toNat % 2 ^ 32 = g.toNat := Nat.mod_eq_of_lt (by omega)
  rw [vleAccumulate, BitVec.toNat_or, BitVec.toNat_shiftLeft, BitVec.toNat_setWidth, h2]
  conv_lhs => rw [← h2, ← Nat.or_mod_two_pow]
  rw [← Nat.shiftLeft_add_eq_or_of_lt (by omega), Nat.shiftLeft_eq]

/-- The low 7 bits of an octet as a number. -/
theorem group_toNat (o : Octet) : (o.extractLsb' 0 7).toNat = o.toNat % 128 := by
  simp [BitVec.extractLsb'_toNat]

/-- Accumulating the groups of some octets gives their sum modulo `2 ^ 32` (30_encoding.md R74). -/
theorem foldl_vleAccumulate (os : List Octet) (acc : Dim) (n : Nat) (h : acc.toNat = n % 2 ^ 32) :
    (os.foldl (fun a o => vleAccumulate a (o.extractLsb' 0 7)) acc).toNat =
      os.foldl (fun a o => a * 128 + o.toNat % 128) n % 2 ^ 32 := by
  induction os generalizing acc n with
  | nil => simpa using h
  | cons o rest ih =>
    refine ih _ _ ?_
    show _ = (n * 128 + o.toNat % 128) % 2 ^ 32
    rw [vleAccumulate_toNat, group_toNat, h]
    omega

/-- The positions of a stream at which a list of octets stands. -/
theorem getElem?_of_drop {l : List Octet} {k : Nat} {o : Octet} {rest : List Octet} (h : l.drop k = o :: rest) :
    l[k]? = some o ∧ l.drop (k + 1) = rest := by
  refine ⟨?_, ?_⟩
  · have := List.getElem?_drop (xs := l) (i := k) (j := 0)
    rw [h] at this
    simpa using this.symm
  · rw [← List.drop_drop, h]
    rfl

/-- A plain source delivers the next octet of what is left. -/
theorem srcRead_plain_cons {s : State} (hp : s.srcAnswers = []) {o : Octet} {rest : List Octet}
    (h : s.src.drop s.ipos = o :: rest) : srcRead s = .delivered o { s with ipos := s.ipos + 1 } :=
  srcRead_plain_some hp (getElem?_of_drop h).1

/-- The reader stands at an integer: Width, Height or the value of a `VLDEC`. -/
def Reader.atInteger : Reader → Bool
  | .width _ | .height _ _ | .value => true
  | .typeField _ | .fixHeader _ | .pixelRow _ _ => false

/-- An octet with bit 7 set at an integer accumulates its group (40_vle.md R101). -/
theorem receive_cont {s : State} {r : Reader} (hr : s.activity = .reading r) (hi : r.atInteger = true) {o : Octet}
    (ho : o.getLsbD 7 = true) :
    receive (decodeOctet r.field o) s = .next { s with acc := vleAccumulate s.acc (o.extractLsb' 0 7) } := by
  cases r with
  | width d => exact (receive_width hr o).trans (by rw [if_pos ho])
  | height d w => exact (receive_height hr o).trans (by rw [if_pos ho])
  | value => exact (receive_value hr o).trans (by rw [if_pos ho])
  | typeField d => cases hi
  | fixHeader d => cases hi
  | pixelRow w h => cases hi

/-- A run of octets with bit 7 set is consumed and accumulated (40_vle.md R101). -/
theorem readLoop_conts {r : Reader} (hi : r.atInteger = true) (cs tail : List Octet)
    (hc : ∀ o ∈ cs, o.getLsbD 7 = true) (n : Nat) {s : State} (hr : s.activity = .reading r)
    (hp : s.srcAnswers = []) (hs : s.src.drop s.ipos = cs ++ tail) :
    readLoop (n + cs.length) s =
      readLoop n { s with
        ipos := s.ipos + cs.length
        acc := cs.foldl (fun a o => vleAccumulate a (o.extractLsb' 0 7)) s.acc } := by
  induction cs generalizing s with
  | nil => rfl
  | cons o rest ih =>
    have ho := getElem?_of_drop hs
    rw [List.length_cons, ← Nat.add_assoc, readLoop_delivered hr (srcRead_plain_cons hp hs),
      receive_cont (by exact hr) hi (hc o (by simp)), andThen_next,
      ih (fun x hx => hc x (List.mem_cons_of_mem _ hx))
        (s := { s with ipos := s.ipos + 1, acc := vleAccumulate s.acc (o.extractLsb' 0 7) }) hr hp ho.2]
    simp only [List.foldl_cons]
    rw [show s.ipos + 1 + rest.length = s.ipos + (rest.length + 1) by omega]

end Sys2Proof.Machine
end

