-- ==== Sys2Proof/Laws/Integers.lean ====
section
/-! SUPPORT. Reading one variable-length integer from a plain source, at each of the three places one is read
(40_vle.md R101). -/

namespace Sys2Proof.Machine

/-- The octets of one integer: octets with bit 7 set, then one with bit 7 clear (30_encoding.md R75). -/
theorem isVleInteger_split {os : List Octet} (h : isVleInteger os = true) :
    ∃ cs o, os = cs ++ [o] ∧ (∀ x ∈ cs, x.getLsbD 7 = true) ∧ o.getLsbD 7 = false := by
  induction os with
  | nil => cases h
  | cons o rest ih =>
    cases rest with
    | nil => exact ⟨[], o, rfl, by simp, by simpa [isVleInteger] using h⟩
    | cons p rest =>
      simp only [isVleInteger, Bool.and_eq_true] at h
      obtain ⟨cs, q, hq, hc, hl⟩ := ih h.2
      refine ⟨o :: cs, q, by rw [hq]; rfl, ?_, hl⟩
      intro x hx
      rcases List.mem_cons.mp hx with rfl | hx
      · exact h.1
      · exact hc x hx

/-- An octet with bit 7 set in front of an integer makes an integer (30_encoding.md R75). -/
theorem isVleInteger_cons {o : Octet} {os : List Octet} (ho : o.getLsbD 7 = true) (h : isVleInteger os = true) :
    isVleInteger (o :: os) = true := by
  cases os with
  | nil => cases h
  | cons p rest =>
    rw [isVleInteger, ho, h]
    · rfl
    · simp

/-- The accumulator after all octets of an integer, from 0, is its value (30_encoding.md R74). -/
theorem foldl_vleAccumulate_zero (os : List Octet) :
    os.foldl (fun a o => vleAccumulate a (o.extractLsb' 0 7)) 0 = vleValue os := by
  apply BitVec.eq_of_toNat_eq
  rw [foldl_vleAccumulate os 0 0 rfl, vleValue, BitVec.toNat_ofNat]

/-- The loop reads the octets of one integer and hands the last to its class with the others accumulated. -/
theorem readLoop_integer {r : Reader} (hi : r.atInteger = true) {os tail : List Octet} (ho : isVleInteger os = true)
    (n : Nat) {s : State} (hr : s.activity = .reading r) (hp : s.srcAnswers = [])
    (hs : s.src.drop s.ipos = os ++ tail) :
    ∃ o acc, o.getLsbD 7 = false ∧ (s.acc = 0 → vleAccumulate acc (o.extractLsb' 0 7) = vleValue os) ∧
      readLoop (n + os.length) s =
        andThen (receive (decodeOctet r.field o) { s with ipos := s.ipos + os.length, acc := acc }) (readLoop n) := by
  obtain ⟨cs, o, rfl, hc, hl⟩ := isVleInteger_split ho
  refine ⟨o, cs.foldl (fun a o => vleAccumulate a (o.extractLsb' 0 7)) s.acc, hl, ?_, ?_⟩
  · intro h0
    rw [h0, ← foldl_vleAccumulate_zero, List.foldl_append]
    rfl
  · rw [List.append_assoc] at hs
    have hd : s.src.drop (s.ipos + cs.length) = o :: tail := by
      rw [← List.drop_drop, hs, List.drop_left]
      rfl
    rw [List.length_append, List.length_singleton, show n + (cs.length + 1) = (n + 1) + cs.length by omega,
      readLoop_conts hi cs ([o] ++ tail) hc (n + 1) hr hp hs,
      readLoop_delivered (s := { s with
        ipos := s.ipos + cs.length
        acc := cs.foldl (fun a o => vleAccumulate a (o.extractLsb' 0 7)) s.acc }) hr
        (srcRead_plain_cons (by exact hp) (by exact hd))]
    rfl

/-- Width is read: Height is next (41_header.md R121). -/
theorem readLoop_width {d : HeaderDest} {os tail : List Octet} (ho : isVleInteger os = true) (n : Nat) {s : State}
    (hr : s.activity = .reading (.width d)) (h0 : s.acc = 0) (hp : s.srcAnswers = [])
    (hs : s.src.drop s.ipos = os ++ tail) :
    readLoop (n + os.length) s =
      readLoop n { s with
        ipos := s.ipos + os.length
        acc := 0
        activity := .reading (.height d (vleValue os)) } := by
  obtain ⟨o, acc, hl, hv, hrun⟩ := readLoop_integer rfl ho n hr hp hs
  rw [hrun, show (Reader.width d).field = .width from rfl, receive_width (by exact hr) o, andThen_next, if_neg (ne_true_of_eq_false hl)]
  show readLoop n { s with
    ipos := s.ipos + os.length
    acc := 0
    activity := .reading (.height d (vleAccumulate acc (o.extractLsb' 0 7))) } = _
  rw [hv h0]

/-- Height is read: the header is complete (41_header.md R121). -/
theorem readLoop_height {d : HeaderDest} {w : Dim} {os tail : List Octet} (ho : isVleInteger os = true) (n : Nat)
    {s : State} (hr : s.activity = .reading (.height d w)) (h0 : s.acc = 0) (hp : s.srcAnswers = [])
    (hs : s.src.drop s.ipos = os ++ tail) :
    readLoop (n + os.length) s = .next (headerDone d w (vleValue os) { s with ipos := s.ipos + os.length }) := by
  obtain ⟨o, acc, hl, hv, hrun⟩ := readLoop_integer rfl ho n hr hp hs
  rw [hrun, show (Reader.height d w).field = .height from rfl, receive_height (by exact hr) o, andThen_next,
    if_neg (ne_true_of_eq_false hl)]
  show readLoop n (headerDone d w (vleAccumulate acc (o.extractLsb' 0 7))
    { s with ipos := s.ipos + os.length, acc := acc }) = _
  rw [hv h0]
  cases d <;> exact readLoop_finish n _ _

/-- The value of a `VLDEC` is read (40_vle.md R101). -/
theorem readLoop_value {os tail : List Octet} (ho : isVleInteger os = true) (n : Nat)
    {s : State} (hr : s.activity = .reading .value) (h0 : s.acc = 0) (hp : s.srcAnswers = [])
    (hs : s.src.drop s.ipos = os ++ tail) :
    readLoop (n + os.length) s = .next (succeed (vleValue os) 0 { s with ipos := s.ipos + os.length }) := by
  obtain ⟨o, acc, hl, hv, hrun⟩ := readLoop_integer rfl ho n hr hp hs
  rw [hrun, show Reader.value.field = .value from rfl, receive_value (by exact hr) o, andThen_next,
    if_neg (ne_true_of_eq_false hl)]
  show readLoop n (succeed (vleAccumulate acc (o.extractLsb' 0 7)) 0
    { s with ipos := s.ipos + os.length, acc := acc }) = _
  rw [hv h0]
  exact readLoop_finish n _ _

/-- A whole header is read from a plain source (41_header.md R121). -/
theorem readLoop_header {d : HeaderDest} {f : Octet} {ws hs tail : List Octet} (hf : f.getLsbD 7 = false)
    (hws : isVleInteger ws = true) (hhs : isVleInteger hs = true) (n : Nat) {s : State}
    (hr : s.activity = .reading (.typeField d)) (hp : s.srcAnswers = [])
    (hsrc : s.src.drop s.ipos = 0x00 :: f :: (ws ++ (hs ++ tail))) :
    readLoop (n + (2 + ws.length + hs.length)) s =
      .next (headerDone d (vleValue ws) (vleValue hs)
        { s with ipos := s.ipos + (2 + ws.length + hs.length) }) := by
  obtain ⟨_, h1⟩ := getElem?_of_drop hsrc
  obtain ⟨_, h2⟩ := getElem?_of_drop h1
  have h3 : s.src.drop (s.ipos + 2 + ws.length) = hs ++ tail := by
    rw [← List.drop_drop, h2, List.drop_left]
  rw [show n + (2 + ws.length + hs.length) = (n + hs.length + ws.length) + 1 + 1 by omega,
    readLoop_delivered hr (srcRead_plain_cons hp hsrc), show (Reader.typeField d).field = .typeField from rfl,
    receive_typeField (by exact hr), if_pos rfl, andThen_next,
    readLoop_delivered (r := .fixHeader d) rfl (srcRead_plain_cons (by exact hp) (by exact h1)),
    show (Reader.fixHeader d).field = .fixHeader from rfl, receive_fixHeader (d := d) rfl,
    if_neg (ne_true_of_eq_false hf), andThen_next,
    readLoop_width hws (n + hs.length) (d := d) rfl rfl (by exact hp) (by exact h2),
    readLoop_height hhs n (d := d) (w := vleValue ws) rfl rfl (by exact hp) (by exact h3)]
  show Host.Outcome.next (headerDone d (vleValue ws) (vleValue hs)
    { s with ipos := s.ipos + 1 + 1 + ws.length + hs.length }) = _
  rw [show s.ipos + 1 + 1 + ws.length + hs.length = s.ipos + (2 + ws.length + hs.length) by omega]

/-- The octets left of a source that holds `os` from its position on. -/
theorem srcLeft_of_drop {s : State} {os : List Octet} (h : s.src.drop s.ipos = os) : s.srcLeft = os.length := by
  rw [← h, List.length_drop]
  rfl

/-- Octets with bit 7 set at an integer are accumulated, one answer of the script each (40_vle.md R101). -/
theorem readLoop_conts_script {r : Reader} (hi : r.atInteger = true) (cs tail : List Octet) (rest : List ReadAnswer)
    (hc : ∀ o ∈ cs, o.getLsbD 7 = true) (n : Nat) {s : State} (hr : s.activity = .reading r)
    (hp : s.srcAnswers = List.replicate cs.length .deliver ++ rest) (hs : s.src.drop s.ipos = cs ++ tail) :
    ∃ acc, readLoop (n + cs.length) s =
      readLoop n { s with ipos := s.ipos + cs.length, acc := acc, srcAnswers := rest } := by
  induction cs generalizing s with
  | nil =>
    refine ⟨s.acc, ?_⟩
    have hp' : s.srcAnswers = rest := hp
    rw [← hp']
    rfl
  | cons o cs ih =>
    obtain ⟨h1, h2⟩ := getElem?_of_drop hs
    have hd : srcRead s = .delivered o { s with
        ipos := s.ipos + 1, srcAnswers := List.replicate cs.length .deliver ++ rest } := by
      simp [srcRead, hp, srcDeliver, h1, List.replicate_succ]
    obtain ⟨acc, hacc⟩ := ih (fun x hx => hc x (List.mem_cons_of_mem _ hx))
      (s := { s with
        ipos := s.ipos + 1
        srcAnswers := List.replicate cs.length .deliver ++ rest
        acc := vleAccumulate s.acc (o.extractLsb' 0 7) }) hr rfl h2
    refine ⟨acc, ?_⟩
    rw [List.length_cons, ← Nat.add_assoc, readLoop_delivered hr hd,
      receive_cont (by exact hr) hi (hc o (List.mem_cons_self ..)), andThen_next]
    refine hacc.trans ?_
    rw [show s.ipos + (cs.length + 1) = s.ipos + 1 + cs.length by omega]

/-- Octets with bit 7 set up to the end of a plain source: `IoError(EOS)`, all consumed (40_vle.md R104). -/
theorem readLoop_unending {r : Reader} (hi : r.atInteger = true) (cs : List Octet)
    (hc : ∀ o ∈ cs, o.getLsbD 7 = true) (n : Nat) {s : State} (hr : s.activity = .reading r)
    (hp : s.srcAnswers = []) (hs : s.src.drop s.ipos = cs) :
    ∃ acc, readLoop (n + 1 + cs.length) s =
      .next (raise (.ioError .eos) { s with ipos := s.ipos + cs.length, acc := acc }) := by
  refine ⟨cs.foldl (fun a o => vleAccumulate a (o.extractLsb' 0 7)) s.acc, ?_⟩
  have hs' : s.src.drop s.ipos = cs ++ [] := by rw [hs, List.append_nil]
  have hend : s.src.length ≤ s.ipos + cs.length := by
    have := congrArg List.length hs
    rw [List.length_drop] at this
    omega
  rw [readLoop_conts hi cs [] hc (n + 1) hr hp hs']
  exact readLoop_failed (by exact hr) (srcRead_plain_none (by exact hp) hend) n

end Sys2Proof.Machine
end

