-- ==== Sys2Proof/Laws/Rows.lean ====
section
/-! SUPPORT. Reading rows of pixels from a plain source (42_unpack.md R144 to R146). -/

namespace Sys2Proof.Machine

/-- Octets of a row before its last go to `ROWBUF` (42_unpack.md R144). -/
theorem readLoop_rowPart {w h : Dim} (os tail : List Octet) (n : Nat) {s : State}
    (hr : s.activity = .reading (.pixelRow w h)) (hp : s.srcAnswers = []) (hs : s.src.drop s.ipos = os ++ tail)
    (hlt : s.rowbuf.length + os.length < rowOctets w) :
    readLoop (n + os.length) s =
      readLoop n { s with ipos := s.ipos + os.length, rowbuf := s.rowbuf ++ os } := by
  induction os generalizing s with
  | nil => simp
  | cons o rest ih =>
    have ho := getElem?_of_drop hs
    simp only [List.length_cons] at hlt
    rw [List.length_cons, ← Nat.add_assoc, readLoop_delivered hr (srcRead_plain_cons hp hs),
      show (Reader.pixelRow w h).field = .pixelData from rfl,
      receive_pixel_part (s := { s with ipos := s.ipos + 1 }) (by exact hr) o (by show s.rowbuf.length + 1 < _; omega),
      andThen_next,
      ih (s := { s with ipos := s.ipos + 1, rowbuf := s.rowbuf ++ [o] }) hr hp ho.2 (by simp; omega)]
    rw [show s.ipos + 1 + rest.length = s.ipos + (rest.length + 1) by omega, List.append_assoc]
    rfl

/-- One whole row: `PIX` gets `0xFF` where the row's bit is 1, nothing else changes in it (42_unpack.md R145, R146). -/
theorem readLoop_row {w h : Dim} {os tail : List Octet} (n : Nat) {s : State}
    (hr : s.activity = .reading (.pixelRow w h)) (hp : s.srcAnswers = []) (hs : s.src.drop s.ipos = os ++ tail)
    (hb : s.rowbuf = []) (hl : os.length = rowOctets w) (hw : 0 < w.toNat) (hwf : s.pix.wf = true)
    (hin : s.row.toNat * w.toNat + w.toNat ≤ s.pix.len) :
    ∃ m, readLoop (n + os.length) s =
        readLoop n (rowDone h { s with ipos := s.ipos + os.length, rowbuf := os, pix := m, col := w }) ∧
      m.wf = true ∧ m.len = s.pix.len ∧
      ∀ j, m.read j =
        if s.row.toNat * w.toNat ≤ j ∧ j < s.row.toNat * w.toNat + w.toNat ∧
            (os.getD ((j - s.row.toNat * w.toNat) / 8) 0).getLsbD (7 - (j - s.row.toNat * w.toNat) % 8) = true
        then Config.white else s.pix.read j := by
  have hpos : os ≠ [] := by
    rintro rfl
    simp only [List.length_nil, rowOctets] at hl
    omega
  obtain ⟨cs, o, rfl⟩ : ∃ cs o, os = cs ++ [o] := ⟨os.dropLast, os.getLast hpos, (List.dropLast_append_getLast hpos).symm⟩
  simp only [List.length_append, List.length_singleton] at hl
  rw [List.append_assoc] at hs
  have hd : s.src.drop (s.ipos + cs.length) = o :: tail := by
    rw [← List.drop_drop, hs, List.drop_left]
    rfl
  obtain ⟨m, h1, h2, h3, h4⟩ := inspectRow_spec (w := w)
    (s := { s with ipos := s.ipos + cs.length + 1, rowbuf := cs ++ [o] }) hwf hin (by simp; omega)
  refine ⟨m, ?_, h2, h3, h4⟩
  rw [List.length_append, List.length_singleton, show n + (cs.length + 1) = (n + 1) + cs.length by omega,
    readLoop_rowPart cs ([o] ++ tail) (n + 1) hr hp hs (by rw [hb]; simp; omega), hb, List.nil_append,
    readLoop_delivered (r := .pixelRow w h) (by exact hr) (srcRead_plain_cons (by exact hp) (by exact hd)),
    show (Reader.pixelRow w h).field = .pixelData from rfl,
    receive_pixel_last (w := w) (h := h) (by exact hr) o (by show _ ≤ cs.length + 1; omega)]
  show andThen (andThen (inspectRow w { s with ipos := s.ipos + cs.length + 1, rowbuf := cs ++ [o] }) _) _ = _
  rw [h1]
  rfl

/-- The octets of a row of the source, when enough are left. -/
theorem take_drop_getD (l : List Octet) (k n i : Nat) (hi : i < n) :
    ((l.drop k).take n).getD i 0 = l.getD (k + i) 0 := by
  simp [List.getD_eq_getElem?_getD, hi, List.getElem?_drop]

/-- What is read after the first row and then the rows below it (20_memory.md R47, R50, R54). -/
theorem rows_read {w : Dim} {src : List Octet} {p base e j : Nat} {row : List Octet} {old : Octet} (hw : 0 < w.toNat)
    (hbit : ∀ c, c < w.toNat → (row.getD (c / 8) 0).getLsbD (7 - c % 8) = streamBit src p w 0 c)
    (he : base + w.toNat ≤ e) :
    (if base + w.toNat ≤ j ∧ j < e ∧ streamBit src (p + rowOctets w) w ((j - (base + w.toNat)) / w.toNat)
          ((j - (base + w.toNat)) % w.toNat) = true then Config.white
      else if base ≤ j ∧ j < base + w.toNat ∧ (row.getD ((j - base) / 8) 0).getLsbD (7 - (j - base) % 8) = true
        then Config.white else old) =
      if base ≤ j ∧ j < e ∧ streamBit src p w ((j - base) / w.toNat) ((j - base) % w.toNat) = true
        then Config.white else old := by
  by_cases hj : base ≤ j ∧ j < base + w.toNat
  · rw [if_neg (by omega), hbit _ (by omega), Nat.div_eq_of_lt (by omega), Nat.mod_eq_of_lt (by omega)]
    have : j < e := by omega
    simp [hj, this]
  · have hread : ¬ (base ≤ j ∧ j < base + w.toNat ∧
        (row.getD ((j - base) / 8) 0).getLsbD (7 - (j - base) % 8) = true) := by tauto
    rw [if_neg hread]
    congr 1
    simp only [eq_iff_iff]
    have hshift : base + w.toNat ≤ j →
        streamBit src (p + rowOctets w) w ((j - (base + w.toNat)) / w.toNat) ((j - (base + w.toNat)) % w.toNat) =
        streamBit src p w ((j - base) / w.toNat) ((j - base) % w.toNat) := by
      intro hle
      have e : j - base = (j - (base + w.toNat)) + w.toNat := by omega
      rw [e, Nat.add_div_right _ hw, Nat.add_mod_right]
      simp only [streamBit, Nat.add_mul, Nat.one_mul]
      rw [show p + rowOctets w + (j - (base + w.toNat)) / w.toNat * rowOctets w =
        p + ((j - (base + w.toNat)) / w.toNat * rowOctets w + rowOctets w) by omega]
    constructor
    · rintro ⟨a, b, e⟩
      exact ⟨by omega, b, by rw [← hshift a]; exact e⟩
    · rintro ⟨a, b, e⟩
      have a' : base + w.toNat ≤ j := by omega
      exact ⟨a', b, by rw [hshift a']; exact e⟩

/-- The bits of the next row of the source. -/
theorem nextRow_bit (s : State) (w : Dim) (c : Nat) (hc : c < w.toNat) :
    (((s.src.drop s.ipos).take (rowOctets w)).getD (c / 8) 0).getLsbD (7 - c % 8) =
      streamBit s.src s.ipos w 0 c := by
  rw [take_drop_getD _ _ _ _ (by simp only [rowOctets]; omega)]
  simp [streamBit]

/-- Rows that are not the last: `PIX` has `0xFF` exactly where the stream's bit is 1, and the next row is ready
(42_unpack.md R141, R144). -/
theorem readLoop_someRows {w h : Dim} (k n : Nat) {s : State} (hr : s.activity = .reading (.pixelRow w h))
    (hp : s.srcAnswers = []) (hb : s.rowbuf = []) (hk : s.row.toNat + k < h.toNat)
    (hs : s.ipos + k * rowOctets w ≤ s.src.length) (hw : 0 < w.toNat) (hwf : s.pix.wf = true)
    (hin : h.toNat * w.toNat ≤ s.pix.len) :
    ∃ m row c, readLoop (n + k * rowOctets w) s =
        readLoop n { s with ipos := s.ipos + k * rowOctets w, pix := m, row := row, col := c } ∧
      row.toNat = s.row.toNat + k ∧ m.wf = true ∧ m.len = s.pix.len ∧
      ∀ j, m.read j =
        if s.row.toNat * w.toNat ≤ j ∧ j < (s.row.toNat + k) * w.toNat ∧
            streamBit s.src s.ipos w ((j - s.row.toNat * w.toNat) / w.toNat)
              ((j - s.row.toNat * w.toNat) % w.toNat) = true
        then Config.white else s.pix.read j := by
  induction k generalizing s with
  | zero =>
    refine ⟨s.pix, s.row, s.col, by simp, rfl, hwf, rfl, fun j => ?_⟩
    rw [if_neg (by simp; omega)]
  | succ k ih =>
    rw [Nat.succ_mul] at hs ⊢
    have hrows : (s.row.toNat + 1) * w.toNat ≤ h.toNat * w.toNat := Nat.mul_le_mul_right _ (by omega)
    have hrows' : (s.row.toNat + 1) * w.toNat = s.row.toNat * w.toNat + w.toNat := Nat.succ_mul _ _
    have hlen : ((s.src.drop s.ipos).take (rowOctets w)).length = rowOctets w := by
      rw [List.length_take, List.length_drop]; omega
    obtain ⟨m, h1, h2, h3, h4⟩ := readLoop_row (h := h) (os := (s.src.drop s.ipos).take (rowOctets w))
      (tail := (s.src.drop s.ipos).drop (rowOctets w)) (n + k * rowOctets w) hr hp
      (List.take_append_drop _ _).symm hb hlen hw hwf (by omega)
    rw [hlen] at h1
    have hsucc : (s.row + 1).toNat = s.row.toNat + 1 := toNat_succ_of_lt (w := h) (by omega)
    have hrow1 : s.row + 1 ≠ h := fun e => by rw [e] at hsucc; omega
    rw [show n + (k * rowOctets w + rowOctets w) = n + k * rowOctets w + rowOctets w by omega, h1, rowDone,
      if_neg (by exact hrow1)]
    obtain ⟨m', row, c, g1, g0, g2, g3, g4⟩ := ih
      (s := { s with ipos := s.ipos + rowOctets w, rowbuf := [], pix := m, col := 0, row := s.row + 1 })
      hr hp rfl (by show (s.row + 1).toNat + k < _; omega)
      (by show s.ipos + rowOctets w + k * rowOctets w ≤ s.src.length; omega) h2 (by show _ ≤ m.len; omega)
    refine ⟨m', row, c, ?_, by rw [g0, hsucc]; omega, g2, g3.trans h3, fun j => ?_⟩
    · refine g1.trans ?_
      show readLoop n { s with
        ipos := s.ipos + rowOctets w + k * rowOctets w, rowbuf := [], pix := m', row := row, col := c } = _
      rw [show s.ipos + rowOctets w + k * rowOctets w = s.ipos + (k * rowOctets w + rowOctets w) by omega, ← hb]
    · rw [g4 j]
      show (if (s.row + 1).toNat * w.toNat ≤ j ∧ j < ((s.row + 1).toNat + k) * w.toNat ∧
        streamBit s.src (s.ipos + rowOctets w) w ((j - (s.row + 1).toNat * w.toNat) / w.toNat)
          ((j - (s.row + 1).toNat * w.toNat) % w.toNat) = true then Config.white else m.read j) = _
      rw [hsucc, h4 j, hrows', show s.row.toNat + 1 + k = s.row.toNat + (k + 1) by omega]
      exact rows_read hw (fun c hc => nextRow_bit s w c hc) (by
        rw [Nat.add_mul, Nat.succ_mul]
        omega)

/-- All rows that are left: the unpack succeeds, has consumed `ceil(w/8)` octets a row, and `PIX` has `0xFF` exactly
where the stream's bit is 1, every other byte as before (42_unpack.md R141, R147, R149). -/
theorem readLoop_rows {w h : Dim} (k n : Nat) {s : State} (hr : s.activity = .reading (.pixelRow w h))
    (hp : s.srcAnswers = []) (hb : s.rowbuf = []) (hk : s.row.toNat + k = h.toNat) (hk0 : 0 < k)
    (hs : s.ipos + k * rowOctets w ≤ s.src.length) (hw : 0 < w.toNat) (hwf : s.pix.wf = true)
    (hin : h.toNat * w.toNat ≤ s.pix.len) :
    ∃ m, readLoop (n + k * rowOctets w) s =
        .next (succeed 0 0 { s with ipos := s.ipos + k * rowOctets w, pix := m }) ∧
      m.wf = true ∧ m.len = s.pix.len ∧
      ∀ j, m.read j =
        if s.row.toNat * w.toNat ≤ j ∧ j < h.toNat * w.toNat ∧
            streamBit s.src s.ipos w ((j - s.row.toNat * w.toNat) / w.toNat)
              ((j - s.row.toNat * w.toNat) % w.toNat) = true
        then Config.white else s.pix.read j := by
  induction k generalizing s with
  | zero => omega
  | succ k ih =>
    rw [Nat.succ_mul] at hs ⊢
    have hrows : (s.row.toNat + 1) * w.toNat ≤ h.toNat * w.toNat := Nat.mul_le_mul_right _ (by omega)
    have hrows' : (s.row.toNat + 1) * w.toNat = s.row.toNat * w.toNat + w.toNat := Nat.succ_mul _ _
    have hlen : ((s.src.drop s.ipos).take (rowOctets w)).length = rowOctets w := by
      rw [List.length_take, List.length_drop]; omega
    obtain ⟨m, h1, h2, h3, h4⟩ := readLoop_row (h := h) (os := (s.src.drop s.ipos).take (rowOctets w))
      (tail := (s.src.drop s.ipos).drop (rowOctets w)) (n + k * rowOctets w) hr hp
      (List.take_append_drop _ _).symm hb hlen hw hwf (by omega)
    rw [hlen] at h1
    have hbit := nextRow_bit s w
    have hsucc : (s.row + 1).toNat = s.row.toNat + 1 := toNat_succ_of_lt (w := h) (by omega)
    rw [show n + (k * rowOctets w + rowOctets w) = n + k * rowOctets w + rowOctets w by omega, h1]
    by_cases hlast : k = 0
    · subst hlast
      have hrow1 : s.row + 1 = h := BitVec.eq_of_toNat_eq (by omega)
      refine ⟨m, ?_, h2, h3, fun j => ?_⟩
      · rw [rowDone, if_pos (by exact hrow1), readLoop_succeed]
        simp only [Nat.zero_mul, Nat.zero_add]
        rfl
      · rw [h4 j]
        have hh : h.toNat * w.toNat = s.row.toNat * w.toNat + w.toNat := by rw [← hrows', ← hk]
        rw [hh]
        by_cases hj : s.row.toNat * w.toNat ≤ j ∧ j < s.row.toNat * w.toNat + w.toNat
        · rw [hbit _ (by omega), Nat.div_eq_of_lt (by omega), Nat.mod_eq_of_lt (by omega)]
        · rw [if_neg (by tauto), if_neg (by tauto)]
    · have hrow1 : s.row + 1 ≠ h := fun e => by rw [e] at hsucc; omega
      rw [rowDone, if_neg (by exact hrow1)]
      obtain ⟨m', g1, g2, g3, g4⟩ := ih
        (s := { s with ipos := s.ipos + rowOctets w, rowbuf := [], pix := m, col := 0, row := s.row + 1 })
        hr hp rfl (by show (s.row + 1).toNat + k = _; omega) (by omega)
        (by show s.ipos + rowOctets w + k * rowOctets w ≤ s.src.length; omega) h2 (by show _ ≤ m.len; omega)
      refine ⟨m', ?_, g2, g3.trans h3, fun j => ?_⟩
      · refine g1.trans ?_
        show Host.Outcome.next (succeed 0 0 { s with
          ipos := s.ipos + rowOctets w + k * rowOctets w, pix := m' }) = _
        rw [show s.ipos + rowOctets w + k * rowOctets w = s.ipos + (k * rowOctets w + rowOctets w) by omega]
      · rw [g4 j]
        simp only [hsucc, hrows']
        rw [h4 j]
        exact rows_read hw (fun c hc => nextRow_bit s w c hc) (by omega)

end Sys2Proof.Machine
end

