-- ==== Sys2Proof/Laws/Writing.lean ====
section
/-! SUPPORT. What the writing half can do: one octet of pixel data, the loop of sink writes, and what a plain sink
receives of an integer, a header and an image. -/

namespace Sys2Proof.Machine

/-! ## One octet of pixel data -/

/-- The bits of octet `j` of row `r` accumulated so far: the first `n` of them (44_pack.md R180). -/
def partialOctet (k : ColorKind) (m : Memory) (t : Octet) (w r j n : Nat) : Octet :=
  (List.range n).foldl
    (fun acc b =>
      if 8 * j + b < w ∧ pixelBit k m t w r (8 * j + b) then acc ||| (1#8 <<< (7 - b)) else acc) 0

theorem packedOctet_eq_partial (k : ColorKind) (m : Memory) (t : Octet) (w r j : Nat) :
    packedOctet k m t w r j = partialOctet k m t w r j 8 := rfl

theorem partialOctet_succ (k : ColorKind) (m : Memory) (t : Octet) (w r j n : Nat) :
    partialOctet k m t w r j (n + 1) =
      if 8 * j + n < w ∧ pixelBit k m t w r (8 * j + n) then partialOctet k m t w r j n ||| (1#8 <<< (7 - n))
      else partialOctet k m t w r j n := by
  simp [partialOctet, List.range_succ]

/-- Past the row's last pixel nothing is accumulated: the padding bits stay 0 (44_pack.md R181). -/
theorem partialOctet_past (k : ColorKind) (m : Memory) (t : Octet) (w r j n d : Nat) (h : w ≤ 8 * j + n) :
    partialOctet k m t w r j (n + d) = partialOctet k m t w r j n := by
  induction d with
  | zero => rfl
  | succ d ih =>
    rw [← Nat.add_assoc, partialOctet_succ, if_neg (by omega), ih]

/-- One accumulated bit. -/
theorem packBit_eq (oct : Octet) (nb : BitVec 4) (bit : Bool) :
    packBit oct nb bit = if bit = true then oct ||| (1#8 <<< (7 - nb.toNat)) else oct := by
  cases bit
  · simp [packBit]
  · simp only [packBit, if_true]
    rfl

/-- A pixel's sample lies in a buffer of the length the pack has checked (44_pack.md R177). -/
theorem sampleBit_eq {k : ColorKind} {w h : Dim} {s : State} (hlen : s.smp.len = sampleLength k w h)
    (hrow : s.row.toNat < h.toNat) (hcol : s.col.toNat < w.toNat) :
    sampleBit k w s = some (pixelBit k s.smp s.thrS w.toNat s.row.toNat s.col.toNat) := by
  have hi : s.row.toNat * w.toNat + s.col.toNat < w.toNat * h.toNat := by
    have h1 : (s.row.toNat + 1) * w.toNat ≤ h.toNat * w.toNat := Nat.mul_le_mul_right _ hrow
    rw [Nat.succ_mul] at h1
    rw [Nat.mul_comm w.toNat]
    omega
  cases k with
  | luma8 =>
    simp only [sampleLength, pixelCount, bytesPerPixel, Nat.mul_one] at hlen
    simp only [sampleBit, pixelIndex, pixelBit]
    rw [memRead_of_lt (by omega)]
    rfl
  | rgba8 =>
    simp only [sampleLength, pixelCount, bytesPerPixel] at hlen
    simp only [sampleBit, pixelIndex, pixelBit]
    rw [memRead_of_lt (by omega), memRead_of_lt (by omega), memRead_of_lt (by omega), memRead_of_lt (by omega)]

/-- A 32-bit counter below a bound advances without wrap. -/
theorem toNat_add_one_of_lt {c w : Dim} (h : c.toNat < w.toNat) : (c + 1).toNat = c.toNat + 1 := by
  have h1 : (1 : Dim).toNat = 1 := rfl
  have := w.isLt
  rw [BitVec.toNat_add, h1, Nat.mod_eq_of_lt (by omega)]

/-- The last column of a row that has one. -/
theorem toNat_sub_one {w : Dim} (h : 0 < w.toNat) : (w - 1).toNat = w.toNat - 1 := by
  have h1 : (1 : Dim).toNat = 1 := rfl
  have := w.isLt
  rw [BitVec.toNat_sub, h1]
  omega

/-- The flush condition in numbers (44_pack.md R181). -/
theorem flushDue_iff {w col : Dim} {nb : BitVec 4} (hw : 0 < w.toNat) :
    flushDue w col nb = true ↔ nb.toNat = 8 ∨ col.toNat = w.toNat - 1 := by
  simp only [flushDue, Bool.or_eq_true, decide_eq_true_eq]
  constructor
  · rintro (rfl | rfl)
    · exact .inl rfl
    · exact .inr (toNat_sub_one hw)
  · rintro (h | h)
    · exact .inl (BitVec.eq_of_toNat_eq (by rw [h]; rfl))
    · exact .inr (BitVec.eq_of_toNat_eq (by rw [h, toNat_sub_one hw]))

/-- Everything the accumulation of one octet can do, from its `a`-th bit on: it answers with the octet complete,
changes only `OCT`, `NB` and `COL`, and stops at the eighth bit or at the row's last pixel (44_pack.md R180, R181). -/
theorem fillOctet_spec {k : ColorKind} {w h : Dim} {j a n : Nat} {s : State} (hlen : s.smp.len = sampleLength k w h)
    (hrow : s.row.toNat < h.toNat) (hcol : s.col.toNat < w.toNat) (hn : n + a = 8) (ha : a < 8)
    (hnb : s.nb.toNat = a) (hca : s.col.toNat = 8 * j + a)
    (hoct : s.oct = partialOctet k s.smp s.thrS w.toNat s.row.toNat j a) :
    ∃ nb c, fillOctet k w n s =
        .next { s with oct := packedOctet k s.smp s.thrS w.toNat s.row.toNat j, nb := nb, col := c } ∧
      nb.toNat = min 8 (w.toNat - 8 * j) ∧ c.toNat + 1 = 8 * j + nb.toNat := by
  induction n generalizing s a with
  | zero => omega
  | succ n ih =>
    have hnb1 : (s.nb + 1).toNat = a + 1 := by
      have h1 : (1 : BitVec 4).toNat = 1 := rfl
      rw [BitVec.toNat_add, h1, hnb, Nat.mod_eq_of_lt (by omega)]
    have hnext : packBit s.oct s.nb (pixelBit k s.smp s.thrS w.toNat s.row.toNat s.col.toNat) =
        partialOctet k s.smp s.thrS w.toNat s.row.toNat j (a + 1) := by
      rw [packBit_eq, partialOctet_succ, hoct, hnb, hca]
      by_cases hb : pixelBit k s.smp s.thrS w.toNat s.row.toNat (8 * j + a) = true
      · rw [if_pos hb, if_pos ⟨by omega, hb⟩]
      · rw [if_neg hb, if_neg (fun e => hb e.2)]
    unfold fillOctet
    rw [sampleBit_eq hlen hrow hcol]
    simp only [accumulateBit, hnext]
    by_cases hf : flushDue w s.col (s.nb + 1) = true
    · rw [if_pos hf]
      have hf' := (flushDue_iff (by omega)).mp hf
      rw [hnb1] at hf'
      refine ⟨s.nb + 1, s.col, ?_, by rw [hnb1]; omega, by rw [hnb1]; omega⟩
      have hdone : partialOctet k s.smp s.thrS w.toNat s.row.toNat j (a + 1) =
          packedOctet k s.smp s.thrS w.toNat s.row.toNat j := by
        rw [packedOctet_eq_partial]
        rcases hf' with h8 | hlast
        · rw [h8]
        · rw [show 8 = (a + 1) + (7 - a) by omega]
          exact (partialOctet_past _ _ _ _ _ _ _ _ (by omega)).symm
      rw [hdone]
    · rw [if_neg hf]
      have hf' : ¬((s.nb + 1).toNat = 8 ∨ s.col.toNat = w.toNat - 1) :=
        fun e => hf ((flushDue_iff (by omega)).mpr e)
      rw [hnb1] at hf'
      have hc1 : (s.col + 1).toNat = s.col.toNat + 1 := toNat_add_one_of_lt hcol
      exact ih (a := a + 1)
        (s := { s with
          oct := partialOctet k s.smp s.thrS w.toNat s.row.toNat j (a + 1)
          nb := s.nb + 1
          col := s.col + 1 })
        hlen hrow (by show (s.col + 1).toNat < _; omega) (by omega) (by omega) hnb1
        (by show (s.col + 1).toNat = _; omega) rfl

/-- The next octet of a row, from its first column (44_pack.md R178, R180). -/
theorem nextOctet_spec {k : ColorKind} {w h : Dim} {j : Nat} {s : State} (hlen : s.smp.len = sampleLength k w h)
    (hrow : s.row.toNat < h.toNat) (hcol : s.col.toNat < w.toNat) (hca : s.col.toNat = 8 * j) :
    ∃ nb c, nextOctet k w s =
        .next { s with oct := packedOctet k s.smp s.thrS w.toNat s.row.toNat j, nb := nb, col := c } ∧
      nb.toNat = min 8 (w.toNat - 8 * j) ∧ c.toNat + 1 = 8 * j + nb.toNat :=
  fillOctet_spec (a := 0) (n := 8) (s := { s with oct := 0, nb := 0 }) hlen hrow hcol rfl (by omega) rfl hca rfl

/-! ## The write loop -/

/-- Nothing is written outside a writing operation. -/
theorem writeLoop_not_writing {s : State} (h : ∀ w, s.activity ≠ .writing w) (n : Nat) :
    writeLoop n s = .next s := by
  cases n with
  | zero => rfl
  | succ n =>
    unfold writeLoop
    split
    · rename_i w hw
      exact absurd hw (h w)
    · rfl

@[simp] theorem writeLoop_finish (n : Nat) (r : Result) (s : State) :
    writeLoop n (finish r s) = .next (finish r s) :=
  writeLoop_not_writing (fun _ h => by cases h) n

@[simp] theorem writeLoop_succeed (n : Nat) (a b : Dim) (s : State) :
    writeLoop n (succeed a b s) = .next (succeed a b s) := writeLoop_finish n _ s

@[simp] theorem writeLoop_raise (n : Nat) (e : Err) (s : State) : writeLoop n (raise e s) = .next (raise e s) :=
  writeLoop_finish n _ s

/-- One accepted octet of the loop. -/
theorem writeLoop_accepted {s s' : State} {w : Writer} (hw : s.activity = .writing w)
    (hd : snkWrite (w.octet s) s = .accepted s') (n : Nat) :
    writeLoop (n + 1) s = andThen (afterWrite w s') (writeLoop n) := by
  simp [writeLoop, hw, hd]

/-- One octet of the loop on a plain sink. -/
theorem writeLoop_plain {s : State} {w : Writer} (hw : s.activity = .writing w) (hp : s.snkAnswers = []) (n : Nat) :
    writeLoop (n + 1) s = andThen (afterWrite w { s with snk := s.snk ++ [w.octet s] }) (writeLoop n) :=
  writeLoop_accepted hw (snkWrite_plain hp) n

/-- One failed write of the loop. -/
theorem writeLoop_failed {s s' : State} {w : Writer} {c : IoCause} (hw : s.activity = .writing w)
    (hd : snkWrite (w.octet s) s = .failed c s') (n : Nat) :
    writeLoop (n + 1) s = .next (raise (.ioError c) s') := by
  simp [writeLoop, hw, hd]

/-- One unanswered write of the loop. -/
theorem writeLoop_silent {s : State} {w : Writer} (hw : s.activity = .writing w)
    (hd : snkWrite (w.octet s) s = .silent) (n : Nat) : writeLoop (n + 1) s = .next s := by
  simp [writeLoop, hw, hd]

/-- A property that every write keeps, with what follows a write always answering, holds where the loop ends. -/
theorem writeLoop_total {P : State → Prop}
    (hfail : ∀ s w c s', P s → s.activity = .writing w → snkWrite (w.octet s) s = .failed c s' →
      P (raise (.ioError c) s'))
    (hstep : ∀ s w s', P s → s.activity = .writing w → snkWrite (w.octet s) s = .accepted s' →
      ∃ t, afterWrite w s' = .next t ∧ P t)
    (n : Nat) (s : State) (h : P s) : ∃ t, writeLoop n s = .next t ∧ P t := by
  induction n generalizing s with
  | zero => exact ⟨s, rfl, h⟩
  | succ n ih =>
    unfold writeLoop
    split
    · rename_i w hw
      split
      · exact ⟨s, rfl, h⟩
      · rename_i c s' hd
        exact ⟨_, rfl, hfail s w c s' h hw hd⟩
      · rename_i s' hd
        obtain ⟨t, ht, hP⟩ := hstep s w s' h hw hd
        obtain ⟨u, hu, hP'⟩ := ih t hP
        exact ⟨u, by rw [ht, andThen_next, hu], hP'⟩
    · exact ⟨s, rfl, h⟩

/-- A property that every write and what follows it keep holds of the state the loop answers. -/
theorem writeLoop_induct {P : State → Prop}
    (hfail : ∀ s w c s', P s → s.activity = .writing w → snkWrite (w.octet s) s = .failed c s' →
      P (raise (.ioError c) s'))
    (hstep : ∀ s w s' t, P s → s.activity = .writing w → snkWrite (w.octet s) s = .accepted s' →
      afterWrite w s' = .next t → P t)
    {n : Nat} {s t : State} (h : P s) (ht : writeLoop n s = .next t) : P t := by
  induction n generalizing s with
  | zero => cases ht; exact h
  | succ n ih =>
    unfold writeLoop at ht
    split at ht
    · rename_i w hw
      split at ht
      · cases ht; exact h
      · rename_i c s' hd
        cases ht; exact hfail s w c s' h hw hd
      · rename_i s' hd
        obtain ⟨u, hu, ht'⟩ := andThen_eq_next ht
        exact ih (hstep s w s' u h hw hd hu) ht'
    · cases ht; exact h

/-! ## Frames -/

/-- What no write and nothing that follows one changes: the parameters, `THR`, `PHASE`, `HDR_*`, the command port,
the source, `SMP` and `PIX`. -/
def WriteFrame (s t : State) : Prop :=
  t.cfg = s.cfg ∧ SameRegisters s t ∧ t.cmds = s.cmds ∧ SameSource s t ∧ t.smp = s.smp ∧ t.pix = s.pix

theorem WriteFrame.refl (s : State) : WriteFrame s s :=
  ⟨rfl, ⟨rfl, rfl, rfl, rfl, rfl, rfl⟩, rfl, ⟨rfl, rfl, rfl⟩, rfl, rfl⟩

theorem WriteFrame.trans {s t u : State} (h : WriteFrame s t) (k : WriteFrame t u) : WriteFrame s u := by
  obtain ⟨a1, ⟨a2, a3, a4, a5, a6, a7⟩, a8, ⟨a9, a10, a11⟩, a12, a13⟩ := h
  obtain ⟨b1, ⟨b2, b3, b4, b5, b6, b7⟩, b8, ⟨b9, b10, b11⟩, b12, b13⟩ := k
  exact ⟨b1.trans a1, ⟨b2.trans a2, b3.trans a3, b4.trans a4, b5.trans a5, b6.trans a6, b7.trans a7⟩, b8.trans a8,
    ⟨b9.trans a9, b10.trans a10, b11.trans a11⟩, b12.trans a12, b13.trans a13⟩

/-- The accumulation of an octet changes `OCT`, `NB` and `COL` only. -/
theorem fillOctet_frame {k : ColorKind} {w : Dim} {n : Nat} {s t : State} (h : fillOctet k w n s = .next t) :
    ∃ o nb c, t = { s with oct := o, nb := nb, col := c } := by
  induction n generalizing s with
  | zero => cases h; exact ⟨t.oct, t.nb, t.col, rfl⟩
  | succ n ih =>
    unfold fillOctet at h
    split at h
    · cases h
    · simp only at h
      split at h
      · cases h; exact ⟨_, _, _, rfl⟩
      · obtain ⟨o, nb, c, rfl⟩ := ih h
        exact ⟨o, nb, c, rfl⟩

/-- Everything the start of a pack can do: `InvalidImageData`, an empty image done, or the first octet ready
(44_pack.md R176, R177, R183). -/
theorem startPack_cases {k : ColorKind} {w h : Dim} {s t : State} (ht : startPack k w h s = .next t) :
    (s.smp.len ≠ sampleLength k w h ∧ t = raise .invalidImageData s) ∨
    (s.smp.len = sampleLength k w h ∧ emptyImage w h = true ∧ t = succeed 0 0 s) ∨
    (s.smp.len = sampleLength k w h ∧ emptyImage w h = false ∧
      nextOctet k w { s with row := 0, col := 0, activity := .writing (.pixelRow k w h) } = .next t) := by
  unfold startPack at ht
  split at ht
  · rename_i hl
    cases ht
    exact .inl ⟨by simpa [smpWrongLength] using hl, rfl⟩
  · rename_i hl
    have hl : s.smp.len = sampleLength k w h := by simpa [smpWrongLength] using hl
    split at ht
    · rename_i he
      cases ht
      exact .inr (.inl ⟨hl, he, rfl⟩)
    · rename_i he
      exact .inr (.inr ⟨hl, by simpa using he, ht⟩)

/-- The start of a pack leaves everything but its own registers alone, and the sink too. -/
theorem startPack_frame {k : ColorKind} {w h : Dim} {s t : State} (ht : startPack k w h s = .next t) :
    WriteFrame s t ∧ SameSink s t ∧ ∀ r, t.activity ≠ .reading r := by
  rcases startPack_cases ht with ⟨_, rfl⟩ | ⟨_, _, rfl⟩ | ⟨_, _, h⟩
  · exact ⟨WriteFrame.refl s, ⟨rfl, rfl⟩, by simp⟩
  · exact ⟨WriteFrame.refl s, ⟨rfl, rfl⟩, by simp⟩
  · obtain ⟨o, nb, c, rfl⟩ := fillOctet_frame h
    exact ⟨WriteFrame.refl s, ⟨rfl, rfl⟩, by simp⟩

/-- What follows an accepted octet leaves everything but its own registers alone, and the sink too. -/
theorem afterWrite_frame {w : Writer} {s t : State} (hs : s.activity = .writing w) (h : afterWrite w s = .next t) :
    WriteFrame s t ∧ SameSink s t ∧ ∀ r, t.activity ≠ .reading r := by
  have hnr : ∀ r, s.activity ≠ .reading r := by simp [hs]
  cases w <;> simp only [afterWrite] at h
  case typeField => cases h; exact ⟨WriteFrame.refl s, ⟨rfl, rfl⟩, by simp⟩
  case fixHeader => cases h; exact ⟨WriteFrame.refl s, ⟨rfl, rfl⟩, by simp⟩
  case width => split at h <;> cases h <;> exact ⟨WriteFrame.refl s, ⟨rfl, rfl⟩, by first | exact hnr | simp⟩
  case height =>
    split at h
    · unfold afterHeader at h
      split at h
      · cases h; exact ⟨WriteFrame.refl s, ⟨rfl, rfl⟩, by simp⟩
      · exact startPack_frame h
    · cases h; exact ⟨WriteFrame.refl s, ⟨rfl, rfl⟩, hnr⟩
  case value => split at h <;> cases h <;> exact ⟨WriteFrame.refl s, ⟨rfl, rfl⟩, by first | exact hnr | simp⟩
  case pixelRow k w hh =>
    unfold afterFlush at h
    split at h
    · split at h
      · cases h; exact ⟨WriteFrame.refl s, ⟨rfl, rfl⟩, by simp⟩
      · obtain ⟨o, nb, c, rfl⟩ := fillOctet_frame h
        exact ⟨WriteFrame.refl s, ⟨rfl, rfl⟩, hnr⟩
    · obtain ⟨o, nb, c, rfl⟩ := fillOctet_frame h
      exact ⟨WriteFrame.refl s, ⟨rfl, rfl⟩, hnr⟩

/-- What an accepted octet leads to: another write, success, or, after the last octet of an `ENCODE`'s header,
`InvalidImageData` (44_pack.md R177, 45_orchestration.md R207, R208). -/
theorem afterWrite_ends {w : Writer} {s t : State} (hs : s.activity = .writing w) (h : afterWrite w s = .next t) :
    (t.results = s.results ∧ ∃ w', t.activity = .writing w') ∨ Ended (okRecord 0 0) s t ∨
      (Ended (Err.record .invalidImageData) s t ∧
        ∃ k v u, w = .height (some k) v u ∧ s.smp.len ≠ sampleLength k v u) := by
  cases w <;> simp only [afterWrite] at h
  case typeField => cases h; exact .inl ⟨rfl, _, rfl⟩
  case fixHeader => cases h; exact .inl ⟨rfl, _, rfl⟩
  case width => split at h <;> cases h <;> exact .inl ⟨rfl, _, by first | exact hs | rfl⟩
  case height b v u =>
    split at h
    · cases b with
      | none => cases h; exact .inr (.inl ⟨rfl, rfl⟩)
      | some k =>
        rcases startPack_cases h with ⟨hl, rfl⟩ | ⟨_, _, rfl⟩ | ⟨_, _, h⟩
        · exact .inr (.inr ⟨⟨rfl, rfl⟩, k, v, u, rfl, hl⟩)
        · exact .inr (.inl ⟨rfl, rfl⟩)
        · obtain ⟨o, nb, c, rfl⟩ := fillOctet_frame h
          exact .inl ⟨rfl, _, rfl⟩
    · cases h; exact .inl ⟨rfl, _, hs⟩
  case value => split at h <;> cases h <;> [exact .inr (.inl ⟨rfl, rfl⟩); exact .inl ⟨rfl, _, hs⟩]
  case pixelRow k v u =>
    unfold afterFlush at h
    split at h
    · split at h
      · cases h; exact .inr (.inl ⟨rfl, rfl⟩)
      · obtain ⟨o, nb, c, rfl⟩ := fillOctet_frame h
        exact .inl ⟨rfl, _, hs⟩
    · obtain ⟨o, nb, c, rfl⟩ := fillOctet_frame h
      exact .inl ⟨rfl, _, hs⟩

/-- Everything the write loop leaves alone; the sink is only extended (10_state.md R29). -/
theorem writeLoop_frame {n : Nat} {s t : State} (h : writeLoop n s = .next t) :
    WriteFrame s t ∧ s.snk <+: t.snk := by
  refine writeLoop_induct (P := fun u => WriteFrame s u ∧ s.snk <+: u.snk) ?_ ?_
    ⟨WriteFrame.refl s, List.prefix_rfl⟩ h
  · rintro u w c u' ⟨hf, hi⟩ _ hd
    obtain ⟨rest, rfl⟩ := snkWrite_failed hd
    exact ⟨hf.trans (WriteFrame.refl u), hi⟩
  · rintro u w u' v ⟨hf, hi⟩ hw hd hv
    obtain ⟨rest, rfl⟩ := snkWrite_accepted hd
    obtain ⟨hr, hs, _⟩ := afterWrite_frame (by exact hw) hv
    refine ⟨hf.trans (WriteFrame.trans (WriteFrame.refl u) hr), ?_⟩
    rw [hs.1]
    exact hi.trans (List.prefix_append _ _)

end Sys2Proof.Machine
end

