-- ==== Sys2Proof/Laws/Sink.lean ====
section
/-! SUPPORT. The octets a writing operation has still to write, and what becomes of them for every script of the
sink: all accepted, one failed, one not answered (20_memory.md R45, 60_exceptions.md R230, R232). -/

namespace Sys2Proof.Machine

/-- The operation in progress has still to write `os`, one octet a write, and ends with `r` after the last;
`base` are the results delivered before it. -/
def Pending (base : List Result) (r : Result) : List Octet → State → Prop
  | [], s => s.activity = .idle ∧ s.results = base ++ [r]
  | o :: os, s => s.results = base ∧ ∃ w, s.activity = .writing w ∧ w.octet s = o ∧
      ∀ k a, ∃ t, afterWrite w { s with snk := k, snkAnswers := a } = .next t ∧ t.snk = k ∧ t.snkAnswers = a ∧
        WriteFrame s t ∧ Pending base r os t

/-- One octet of a pending operation whose write is accepted. -/
theorem pending_accepted {base : List Result} {r : Result} {o : Octet} {os : List Octet} {s s' : State}
    (h : Pending base r (o :: os) s) (hs : ∃ a, s' = { s with snk := s.snk ++ [o], snkAnswers := a })
    (hw : ∀ b, b = o → snkWrite b s = .accepted s') (n : Nat) :
    ∃ t, writeLoop (n + 1) s = writeLoop n t ∧ t.snk = s.snk ++ [o] ∧ t.snkAnswers = s'.snkAnswers ∧
      WriteFrame s t ∧ Pending base r os t := by
  obtain ⟨-, w, hact, hoct, hnext⟩ := h
  obtain ⟨a, rfl⟩ := hs
  obtain ⟨t, ht, h1, h2, h3, h4⟩ := hnext (s.snk ++ [o]) a
  refine ⟨t, ?_, h1, h2, h3, h4⟩
  rw [writeLoop_accepted hact (hw _ hoct) n, ht, andThen_next]

/-- A plain sink takes everything (20_memory.md R45). -/
theorem pending_plain {base : List Result} {r : Result} (os : List Octet) {n : Nat} {s : State} (hn : os.length ≤ n)
    (h : Pending base r os s) (hp : s.snkAnswers = []) :
    ∃ t, writeLoop n s = .next t ∧ WriteFrame s t ∧ t.snk = s.snk ++ os ∧ t.snkAnswers = [] ∧
      t.activity = .idle ∧ t.results = base ++ [r] := by
  induction os generalizing n s with
  | nil =>
    refine ⟨s, writeLoop_not_writing (fun w hw => ?_) n, WriteFrame.refl s, by simp, hp, h⟩
    rw [h.1] at hw
    cases hw
  | cons o os ih =>
    obtain ⟨m, rfl⟩ : ∃ m, n = m + 1 := ⟨n - 1, by rw [List.length_cons] at hn; omega⟩
    obtain ⟨t, h1, h2, h3, h4, h5⟩ := pending_accepted (s' := { s with snk := s.snk ++ [o] }) h
      ⟨[], by rw [← hp]⟩ (fun b hb => by rw [hb]; exact snkWrite_plain hp) m
    obtain ⟨u, g1, g2, g3, g4, g5⟩ := ih (n := m) (by simpa using hn) h5 (h3.trans hp)
    exact ⟨u, h1.trans g1, h4.trans g2, by rw [g3, h2, List.append_assoc]; rfl, g4, g5⟩

/-- Accepted writes, as many as there are octets: the rest of the script is kept. -/
theorem pending_all_accepted {base : List Result} {r : Result} (os : List Octet) {n : Nat} {s : State}
    (hn : os.length ≤ n) (h : Pending base r os s) {rest : List WriteAnswer}
    (hp : s.snkAnswers = List.replicate os.length .accept ++ rest) :
    ∃ t, writeLoop n s = .next t ∧ WriteFrame s t ∧ t.snk = s.snk ++ os ∧ t.snkAnswers = rest ∧
      t.activity = .idle ∧ t.results = base ++ [r] := by
  induction os generalizing n s with
  | nil =>
    refine ⟨s, writeLoop_not_writing (fun w hw => ?_) n, WriteFrame.refl s, by simp, hp, h⟩
    rw [h.1] at hw
    cases hw
  | cons o os ih =>
    obtain ⟨m, rfl⟩ : ∃ m, n = m + 1 := ⟨n - 1, by rw [List.length_cons] at hn; omega⟩
    obtain ⟨t, h1, h2, h3, h4, h5⟩ := pending_accepted
      (s' := { s with snk := s.snk ++ [o], snkAnswers := List.replicate os.length .accept ++ rest }) h
      ⟨_, rfl⟩ (fun b hb => by simp [snkWrite, hp, hb, List.replicate_succ]) m
    obtain ⟨u, g1, g2, g3, g4, g5⟩ := ih (n := m) (by simpa using hn) h5 h3
    exact ⟨u, h1.trans g1, h4.trans g2, by rw [g3, h2, List.append_assoc]; rfl, g4, g5⟩

/-- The write after `k` accepted ones fails: `IoError` with the environment's cause, the `k` octets stay
(20_memory.md R45, 60_exceptions.md R230, R232). -/
theorem pending_failed {base : List Result} {r : Result} {c : IoCause} {rest : List WriteAnswer} (k : Nat)
    {os : List Octet} {n : Nat} {s : State} (hn : os.length ≤ n) (h : Pending base r os s) (hk : k < os.length)
    (hp : s.snkAnswers = List.replicate k .accept ++ .fail c :: rest) :
    ∃ t, writeLoop n s = .next t ∧ WriteFrame s t ∧ t.snk = s.snk ++ os.take k ∧ t.snkAnswers = rest ∧
      t.activity = .idle ∧ t.results = base ++ [Err.record (.ioError c)] := by
  induction k generalizing os n s with
  | zero =>
    cases os with
    | nil => simp at hk
    | cons o os =>
      obtain ⟨m, rfl⟩ : ∃ m, n = m + 1 := ⟨n - 1, by rw [List.length_cons] at hn; omega⟩
      obtain ⟨hb, w, hact, -, -⟩ := h
      refine ⟨_, writeLoop_failed (s' := { s with snkAnswers := rest }) (c := c) hact (by simp [snkWrite, hp]) m,
        WriteFrame.refl s, by simp, rfl, rfl, ?_⟩
      rw [← hb]
      rfl
  | succ k ih =>
    cases os with
    | nil => simp at hk
    | cons o os =>
      obtain ⟨m, rfl⟩ : ∃ m, n = m + 1 := ⟨n - 1, by rw [List.length_cons] at hn; omega⟩
      obtain ⟨t, h1, h2, h3, h4, h5⟩ := pending_accepted
        (s' := { s with snk := s.snk ++ [o], snkAnswers := List.replicate k .accept ++ .fail c :: rest }) h
        ⟨_, rfl⟩ (fun b hb => by simp [snkWrite, hp, hb, List.replicate_succ]) m
      obtain ⟨u, g1, g2, g3, g4⟩ := ih (n := m) (by simpa using hn) h5 (by simpa using hk) h3
      exact ⟨u, h1.trans g1, h4.trans g2, by rw [g3, h2, List.append_assoc]; rfl, g4⟩

/-- The write after `k` accepted ones is not answered: the operation stays in progress at it (20_memory.md R48). -/
theorem pending_silent {base : List Result} {r : Result} {rest : List WriteAnswer} (k : Nat)
    {os : List Octet} {n : Nat} {s : State} (hn : os.length ≤ n) (h : Pending base r os s) (hk : k < os.length)
    (hp : s.snkAnswers = List.replicate k .accept ++ .silent :: rest) :
    ∃ t, writeLoop n s = .next t ∧ WriteFrame s t ∧ t.snk = s.snk ++ os.take k ∧ t.snkAnswers = .silent :: rest ∧
      (∃ w, t.activity = .writing w) ∧ t.results = base ∧ Pending base r (os.drop k) t := by
  induction k generalizing os n s with
  | zero =>
    cases os with
    | nil => simp at hk
    | cons o os =>
      obtain ⟨m, rfl⟩ : ∃ m, n = m + 1 := ⟨n - 1, by rw [List.length_cons] at hn; omega⟩
      obtain ⟨hb, w, hact, hr⟩ := id h
      exact ⟨s, writeLoop_silent hact (by simp [snkWrite, hp]) m, WriteFrame.refl s, by simp, hp, ⟨w, hact⟩, hb, h⟩
  | succ k ih =>
    cases os with
    | nil => simp at hk
    | cons o os =>
      obtain ⟨m, rfl⟩ : ∃ m, n = m + 1 := ⟨n - 1, by rw [List.length_cons] at hn; omega⟩
      obtain ⟨t, h1, h2, h3, h4, h5⟩ := pending_accepted
        (s' := { s with snk := s.snk ++ [o], snkAnswers := List.replicate k .accept ++ .silent :: rest }) h
        ⟨_, rfl⟩ (fun b hb => by simp [snkWrite, hp, hb, List.replicate_succ]) m
      obtain ⟨u, g1, g2, g3, g4⟩ := ih (n := m) (by simpa using hn) h5 (by simpa using hk) h3
      exact ⟨u, h1.trans g1, h4.trans g2, by rw [g3, h2, List.append_assoc]; rfl, g4⟩

/-- Every script of answers to `n` writes is one of four: it runs out with everything accepted, accepts them all,
fails one, or leaves one unanswered. -/
theorem script_cases (a : List WriteAnswer) (n : Nat) :
    (∃ k < n, a = List.replicate k .accept) ∨ (∃ rest, a = List.replicate n .accept ++ rest) ∨
      (∃ k < n, ∃ c rest, a = List.replicate k .accept ++ .fail c :: rest) ∨
      (∃ k < n, ∃ rest, a = List.replicate k .accept ++ .silent :: rest) := by
  induction n generalizing a with
  | zero => exact .inr (.inl ⟨a, rfl⟩)
  | succ n ih =>
    cases a with
    | nil => exact .inl ⟨0, by omega, rfl⟩
    | cons x a =>
      cases x with
      | fail c => exact .inr (.inr (.inl ⟨0, by omega, c, a, rfl⟩))
      | silent => exact .inr (.inr (.inr ⟨0, by omega, a, rfl⟩))
      | accept =>
        rcases ih a with ⟨k, hk, rfl⟩ | ⟨rest, rfl⟩ | ⟨k, hk, c, rest, rfl⟩ | ⟨k, hk, rest, rfl⟩
        · exact .inl ⟨k + 1, by omega, rfl⟩
        · exact .inr (.inl ⟨rest, rfl⟩)
        · exact .inr (.inr (.inl ⟨k + 1, by omega, c, rest, rfl⟩))
        · exact .inr (.inr (.inr ⟨k + 1, by omega, rest, rfl⟩))

/-- A script that runs out within the operation accepts everything it has. -/
theorem pending_short {base : List Result} {r : Result} (k : Nat) {os : List Octet} {n : Nat} {s : State}
    (hn : os.length ≤ n) (h : Pending base r os s) (hk : k < os.length) (hp : s.snkAnswers = List.replicate k .accept) :
    ∃ t, writeLoop n s = .next t ∧ WriteFrame s t ∧ t.snk = s.snk ++ os ∧ t.snkAnswers = [] ∧
      t.activity = .idle ∧ t.results = base ++ [r] := by
  induction k generalizing os n s with
  | zero => exact pending_plain os hn h hp
  | succ k ih =>
    cases os with
    | nil => simp at hk
    | cons o os =>
      obtain ⟨m, rfl⟩ : ∃ m, n = m + 1 := ⟨n - 1, by rw [List.length_cons] at hn; omega⟩
      obtain ⟨t, h1, h2, h3, h4, h5⟩ := pending_accepted
        (s' := { s with snk := s.snk ++ [o], snkAnswers := List.replicate k .accept }) h
        ⟨_, rfl⟩ (fun b hb => by simp [snkWrite, hp, hb, List.replicate_succ]) m
      obtain ⟨u, g1, g2, g3, g4⟩ := ih (n := m) (by simpa using hn) h5 (by simpa using hk) h3
      exact ⟨u, h1.trans g1, h4.trans g2, by rw [g3, h2, List.append_assoc]; rfl, g4⟩

/-- Everything a pending operation can come to: it ends with all octets written, ends with `IoError` after some of
them, or stands at an unanswered write. -/
theorem pending_cases {base : List Result} {r : Result} {os : List Octet} {n : Nat} {s : State}
    (hn : os.length ≤ n) (h : Pending base r os s) :
    ∃ t, writeLoop n s = .next t ∧ WriteFrame s t ∧
      ((t.snk = s.snk ++ os ∧ t.activity = .idle ∧ t.results = base ++ [r]) ∨
       (∃ k < os.length, ∃ c, t.snk = s.snk ++ os.take k ∧ t.activity = .idle ∧
          t.results = base ++ [Err.record (.ioError c)]) ∨
       (∃ k < os.length, ∃ rest, t.snk = s.snk ++ os.take k ∧ t.snkAnswers = .silent :: rest ∧
          (∃ w, t.activity = .writing w) ∧ t.results = base)) := by
  rcases script_cases s.snkAnswers os.length with ⟨k, hk, hp⟩ | ⟨rest, hp⟩ | ⟨k, hk, c, rest, hp⟩ | ⟨k, hk, rest, hp⟩
  · obtain ⟨t, h1, h2, h3, -, h4⟩ := pending_short k hn h hk hp
    exact ⟨t, h1, h2, .inl ⟨h3, h4⟩⟩
  · obtain ⟨t, h1, h2, h3, -, h4⟩ := pending_all_accepted os hn h hp
    exact ⟨t, h1, h2, .inl ⟨h3, h4⟩⟩
  · obtain ⟨t, h1, h2, h3, -, h4⟩ := pending_failed k hn h hk hp
    exact ⟨t, h1, h2, .inr (.inl ⟨k, hk, c, h3, h4⟩)⟩
  · obtain ⟨t, h1, h2, h3, h4, h5, h6, -⟩ := pending_silent k hn h hk hp
    exact ⟨t, h1, h2, .inr (.inr ⟨k, hk, rest, h3, h4, h5, h6⟩)⟩

end Sys2Proof.Machine
end

