-- ==== Sys2Proof/Laws/Step.lean ====
section
/-! SUPPORT. What a step is in each activity, and what the long commands leave alone as a whole. -/

namespace Sys2Proof.Machine

theorem step_idle {s : State} (h : s.activity = .idle) : step s = runFetched (fetchCommand s) := by
  simp [step, h]

theorem step_reading {s : State} {r : Reader} (h : s.activity = .reading r) :
    step s = runFetched (fetchOctet r s) := by
  simp [step, h]

theorem step_writing {s : State} {w : Writer} (h : s.activity = .writing w) : step s = writeLoop 1 s := by
  simp [step, h, writeStep]

/-- A step of a reading operation is one round of the read loop (20_memory.md R43, R48). -/
theorem step_reading_eq {s : State} {r : Reader} (h : s.activity = .reading r) : step s = readLoop 1 s := by
  rw [step_reading h, fetchOctet]
  cases hd : srcRead s with
  | silent => rw [readLoop_silent h hd 0]; rfl
  | failed c s' => rw [readLoop_failed h hd 0]; rfl
  | delivered o s' =>
    rw [readLoop_delivered h hd 0]
    show exec _ s' = _
    rw [exec_toInstr]
    cases receive (decodeOctet r.field o) s' <;> rfl

/-- Everything a step of an idle block can do (20_memory.md R41, 30_encoding.md R86). -/
theorem step_idle_cases {s t : State} (h : s.activity = .idle) (ht : step s = .next t) :
    (s.cmds = [] ∧ t = s) ∨
    ∃ c rest i, s.cmds = c :: rest ∧ decodeCommand c = .ok i ∧ exec i { s with cmds := rest } = .next t := by
  rw [step_idle h, fetchCommand] at ht
  split at ht
  · rename_i hc
    cases ht
    exact .inl ⟨hc, rfl⟩
  · rename_i c rest hc
    split at ht
    · rename_i i hi
      exact .inr ⟨c, rest, i, hc, hi, ht⟩
    · cases ht

/-- Everything the zero fill can do (42_unpack.md R143). -/
theorem prezero_spec (w h : Dim) (s : State) :
    ∃ m, prezero w h s = { s with pix := m } ∧ m.len = s.pix.len ∧ (s.pix.wf = true → m.wf = true) ∧
      ∀ j, m.read j =
        if s.cfg.unpackPrezero = .block ∧ j < pixelCount w h then 0x00 else s.pix.read j := by
  unfold prezero
  split
  · rename_i hc
    refine ⟨_, rfl, rfl, fun hw => Memory.wf_zeroFill hw _, fun j => ?_⟩
    simp only [hc, true_and]
    exact Memory.read_zeroFill _ _ _
  · rename_i hc
    exact ⟨s.pix, rfl, rfl, id, fun j => by simp [hc]⟩

/-- Everything the start of an unpack can do: `UsageError`, an empty image done, or the first row ready
(42_unpack.md R141 to R144, R148). -/
theorem startUnpack_cases (w h : Dim) (s : State) :
    (s.pix.len < pixelCount w h ∧ startUnpack w h s = raise .usageError s) ∨
    (pixelCount w h ≤ s.pix.len ∧ ∃ m, m.len = s.pix.len ∧ (s.pix.wf = true → m.wf = true) ∧
      (∀ j, m.read j = if s.cfg.unpackPrezero = .block ∧ j < pixelCount w h then 0x00 else s.pix.read j) ∧
      ((emptyImage w h = true ∧ startUnpack w h s = succeed 0 0 { s with pix := m }) ∨
       (emptyImage w h = false ∧ startUnpack w h s =
          { s with pix := m, row := 0, col := 0, rowbuf := [], activity := .reading (.pixelRow w h) }))) := by
  obtain ⟨m, hm, hs⟩ := prezero_spec w h s
  unfold startUnpack
  by_cases hl : pixTooShort s.pix.len w h = true
  · rw [if_pos hl]
    exact .inl ⟨by simpa [pixTooShort] using hl, rfl⟩
  · rw [if_neg hl]
    refine .inr ⟨by simpa [pixTooShort] using hl, m, hs.1, hs.2.1, hs.2.2, ?_⟩
    by_cases he : emptyImage w h = true
    · rw [if_pos he, hm]
      exact .inl ⟨he, rfl⟩
    · rw [if_neg he, hm]
      exact .inr ⟨by simpa using he, rfl⟩

/-- The start of an unpack writes at most `PIX` (42_unpack.md R142, R143). -/
theorem startUnpack_frame (w h : Dim) (s : State) :
    ReadFrame s (startUnpack w h s) ∧ SameRegisters s (startUnpack w h s) ∧ SameSource s (startUnpack w h s) ∧
      (startUnpack w h s).pix.len = s.pix.len := by
  rcases startUnpack_cases w h s with ⟨_, e⟩ | ⟨_, m, hl, _, _, ⟨_, e⟩ | ⟨_, e⟩⟩
  · rw [e]
    exact ⟨ReadFrame.refl s, ⟨rfl, rfl, rfl, rfl, rfl, rfl⟩, ⟨rfl, rfl, rfl⟩, rfl⟩
  all_goals
    rw [e]
    exact ⟨ReadFrame.refl s, ⟨rfl, rfl, rfl, rfl, rfl, rfl⟩, ⟨rfl, rfl, rfl⟩, hl⟩

/-- The write loop of a whole operation leaves alone what a write does. -/
theorem runWriter_frame {s t : State} (h : runWriter s = .next t) : WriteFrame s t ∧ s.snk <+: t.snk := by
  unfold runWriter at h
  split at h
  · exact writeLoop_frame h
  · cases h
    exact ⟨WriteFrame.refl _, List.prefix_rfl⟩

/-- What a pack leaves alone (44_pack.md R186). -/
theorem runPack_frame {k : ColorKind} {w h : Dim} {x : Octet} {s t : State} (ht : runPack k w h x s = .next t) :
    WriteFrame s t ∧ s.snk <+: t.snk := by
  obtain ⟨u, hu, ht⟩ := andThen_eq_next ht
  obtain ⟨h1, h2, -⟩ := startPack_frame hu
  obtain ⟨h3, h4⟩ := runWriter_frame ht
  refine ⟨WriteFrame.trans (WriteFrame.trans (WriteFrame.refl s) h1) h3, ?_⟩
  rw [h2.1] at h4
  exact h4

/-- What an encode leaves alone (45_orchestration.md R207). -/
theorem runEncode_frame {k : ColorKind} {w h : Dim} {s t : State} (ht : runEncode k w h s = .next t) :
    WriteFrame s t ∧ s.snk <+: t.snk := by
  unfold runEncode at ht
  split at ht
  · cases ht
    exact ⟨WriteFrame.refl s, List.prefix_rfl⟩
  · obtain ⟨h1, h2⟩ := runWriter_frame ht
    exact ⟨WriteFrame.trans (WriteFrame.refl s) h1, h2⟩

end Sys2Proof.Machine
end

