-- ==== Sys2Proof/Laws/Scripts.lean ====
section
/-! SUPPORT. What becomes of an operation for a script of the environment's answers: the reads delivered before one
that fails or is not answered do what they do on a plain source (20_memory.md R43, R48), and the steps after an
unanswered write go on with the octets still to be written (R45, R48). -/

namespace Sys2Proof.Machine

/-! ## The answers still to come -/

/-- The state with other answers to the coming reads. -/
def withAnswers (a : List ReadAnswer) (s : State) : State := { s with srcAnswers := a }

@[simp] theorem withAnswers_activity (a : List ReadAnswer) (s : State) : (withAnswers a s).activity = s.activity := rfl
@[simp] theorem withAnswers_src (a : List ReadAnswer) (s : State) : (withAnswers a s).src = s.src := rfl
@[simp] theorem withAnswers_ipos (a : List ReadAnswer) (s : State) : (withAnswers a s).ipos = s.ipos := rfl
@[simp] theorem withAnswers_srcAnswers (a : List ReadAnswer) (s : State) : (withAnswers a s).srcAnswers = a := rfl
@[simp] theorem withAnswers_withAnswers (a b : List ReadAnswer) (s : State) :
    withAnswers a (withAnswers b s) = withAnswers a s := rfl

/-- A state has the answers it has. -/
theorem withAnswers_self {a : List ReadAnswer} {s : State} (h : s.srcAnswers = a) : withAnswers a s = s := by
  rw [← h]
  rfl

/-- Inspecting the bits of a row does not see the answers still to come. -/
theorem inspectBits_withAnswers (w : Dim) (bs : List Bool) (a : List ReadAnswer) (s : State) :
    inspectBits w bs (withAnswers a s) = andThen (inspectBits w bs s) (fun t => .next (withAnswers a t)) := by
  induction bs generalizing s with
  | nil => rfl
  | cons b rest ih =>
    have h1 : inspectBit w b (withAnswers a s) = andThen (inspectBit w b s) (fun t => .next (withAnswers a t)) := by
      unfold inspectBit
      by_cases hc : s.col = w
      · rw [if_pos hc, if_pos (by exact hc)]; rfl
      · rw [if_neg hc, if_neg (by exact hc)]
        cases b with
        | false => rfl
        | true =>
          simp only [if_true]
          show (match memWrite s.pix (pixelIndex w s.row s.col) Config.white with
            | some m => _ | none => _) = _
          cases memWrite s.pix (pixelIndex w s.row s.col) Config.white <;> rfl
    simp only [inspectBits]
    rw [h1]
    cases inspectBit w b s with
    | next t => exact ih t
    | fault => rfl
    | refused => rfl

/-- An octet does the same whatever the answers to the reads after it. -/
theorem receive_withAnswers {r : Reader} {s : State} (ha : s.activity = .reading r) (o : Octet)
    (a : List ReadAnswer) :
    receive (decodeOctet r.field o) (withAnswers a s)
      = andThen (receive (decodeOctet r.field o) s) (fun t => .next (withAnswers a t)) := by
  have ha' : (withAnswers a s).activity = .reading r := ha
  cases r with
  | typeField d =>
    refine (receive_typeField ha' o).trans ?_
    rw [show Reader.field (.typeField d) = .typeField from rfl, receive_typeField ha o, andThen_next]
    split <;> rfl
  | fixHeader d =>
    refine (receive_fixHeader ha' o).trans ?_
    rw [show Reader.field (.fixHeader d) = .fixHeader from rfl, receive_fixHeader ha o, andThen_next]
    split <;> rfl
  | width d =>
    refine (receive_width ha' o).trans ?_
    rw [show Reader.field (.width d) = .width from rfl, receive_width ha o, andThen_next]
    split <;> rfl
  | height d w =>
    refine (receive_height ha' o).trans ?_
    rw [show Reader.field (.height d w) = .height from rfl, receive_height ha o, andThen_next]
    split
    · rfl
    · cases d <;> rfl
  | value =>
    refine (receive_value ha' o).trans ?_
    rw [show Reader.field .value = .value from rfl, receive_value ha o, andThen_next]
    split <;> rfl
  | pixelRow w h =>
    by_cases hl : s.rowbuf.length + 1 < rowOctets w
    · refine (receive_pixel_part ha' o hl).trans ?_
      rw [show Reader.field (.pixelRow w h) = .pixelData from rfl, receive_pixel_part ha o hl]
      rfl
    · refine (receive_pixel_last ha' o (by show _ ≤ s.rowbuf.length + 1; omega)).trans ?_
      rw [show Reader.field (.pixelRow w h) = .pixelData from rfl, receive_pixel_last ha o (by omega)]
      have hb := inspectBits_withAnswers w ((s.rowbuf ++ [o]).flatMap octetBits) a
        { s with rowbuf := s.rowbuf ++ [o], col := 0 }
      refine (congrArg (fun x => andThen x (fun s2 => .next (rowDone h s2))) hb).trans ?_
      unfold inspectRow
      cases inspectBits w ((s.rowbuf ++ [o]).flatMap octetBits) { s with rowbuf := s.rowbuf ++ [o], col := 0 } with
      | next t =>
        simp only [andThen_next, rowDone]
        by_cases hc : t.row + 1 = h
        · rw [if_pos hc, if_pos (by exact hc)]; rfl
        · rw [if_neg hc, if_neg (by exact hc)]; rfl
      | fault => rfl
      | refused => rfl

/-! ## The read loop -/

/-- The loop may be cut at any read. -/
theorem readLoop_add (n m : Nat) (s : State) : readLoop (n + m) s = andThen (readLoop n s) (readLoop m) := by
  induction n generalizing s with
  | zero => rw [Nat.zero_add]; rfl
  | succ n ih =>
    rw [Nat.succ_add]
    by_cases ha : ∃ r, s.activity = .reading r
    · obtain ⟨r, ha⟩ := ha
      cases hd : srcRead s with
      | silent =>
        rw [readLoop_silent ha hd, readLoop_silent ha hd, andThen_next]
        cases m with
        | zero => rfl
        | succ m => rw [readLoop_silent ha hd]
      | failed c u => rw [readLoop_failed ha hd, readLoop_failed ha hd, andThen_next, readLoop_raise]
      | delivered o u =>
        rw [readLoop_delivered ha hd, readLoop_delivered ha hd]
        cases receive (decodeOctet r.field o) u with
        | next t => exact ih t
        | fault => rfl
        | refused => rfl
    · have h : ∀ r, s.activity ≠ .reading r := fun r e => ha ⟨r, e⟩
      rw [readLoop_not_reading h, readLoop_not_reading h, andThen_next, readLoop_not_reading h]

/-- Reads that are all delivered do what they do on a plain source, and leave the rest of the script
(20_memory.md R43). -/
theorem readLoop_delivers {n : Nat} {s t : State} (rest : List ReadAnswer)
    (hp : s.srcAnswers = List.replicate n .deliver ++ rest) (hl : n ≤ s.srcLeft)
    (hr : readLoop n (withAnswers [] s) = .next t) (ht : t.ipos = s.ipos + n) :
    readLoop n s = .next (withAnswers rest t) := by
  induction n generalizing s with
  | zero =>
    cases hr
    exact congrArg Host.Outcome.next (withAnswers_self hp).symm
  | succ n ih =>
    by_cases ha : ∃ r, s.activity = .reading r
    · obtain ⟨r, ha⟩ := ha
      have hlt : s.ipos < s.src.length := by rw [State.srcLeft] at hl; omega
      have ho : s.src[s.ipos]? = some s.src[s.ipos] := List.getElem?_eq_getElem hlt
      have hd : srcRead s = .delivered s.src[s.ipos]
          (withAnswers (List.replicate n .deliver ++ rest) { s with ipos := s.ipos + 1 }) := by
        simp [srcRead, hp, srcDeliver, ho, List.replicate_succ, withAnswers]
      have hd' : srcRead (withAnswers [] s) = .delivered s.src[s.ipos] (withAnswers [] { s with ipos := s.ipos + 1 }) :=
        srcRead_plain_some rfl ho
      rw [readLoop_delivered (by exact ha) hd', receive_withAnswers (by exact ha)] at hr
      rw [readLoop_delivered ha hd, receive_withAnswers (by exact ha)]
      cases hc : receive (decodeOctet r.field s.src[s.ipos]) { s with ipos := s.ipos + 1 } with
      | next u =>
        rw [hc, andThen_next, andThen_next] at hr
        rw [andThen_next, andThen_next]
        obtain ⟨hf, hi, -, -⟩ := receive_frame hc
        have hi : u.ipos = s.ipos + 1 := hi
        have hsrc : u.src = s.src := hf.2.2.2.1
        exact ih (s := withAnswers (List.replicate n .deliver ++ rest) u) rfl
          (by show n ≤ u.src.length - u.ipos; rw [State.srcLeft] at hl; rw [hi, hsrc]; omega) hr (by show t.ipos = u.ipos + n; omega)
      | fault => rw [hc] at hr; cases hr
      | refused => rw [hc] at hr; cases hr
    · have h : ∀ r, (withAnswers [] s).activity ≠ .reading r := fun r e => ha ⟨r, e⟩
      rw [readLoop_not_reading h] at hr
      cases hr
      have : s.ipos = s.ipos + (n + 1) := ht
      omega

/-- The read after delivered ones fails: the operation ends with the environment's cause, `EOS` at the end of the
source (20_memory.md R43, 60_exceptions.md R221). -/
theorem readLoop_script_failed {n m : Nat} {s t : State} {r : Reader} {c : IoCause} {rest : List ReadAnswer}
    (hp : s.srcAnswers = List.replicate n .deliver ++ .fail c :: rest) (hl : n ≤ s.srcLeft)
    (hr : readLoop n (withAnswers [] s) = .next t) (ht : t.ipos = s.ipos + n) (ha : t.activity = .reading r) :
    readLoop (n + (m + 1)) s = .next
      (raise (.ioError (if s.ipos + n < s.src.length then c else .eos)) (withAnswers rest t)) := by
  have hsrc : t.src = s.src := (readLoop_frame hr).1.2.2.2.1
  rw [readLoop_add, readLoop_delivers _ hp hl hr ht, andThen_next]
  refine readLoop_failed (r := r) (s := withAnswers (.fail c :: rest) t) ha ?_ m
  simp [srcRead, withAnswers, ht, hsrc]

/-- The read after delivered ones is not answered: the operation stands at it (20_memory.md R48). -/
theorem readLoop_script_silent {n m : Nat} {s t : State} {r : Reader} {rest : List ReadAnswer}
    (hp : s.srcAnswers = List.replicate n .deliver ++ .silent :: rest) (hl : n ≤ s.srcLeft)
    (hr : readLoop n (withAnswers [] s) = .next t) (ht : t.ipos = s.ipos + n) (ha : t.activity = .reading r) :
    readLoop (n + (m + 1)) s = .next (withAnswers (.silent :: rest) t) := by
  rw [readLoop_add, readLoop_delivers _ hp hl hr ht, andThen_next]
  exact readLoop_silent (r := r) (s := withAnswers (.silent :: rest) t) ha (srcRead_silent.mpr ⟨rest, rfl⟩) m

/-- The operation ends with the last of the delivered reads: the rest of the script is kept. -/
theorem readLoop_script_ended {n m : Nat} {s t : State} {rest : List ReadAnswer}
    (hp : s.srcAnswers = List.replicate n .deliver ++ rest) (hl : n ≤ s.srcLeft)
    (hr : readLoop n (withAnswers [] s) = .next t) (ht : t.ipos = s.ipos + n) (ha : t.activity = .idle) :
    readLoop (n + m) s = .next (withAnswers rest t) := by
  rw [readLoop_add, readLoop_delivers _ hp hl hr ht, andThen_next]
  exact readLoop_not_reading (fun r h => by rw [withAnswers_activity, ha] at h; cases h) m

/-! ## Headers and rows that stop short -/

/-- Octets that stop short of a whole header are all taken, and another read is due (41_header.md R121, R124). -/
theorem readLoop_stopsShort {d : HeaderDest} {os tail : List Octet} (h : StopsShort os) {s : State}
    (ha : s.activity = .reading (.typeField d)) (hp : s.srcAnswers = []) (hs : s.src.drop s.ipos = os ++ tail) :
    ∃ acc r, readLoop os.length s =
      .next { s with ipos := s.ipos + os.length, acc := acc, activity := .reading r } := by
  have two : ∀ f rest, s.src.drop s.ipos = 0x00 :: f :: rest → f.getLsbD 7 = false → ∀ n,
      readLoop (n + 1 + 1) s =
        readLoop n { s with ipos := s.ipos + 1 + 1, acc := 0, activity := .reading (.width d) } := by
    intro f rest hs hf n
    obtain ⟨_, h2⟩ := getElem?_of_drop hs
    rw [readLoop_delivered ha (srcRead_plain_cons hp hs), show (Reader.typeField d).field = .typeField from rfl,
      receive_typeField (by exact ha), if_pos rfl, andThen_next,
      readLoop_delivered (r := .fixHeader d) rfl (srcRead_plain_cons (by exact hp) (by exact h2)),
      show (Reader.fixHeader d).field = .fixHeader from rfl, receive_fixHeader (d := d) rfl,
      if_neg (ne_true_of_eq_false hf), andThen_next]
    rfl
  rcases h with ⟨rfl, -, -⟩ | ⟨t, tl, -, -, he, -⟩ | ⟨rfl, -, -⟩ | ⟨f, tl, -, -, he, -⟩ |
    ⟨f, ws, rfl, hf, hc, -, -⟩ | ⟨f, ws, hs', rfl, hf, hw, hc, -, -⟩
  · refine ⟨s.acc, .typeField d, ?_⟩
    rw [← ha]
    rfl
  · cases he
  · refine ⟨s.acc, .fixHeader d, ?_⟩
    rw [List.length_singleton, readLoop_delivered (n := 0) ha (srcRead_plain_cons hp hs),
      show (Reader.typeField d).field = .typeField from rfl, receive_typeField (by exact ha), if_pos rfl]
    rfl
  · cases he
  · obtain ⟨_, h2⟩ := getElem?_of_drop hs
    obtain ⟨_, h3⟩ := getElem?_of_drop h2
    have hrun := readLoop_conts (r := .width d) rfl ws tail hc 0
      (s := { s with ipos := s.ipos + 1 + 1, acc := 0, activity := .reading (.width d) }) rfl hp h3
    rw [Nat.zero_add] at hrun
    refine ⟨ws.foldl (fun a o => vleAccumulate a (o.extractLsb' 0 7)) 0, .width d,
      ((two f (ws ++ tail) hs hf ws.length).trans hrun).trans ?_⟩
    rw [List.length_cons, List.length_cons, show s.ipos + (ws.length + 1 + 1) = s.ipos + 1 + 1 + ws.length by omega]
    rfl
  · have hs'' : s.src.drop s.ipos = 0x00 :: f :: (ws ++ (hs' ++ tail)) := by rw [hs]; simp
    obtain ⟨_, h2⟩ := getElem?_of_drop hs''
    obtain ⟨_, h3⟩ := getElem?_of_drop h2
    have h4 : s.src.drop (s.ipos + 1 + 1 + ws.length) = hs' ++ tail := by
      rw [← List.drop_drop, h3, List.drop_left]
    have hlen : (0x00 :: f :: (ws ++ hs')).length = hs'.length + ws.length + 1 + 1 := by simp; omega
    have hrun := readLoop_conts (r := .height d (vleValue ws)) rfl hs' tail hc 0
      (s := { s with
        ipos := s.ipos + 1 + 1 + ws.length, acc := 0, activity := .reading (.height d (vleValue ws)) }) rfl hp h4
    rw [Nat.zero_add] at hrun
    have hwid := readLoop_width hw hs'.length (d := d)
      (s := { s with ipos := s.ipos + 1 + 1, acc := 0, activity := .reading (.width d) }) rfl rfl hp h3
    refine ⟨hs'.foldl (fun a o => vleAccumulate a (o.extractLsb' 0 7)) 0, .height d (vleValue ws), ?_⟩
    rw [hlen]
    refine (((two f _ hs'' hf _).trans hwid).trans hrun).trans ?_
    rw [show s.ipos + (hs'.length + ws.length + 1 + 1) = s.ipos + 1 + 1 + ws.length + hs'.length by omega]
    rfl

/-- Whole rows and part of the next are taken, and another read is due: `PIX` holds the whole rows (42_unpack.md R144
to R146). -/
theorem readLoop_partRow {w h : Dim} (k d : Nat) {s : State} (hr : s.activity = .reading (.pixelRow w h))
    (hp : s.srcAnswers = []) (hb : s.rowbuf = []) (hk : s.row.toNat + k < h.toNat) (hd : d < rowOctets w)
    (hs : s.ipos + k * rowOctets w + d ≤ s.src.length) (hw : 0 < w.toNat) (hwf : s.pix.wf = true)
    (hin : h.toNat * w.toNat ≤ s.pix.len) :
    ∃ m row c os, readLoop (k * rowOctets w + d) s =
        .next { s with ipos := s.ipos + k * rowOctets w + d, pix := m, row := row, col := c, rowbuf := os } ∧
      m.len = s.pix.len ∧
      ∀ j, m.read j =
        if s.row.toNat * w.toNat ≤ j ∧ j < (s.row.toNat + k) * w.toNat ∧
            streamBit s.src s.ipos w ((j - s.row.toNat * w.toNat) / w.toNat)
              ((j - s.row.toNat * w.toNat) % w.toNat) = true
        then Config.white else s.pix.read j := by
  obtain ⟨m, row, c, g1, -, -, g3, g4⟩ := readLoop_someRows k d hr hp hb hk (by omega) hw hwf hin
  refine ⟨m, row, c, (s.src.drop (s.ipos + k * rowOctets w)).take d, ?_, g3, g4⟩
  rw [Nat.add_comm, g1]
  have hlen : ((s.src.drop (s.ipos + k * rowOctets w)).take d).length = d := by
    rw [List.length_take, List.length_drop]; omega
  have := readLoop_rowPart (w := w) (h := h) ((s.src.drop (s.ipos + k * rowOctets w)).take d)
    ((s.src.drop (s.ipos + k * rowOctets w)).drop d) 0
    (s := { s with ipos := s.ipos + k * rowOctets w, pix := m, row := row, col := c }) hr hp
    (List.take_append_drop _ _).symm (by rw [hlen]; show s.rowbuf.length + d < _; rw [hb]; simpa using hd)
  rw [hlen, Nat.zero_add] at this
  rw [this]
  show Host.Outcome.next { s with
    ipos := s.ipos + k * rowOctets w + d, pix := m, row := row, col := c, rowbuf := s.rowbuf ++ _ } = _
  rw [hb, List.nil_append]

/-! ## Writes that go on after an unanswered one -/

/-- What is still to be written does not depend on the answers of the sink. -/
theorem pending_withSink {base : List Result} {r : Result} {os : List Octet} {s : State}
    (h : Pending base r os s) (a : List WriteAnswer) : Pending base r os { s with snkAnswers := a } := by
  cases os with
  | nil => exact h
  | cons o os =>
    obtain ⟨h1, w, h2, h3, h4⟩ := h
    refine ⟨h1, w, h2, ?_, h4⟩
    cases w <;> exact h3

/-- Each step of a blocked write with a plain sink writes one octet, and the last ends the operation (20_memory.md
R45, R48). -/
theorem pending_steps {base : List Result} {r : Result} (m : Nat) {os : List Octet} {s : State}
    (h : Pending base r os s) (hm : m ≤ os.length) (hp : s.snkAnswers = []) :
    ∃ t, runSteps m s = .next t ∧ WriteFrame s t ∧ t.snk = s.snk ++ os.take m ∧ Pending base r (os.drop m) t := by
  induction m generalizing os s with
  | zero => exact ⟨s, rfl, WriteFrame.refl s, by simp, h⟩
  | succ m ih =>
    cases os with
    | nil => simp at hm
    | cons o os =>
      obtain ⟨_, w, ha, _⟩ := id h
      obtain ⟨t, h1, h2, h3, h4, h5⟩ := pending_accepted (s' := { s with snk := s.snk ++ [o] }) h
        ⟨[], by rw [← hp]⟩ (fun b hb => by rw [hb]; exact snkWrite_plain hp) 0
      obtain ⟨u, g1, g2, g3, g4⟩ := ih h5 (by simpa using hm) (h3.trans hp)
      refine ⟨u, ?_, h4.trans g2, by rw [g3, h2, List.append_assoc]; rfl, g4⟩
      rw [runSteps, step_writing ha, h1]
      exact g1

end Sys2Proof.Machine
end

