-- ==== Sys2Proof/Laws/Consumed.lean ====
section
/-! SUPPORT. What a read operation has consumed, for every script of the source: the octets between the position it
began at and the one it stands at, and what its result says of them (40_vle.md R101, 41_header.md R121,
60_exceptions.md R231). -/

namespace Sys2Proof.Machine

/-- The accumulator after some octets of an integer (40_vle.md R101). -/
def accumulated (os : List Octet) : Dim := os.foldl (fun a o => vleAccumulate a (o.extractLsb' 0 7)) 0

theorem accumulated_snoc (os : List Octet) (o : Octet) :
    accumulated (os ++ [o]) = vleAccumulate (accumulated os) (o.extractLsb' 0 7) := by simp [accumulated]

theorem accumulated_eq (os : List Octet) : accumulated os = vleValue os := foldl_vleAccumulate_zero os

/-- Octets with bit 7 set, then one with bit 7 clear, are an integer (30_encoding.md R75). -/
theorem isVleInteger_snoc {cs : List Octet} {o : Octet} (hc : ∀ x ∈ cs, x.getLsbD 7 = true)
    (ho : o.getLsbD 7 = false) : isVleInteger (cs ++ [o]) = true := by
  induction cs with
  | nil => simpa [isVleInteger] using ho
  | cons x xs ih =>
    exact isVleInteger_cons (hc x (List.mem_cons_self ..)) (ih fun y hy => hc y (List.mem_cons_of_mem _ hy))

/-- One more octet with bit 7 set. -/
theorem continues_snoc {cs : List Octet} {o : Octet} (hc : ∀ x ∈ cs, x.getLsbD 7 = true) (ho : o.getLsbD 7 = true) :
    ∀ x ∈ cs ++ [o], x.getLsbD 7 = true := by
  intro x hx
  rcases List.mem_append.mp hx with h | h
  · exact hc x h
  · rw [List.mem_singleton.mp h]; exact ho

/-- An error is no success. -/
theorem record_ne_okRecord (e : Err) (a b : Dim) : e.record ≠ okRecord a b := by
  cases e <;> (intro h; cases h)

/-- The progress of a read operation begun at `s0`: some octets are consumed, and either it has ended with a result `R`
allows for them, or it stands at a field where `Q` holds of the accumulator and them. -/
def Progress (s0 : State) (Q : Reader → Dim → List Octet → Prop) (R : Result → List Octet → Prop) (u : State) : Prop :=
  u.src = s0.src ∧ ∃ os, s0.src.drop s0.ipos = os ++ u.src.drop u.ipos ∧ u.ipos = s0.ipos + os.length ∧
    ((u.activity = .idle ∧ ∃ r, R r os ∧ u.results = s0.results ++ [r]) ∨
     (∃ r, u.activity = .reading r ∧ Q r u.acc os ∧ u.results = s0.results))

/-- The read loop keeps the progress if one octet does. -/
theorem progress_readLoop {s0 : State} {Q : Reader → Dim → List Octet → Prop} {R : Result → List Octet → Prop}
    (hio : ∀ c os, R (Err.record (.ioError c)) os)
    (hstep : ∀ r o os s t, Q r s.acc os → s.activity = .reading r → s.results = s0.results →
      receive (decodeOctet r.field o) s = .next t →
      (t.activity = .idle ∧ ∃ r, R r (os ++ [o]) ∧ t.results = s0.results ++ [r]) ∨
      (∃ r, t.activity = .reading r ∧ Q r t.acc (os ++ [o]) ∧ t.results = s0.results))
    {n : Nat} {s t : State} (h : Progress s0 Q R s) (ht : readLoop n s = .next t) : Progress s0 Q R t := by
  refine readLoop_induct (P := Progress s0 Q R) ?_ ?_ h ht
  · rintro s r c s' ⟨h0, os, h1, h2, hc⟩ ha hd
    obtain ⟨_, rest, rfl⟩ := srcRead_failed hd
    refine ⟨h0, os, h1, h2, ?_⟩
    rcases hc with ⟨e, _⟩ | ⟨r', e, q, hb⟩
    · rw [e] at ha; cases ha
    · exact .inl ⟨rfl, _, hio c _, by show s.results ++ _ = _; rw [hb]⟩
  · rintro s r o s' t ⟨h0, os, h1, h2, hc⟩ ha hd hr
    obtain ⟨ho, rest, rfl⟩ := srcRead_delivered hd
    obtain ⟨hf, hi, _, _⟩ := receive_frame hr
    have hi : t.ipos = s.ipos + 1 := hi
    have hsrc : t.src = s.src := hf.2.2.2.1
    refine ⟨hsrc.trans h0, os ++ [o], ?_, by rw [hi, h2]; simp; omega, ?_⟩
    · rw [h1, hsrc, hi, List.append_assoc]
      obtain ⟨hlt, ho'⟩ := List.getElem?_eq_some_iff.mp ho
      rw [List.drop_eq_getElem_cons hlt, ho']
      rfl
    · rcases hc with ⟨e, _⟩ | ⟨r', e, q, hb⟩
      · rw [e] at ha; cases ha
      · rw [e] at ha; cases ha
        exact hstep _ o os _ _ (by exact q) (by exact e) (by exact hb) hr

/-- The result of an ended operation fits what it has consumed. -/
theorem progress_consumed {s0 t : State} {Q : Reader → Dim → List Octet → Prop} {R : Result → List Octet → Prop}
    (h : Progress s0 Q R t) {r : Result} (hr : t.results = s0.results ++ [r]) : R r (consumed s0 t) := by
  obtain ⟨h0, os, h1, h2, hc⟩ := h
  have : consumed s0 t = os := by
    rw [consumed, h1, h2, Nat.add_sub_cancel_left]
    exact List.take_left
  rw [this]
  rcases hc with ⟨_, r', hR, e⟩ | ⟨_, _, _, e⟩
  · rw [hr] at e
    simp at e
    rw [e]
    exact hR
  · rw [hr] at e
    simp at e

/-- What a header read for the result port has consumed, by the field where it stands (41_header.md R121). -/
def headerSoFar : Reader → Dim → List Octet → Prop
  | .typeField d, _, os => d = .deliver ∧ os = []
  | .fixHeader d, _, os => d = .deliver ∧ os = [0x00]
  | .width d, a, os => d = .deliver ∧ ∃ f cs, os = 0x00 :: f :: cs ∧ f.getLsbD 7 = false ∧
      (∀ x ∈ cs, x.getLsbD 7 = true) ∧ a = accumulated cs
  | .height d w, a, os => d = .deliver ∧ ∃ f ws cs, os = 0x00 :: f :: (ws ++ cs) ∧ f.getLsbD 7 = false ∧
      isVleInteger ws = true ∧ w = vleValue ws ∧ (∀ x ∈ cs, x.getLsbD 7 = true) ∧ a = accumulated cs
  | .value, _, _ => False
  | .pixelRow _ _, _, _ => False

/-- The result of a header read for the result port: an error, or the width and height consumed. -/
def headerResult (r : Result) (os : List Octet) : Prop :=
  (∃ e : Err, r = e.record) ∨ ∃ f ws hs, os = 0x00 :: f :: (ws ++ hs) ∧ f.getLsbD 7 = false ∧
    isVleInteger ws = true ∧ isVleInteger hs = true ∧ r = okRecord (vleValue ws) (vleValue hs)

/-- The read loop of `RDHDR`. -/
theorem progress_header {s0 s t : State} {n : Nat} (h : Progress s0 headerSoFar headerResult s)
    (ht : readLoop n s = .next t) : Progress s0 headerSoFar headerResult t := by
  refine progress_readLoop (fun c os => .inl ⟨_, rfl⟩) ?_ h ht
  intro r o os s t q ha hb hr
  have raised : ∀ e : Err, (raise e s).activity = .idle ∧
      ∃ r, headerResult r (os ++ [o]) ∧ (raise e s).results = s0.results ++ [r] :=
    fun e => ⟨rfl, _, .inl ⟨e, rfl⟩, by rw [← hb]; rfl⟩
  cases r <;> simp only [headerSoFar] at q
  case typeField =>
    obtain ⟨rfl, rfl⟩ := q
    cases (receive_typeField ha o).symm.trans hr
    split
    · rename_i ho
      exact .inr ⟨_, rfl, ⟨rfl, by rw [ho]; rfl⟩, hb⟩
    · exact .inl (raised _)
  case fixHeader =>
    obtain ⟨rfl, rfl⟩ := q
    cases (receive_fixHeader ha o).symm.trans hr
    split
    · exact .inl (raised _)
    · rename_i ho
      exact .inr ⟨_, rfl, ⟨rfl, o, [], rfl, by simpa using ho, by simp, rfl⟩, hb⟩
  case width =>
    obtain ⟨rfl, f, cs, rfl, hf, hc, hac⟩ := q
    cases (receive_width ha o).symm.trans hr
    split
    · rename_i ho
      exact .inr ⟨_, ha, ⟨rfl, f, cs ++ [o], rfl, hf, continues_snoc hc ho, by rw [accumulated_snoc, ← hac]⟩, hb⟩
    · rename_i ho
      refine .inr ⟨_, rfl, ⟨rfl, f, cs ++ [o], [], by simp, hf, isVleInteger_snoc hc (by simpa using ho), ?_, by simp,
        rfl⟩, hb⟩
      rw [← accumulated_eq, accumulated_snoc, ← hac]
  case height =>
    obtain ⟨rfl, f, ws, cs, rfl, hf, hws, hw, hc, hac⟩ := q
    cases (receive_height ha o).symm.trans hr
    split
    · rename_i ho
      exact .inr ⟨_, ha, ⟨rfl, f, ws, cs ++ [o], by simp, hf, hws, hw, continues_snoc hc ho,
        by rw [accumulated_snoc, ← hac]⟩, hb⟩
    · rename_i ho
      refine .inl ⟨rfl, _, .inr ⟨f, ws, cs ++ [o], by simp, hf, hws, isVleInteger_snoc hc (by simpa using ho), ?_⟩,
        by rw [← hb]; rfl⟩
      rw [← accumulated_eq (cs ++ [o]), accumulated_snoc, ← hac, hw]

/-- What a `VLDEC` has consumed (40_vle.md R101). -/
def integerSoFar : Reader → Dim → List Octet → Prop
  | .value, a, os => (∀ x ∈ os, x.getLsbD 7 = true) ∧ a = accumulated os
  | .typeField _, _, _ | .fixHeader _, _, _ | .width _, _, _ | .height _ _, _, _ | .pixelRow _ _, _, _ => False

/-- The result of a `VLDEC`: an error, or the value of the integer consumed. -/
def integerResult (r : Result) (os : List Octet) : Prop :=
  (∃ e : Err, r = e.record) ∨ isVleInteger os = true ∧ r = okRecord (vleValue os) 0

/-- The read loop of `VLDEC`. -/
theorem progress_integer {s0 s t : State} {n : Nat} (h : Progress s0 integerSoFar integerResult s)
    (ht : readLoop n s = .next t) : Progress s0 integerSoFar integerResult t := by
  refine progress_readLoop (fun c os => .inl ⟨_, rfl⟩) ?_ h ht
  intro r o os s t q ha hb hr
  cases r <;> simp only [integerSoFar] at q
  obtain ⟨hc, hac⟩ := q
  cases (receive_value ha o).symm.trans hr
  split
  · rename_i ho
    exact .inr ⟨_, ha, ⟨continues_snoc hc ho, by rw [accumulated_snoc, ← hac]⟩, hb⟩
  · rename_i ho
    refine .inl ⟨rfl, _, .inr ⟨isVleInteger_snoc hc (by simpa using ho), ?_⟩, by rw [← hb]; rfl⟩
    rw [← accumulated_eq, accumulated_snoc, ← hac]

/-- A read operation that begins has consumed nothing. -/
theorem progress_begin {s0 u : State} {Q : Reader → Dim → List Octet → Prop} {R : Result → List Octet → Prop}
    {r : Reader} (hs : u.src = s0.src) (hi : u.ipos = s0.ipos) (hr : u.results = s0.results)
    (ha : u.activity = .reading r) (hq : Q r u.acc []) : Progress s0 Q R u :=
  ⟨hs, [], by rw [hs, hi]; rfl, hi, .inr ⟨r, ha, hq, hr⟩⟩

end Sys2Proof.Machine
end

