-- ==== Sys2Proof/Laws/Decode.lean ====
section
/-! SUPPORT. Lemmas about the command word and the octet decoder: the fields of `commandWord`, and what decoding
answers at each low byte. -/

namespace Sys2Proof

/-- The bits of two 32-bit and two 8-bit fields laid side by side. -/
theorem fields_getLsbD (b a : BitVec 32) (imm low : BitVec 8) (j : Nat) :
    BitVec.getLsbD (w := 32 + 32 + 8 + 8) (b ++ a ++ imm ++ low) j =
      if j < 8 then low.getLsbD j else if j < 16 then imm.getLsbD (j - 8)
      else if j < 48 then a.getLsbD (j - 16) else b.getLsbD (j - 48) := by
  simp only [BitVec.getLsbD_append]
  split_ifs <;> first | rfl | omega

@[simp] theorem commandWord_low (b a : Dim) (imm low : Octet) : (commandWord b a imm low).low = low := by
  apply BitVec.eq_of_getLsbD_eq
  intro j hj
  refine (BitVec.getLsbD_extractLsb' ..).trans ?_
  rw [show (commandWord b a imm low).getLsbD (0 + j) = _ from fields_getLsbD b a imm low (0 + j)]
  simp [hj]

@[simp] theorem commandWord_imm8 (b a : Dim) (imm low : Octet) : (commandWord b a imm low).imm8 = imm := by
  apply BitVec.eq_of_getLsbD_eq
  intro j hj
  refine (BitVec.getLsbD_extractLsb' ..).trans ?_
  rw [show (commandWord b a imm low).getLsbD (8 + j) = _ from fields_getLsbD b a imm low (8 + j)]
  rw [if_neg (by omega), if_pos (by omega)]
  simp [hj]

@[simp] theorem commandWord_a (b a : Dim) (imm low : Octet) : (commandWord b a imm low).a = a := by
  apply BitVec.eq_of_getLsbD_eq
  intro j hj
  refine (BitVec.getLsbD_extractLsb' ..).trans ?_
  rw [show (commandWord b a imm low).getLsbD (16 + j) = _ from fields_getLsbD b a imm low (16 + j)]
  rw [if_neg (by omega), if_neg (by omega), if_pos (by omega)]
  simp [hj]

@[simp] theorem commandWord_b (b a : Dim) (imm low : Octet) : (commandWord b a imm low).b = b := by
  apply BitVec.eq_of_getLsbD_eq
  intro j hj
  refine (BitVec.getLsbD_extractLsb' ..).trans ?_
  rw [show (commandWord b a imm low).getLsbD (48 + j) = _ from fields_getLsbD b a imm low (48 + j)]
  rw [if_neg (by omega), if_neg (by omega), if_neg (by omega)]
  simp [hj]

@[simp] theorem octetWord_octet (o : Octet) : (octetWord o).extractLsb' 0 8 = o := commandWord_low 0 0 0 o

/-- The bits of four bytes laid side by side. -/
theorem bytes_getLsbD (a b g r : BitVec 8) (j : Nat) :
    BitVec.getLsbD (w := 8 + 8 + 8 + 8) (a ++ b ++ g ++ r) j =
      if j < 8 then r.getLsbD j else if j < 16 then g.getLsbD (j - 8)
      else if j < 24 then b.getLsbD (j - 16) else a.getLsbD (j - 24) := by
  simp only [BitVec.getLsbD_append]
  split_ifs <;> first | rfl | omega

@[simp] theorem byte0_rgba (r g b a : Octet) : Dim.byte (a ++ b ++ g ++ r) 0 = r := by
  apply BitVec.eq_of_getLsbD_eq
  intro j hj
  refine (BitVec.getLsbD_extractLsb' ..).trans ?_
  rw [show BitVec.getLsbD (a ++ b ++ g ++ r : Dim) (8 * 0 + j) = _ from bytes_getLsbD a b g r (8 * 0 + j)]
  rw [if_pos (by omega)]
  simp [hj]

@[simp] theorem byte1_rgba (r g b a : Octet) : Dim.byte (a ++ b ++ g ++ r) 1 = g := by
  apply BitVec.eq_of_getLsbD_eq
  intro j hj
  refine (BitVec.getLsbD_extractLsb' ..).trans ?_
  rw [show BitVec.getLsbD (a ++ b ++ g ++ r : Dim) (8 * 1 + j) = _ from bytes_getLsbD a b g r (8 * 1 + j)]
  rw [if_neg (by omega), if_pos (by omega)]
  simp [hj]

@[simp] theorem byte2_rgba (r g b a : Octet) : Dim.byte (a ++ b ++ g ++ r) 2 = b := by
  apply BitVec.eq_of_getLsbD_eq
  intro j hj
  refine (BitVec.getLsbD_extractLsb' ..).trans ?_
  rw [show BitVec.getLsbD (a ++ b ++ g ++ r : Dim) (8 * 2 + j) = _ from bytes_getLsbD a b g r (8 * 2 + j)]
  rw [if_neg (by omega), if_neg (by omega), if_pos (by omega)]
  simp [hj]

@[simp] theorem byte3_rgba (r g b a : Octet) : Dim.byte (a ++ b ++ g ++ r) 3 = a := by
  apply BitVec.eq_of_getLsbD_eq
  intro j hj
  refine (BitVec.getLsbD_extractLsb' ..).trans ?_
  rw [show BitVec.getLsbD (a ++ b ++ g ++ r : Dim) (8 * 3 + j) = _ from bytes_getLsbD a b g r (8 * 3 + j)]
  rw [if_neg (by omega), if_neg (by omega), if_neg (by omega)]
  simp [hj]

@[simp] theorem byte0_setWidth (v : Octet) : Dim.byte (v.setWidth 32) 0 = v := by
  revert v; decide

/-- An octet is its bit 7 followed by its 7 low bits. -/
theorem octet_split7 (o : Octet) : o = BitVec.ofBool (o.getLsbD 7) ++ o.extractLsb' 0 7 := by
  revert o; decide

/-- An octet is its bit 7, bits 6:5 and bits 4:0. -/
theorem octet_split125 (o : Octet) :
    o = BitVec.ofBool (o.getLsbD 7) ++ o.extractLsb' 5 2 ++ o.extractLsb' 0 5 := by
  revert o; decide

/-- What the octet decoder answers at a VLE field, by bit 7 (30_encoding.md R73, R80). -/
theorem decodeOctet_vle (f : Field) (hf : f = .width ∨ f = .height ∨ f = .value) (o : Octet) :
    decodeOctet f o = if o.getLsbD 7 then .vleCont (o.extractLsb' 0 7) else .vleLast (o.extractLsb' 0 7) := by
  rcases hf with rfl | rfl | rfl <;> rfl

/-- Every octet class is met at a field where its octet decodes to it. -/
theorem decodeOctet_foundAt (f : Field) (o : Octet) : (decodeOctet f o).toInstr.foundAt (.source f) = true := by
  cases f <;> simp only [decodeOctet] <;> (try split) <;> rfl

/-- The octet decoder answers well-formed instructions only. -/
theorem decodeOctet_wellFormed (f : Field) (o : Octet) : WellFormed (decodeOctet f o).toInstr = true := by
  cases f <;> simp only [decodeOctet] <;> (try split) <;> simp_all [OctetClass.toInstr, WellFormed]

/-- A decoded word is a well-formed instruction that belongs at its port. -/
theorem decodeCommand_foundAt (c : CommandWord) (i : Instr) (h : decodeCommand c = .ok i) :
    i.foundAt .command = true ∧ WellFormed i = true := by
  simp only [decodeCommand] at h
  split at h <;> cases h <;> exact ⟨rfl, rfl⟩

end Sys2Proof
end

