-- ==== Sys2Proof/Laws/Flags.lean ====
section
/-! SUPPORT. The conditions of the data-dependent decisions, as statements about numbers. -/

namespace Sys2Proof.Machine

/-- The comparator on one byte (43_threshold.md R162). -/
theorem thrcmpLuma_iff (s t : Octet) : thrcmpLuma s t = true ↔ t.toNat ≤ s.toNat := decide_eq_true_iff

/-- The average fits a byte (43_threshold.md R163, R165). -/
theorem rgbaAverage_toNat (r g b a : Octet) :
    (rgbaAverage r g b a).toNat = (r.toNat + g.toNat + b.toNat + a.toNat) / 4 := by
  have := r.isLt
  have := g.isLt
  have := b.isLt
  have := a.isLt
  rw [rgbaAverage, BitVec.toNat_ofNat, Nat.mod_eq_of_lt (by omega)]

/-- The comparator on four bytes (43_threshold.md R163). -/
theorem thrcmpRgba_iff (r g b a t : Octet) :
    thrcmpRgba r g b a t = true ↔ t.toNat ≤ (r.toNat + g.toNat + b.toNat + a.toNat) / 4 := by
  rw [thrcmpRgba, thrcmpLuma_iff, rgbaAverage_toNat]

/-- The payloads of the comparator's commands (43_threshold.md R162, R163; 60_exceptions.md R231). -/
theorem bitPayload_thrcmpLuma (s t : Octet) :
    bitPayload (thrcmpLuma s t) = if t.toNat ≤ s.toNat then 1 else 0 := by
  by_cases h : t.toNat ≤ s.toNat
  · rw [if_pos h, (thrcmpLuma_iff s t).mpr h]; rfl
  · rw [if_neg h, Bool.eq_false_iff.mpr (mt (thrcmpLuma_iff s t).mp h)]; rfl

theorem bitPayload_thrcmpRgba (r g b a t : Octet) :
    bitPayload (thrcmpRgba r g b a t)
      = if t.toNat ≤ (r.toNat + g.toNat + b.toNat + a.toNat) / 4 then 1 else 0 := by
  rw [thrcmpRgba, bitPayload_thrcmpLuma, rgbaAverage_toNat]

/-- The two length checks (42_unpack.md R142, 44_pack.md R177). -/
theorem pixTooShort_iff (n : Nat) (w h : Dim) : pixTooShort n w h = true ↔ n < w.toNat * h.toNat := decide_eq_true_iff

theorem smpWrongLength_iff (n : Nat) (k : ColorKind) (w h : Dim) :
    smpWrongLength n k w h = true ↔ n ≠ w.toNat * h.toNat * bytesPerPixel k := bne_iff_ne

/-- An image without pixels (42_unpack.md R148). -/
theorem emptyImage_iff (w h : Dim) : emptyImage w h = true ↔ w = 0 ∨ h = 0 := by
  simp [emptyImage]

end Sys2Proof.Machine
end

