-- ==== Sys2Proof/Laws/Packing.lean ====
section
/-! SUPPORT. What each writing operation has still to write: the groups of an integer, a header, the octets of an
image (40_vle.md R105, 41_header.md R126, 44_pack.md R176 to R181). -/

namespace Sys2Proof.Machine

/-! ## Integers -/

/-- The octets of the groups `n-1` down to 0 (40_vle.md R105). -/
def groupOctets (v : Dim) (n : Nat) : List Octet :=
  (List.range n).reverse.map (fun g => vleOctet v (BitVec.ofNat 3 g))

theorem groupOctets_succ (v : Dim) (n : Nat) :
    groupOctets v (n + 1) = vleOctet v (BitVec.ofNat 3 n) :: groupOctets v n := by
  simp [groupOctets, List.range_succ]

theorem vleOctets_eq (v : Dim) : vleOctets v = groupOctets v (vleLength v) := rfl

@[simp] theorem groupOctets_length (v : Dim) (n : Nat) : (groupOctets v n).length = n := by simp [groupOctets]

/-- A 32-bit value has at most five groups and at least one (40_vle.md R105). -/
theorem vleLength_bounds (v : Dim) : 1 ≤ vleLength v ∧ vleLength v ≤ 5 := by
  have hv := v.isLt
  refine ⟨Nat.le_max_left _ _, ?_⟩
  simp only [vleLength, bitlen]
  split
  · omega
  · rename_i h0
    have hlog : Nat.log2 v.toNat < 32 := (Nat.log2_lt h0).mpr hv
    omega

/-- `GRP` starts at the group before `n`. -/
theorem firstGroup_toNat (v : Dim) : (firstGroup v).toNat = vleLength v - 1 := by
  have := vleLength_bounds v
  rw [firstGroup, BitVec.toNat_ofNat, Nat.mod_eq_of_lt (by omega)]

/-- The writing of an integer, from group `g` on, with whatever follows its last octet. -/
theorem pending_integer {w : Writer} {v : Dim} {r : Result} {os : List Octet}
    {cont : State → Host.Outcome State Fault Refusal} (hoct : ∀ s, w.octet s = vleOctet v s.grp)
    (hafter : ∀ s, afterWrite w s = if s.grp = 0 then cont s else .next { s with grp := s.grp - 1 })
    (g : Nat) {s : State} (hact : s.activity = .writing w) (hg : s.grp.toNat = g)
    (hcont : ∀ b k a, ∃ t, cont { s with grp := b, snk := k, snkAnswers := a } = .next t ∧ t.snk = k ∧
      t.snkAnswers = a ∧ WriteFrame s t ∧ Pending s.results r os t) :
    Pending s.results r (groupOctets v (g + 1) ++ os) s := by
  induction g generalizing s with
  | zero =>
    have h0 : s.grp = 0 := BitVec.eq_of_toNat_eq hg
    rw [groupOctets_succ, List.cons_append]
    refine ⟨rfl, w, hact, by rw [hoct, h0]; rfl, fun k a => ?_⟩
    obtain ⟨t, ht⟩ := hcont s.grp k a
    refine ⟨t, ?_, ht.2⟩
    rw [hafter, if_pos (by exact h0)]
    exact ht.1
  | succ g ih =>
    have hlt := s.grp.isLt
    have h1 : (1 : BitVec 3).toNat = 1 := rfl
    have hne : s.grp ≠ 0 := fun e => by rw [e] at hg; exact absurd hg (by simp)
    have hsub : (s.grp - 1).toNat = g := by rw [BitVec.toNat_sub, h1]; omega
    have hgrp : s.grp = BitVec.ofNat 3 (g + 1) := BitVec.eq_of_toNat_eq (by rw [hg, BitVec.toNat_ofNat]; omega)
    rw [groupOctets_succ, List.cons_append]
    refine ⟨rfl, w, hact, by rw [hoct, hgrp], fun k a => ⟨{ s with grp := s.grp - 1, snk := k, snkAnswers := a }, ?_,
      rfl, rfl, WriteFrame.refl s, ?_⟩⟩
    · rw [hafter, if_neg (by exact hne)]
    · exact ih (s := { s with grp := s.grp - 1, snk := k, snkAnswers := a }) hact hsub (fun b k a => hcont b k a)

/-- `VLENC v` has all octets of `v` to write (40_vle.md R105). -/
theorem pending_value (v : Dim) (s : State) :
    Pending s.results (okRecord 0 0) (vleOctets v) { s with grp := firstGroup v, activity := .writing (.value v) } := by
  have hb := vleLength_bounds v
  have := pending_integer (w := .value v) (v := v) (r := okRecord 0 0) (os := []) (cont := fun s => .next (succeed 0 0 s))
    (fun _ => rfl) (fun _ => rfl) (vleLength v - 1)
    (s := { s with grp := firstGroup v, activity := .writing (.value v) }) rfl (firstGroup_toNat v)
    (fun b k a => ⟨_, rfl, rfl, rfl, WriteFrame.refl s, rfl, rfl⟩)
  rw [List.append_nil, show vleLength v - 1 + 1 = vleLength v by omega] at this
  exact this

/-! ## Pixel data -/

/-- Octet `q` of the pixel data, counted from the first row on. -/
def octetAt (k : ColorKind) (m : Memory) (t : Octet) (w : Dim) (q : Nat) : Octet :=
  packedOctet k m t w.toNat (q / rowOctets w) (q % rowOctets w)

/-- The octets of pixel data from octet `q` on. -/
def octetsFrom (k : ColorKind) (m : Memory) (t : Octet) (w h : Dim) (q : Nat) : List Octet :=
  (List.range' q (h.toNat * rowOctets w - q)).map (octetAt k m t w)

theorem octetsFrom_length (k : ColorKind) (m : Memory) (t : Octet) (w h : Dim) (q : Nat) :
    (octetsFrom k m t w h q).length = h.toNat * rowOctets w - q := by simp [octetsFrom]

theorem octetsFrom_cons {k : ColorKind} {m : Memory} {t : Octet} {w h : Dim} {q : Nat}
    (hq : q < h.toNat * rowOctets w) :
    octetsFrom k m t w h q = octetAt k m t w q :: octetsFrom k m t w h (q + 1) := by
  obtain ⟨n, hn⟩ : ∃ n, h.toNat * rowOctets w - q = n + 1 := ⟨h.toNat * rowOctets w - q - 1, by omega⟩
  have hn' : h.toNat * rowOctets w - (q + 1) = n := by omega
  rw [octetsFrom, hn, List.range'_succ, List.map_cons, octetsFrom, hn']

theorem octetsFrom_end {k : ColorKind} {m : Memory} {t : Octet} {w h : Dim} {q : Nat}
    (hq : h.toNat * rowOctets w ≤ q) : octetsFrom k m t w h q = [] := by
  rw [octetsFrom, Nat.sub_eq_zero_of_le hq]
  rfl

/-- Rows of octets one after the other are counted through (20_memory.md R54). -/
theorem flatMap_rows {α : Type} (f : Nat → Nat → α) (ro n : Nat) :
    ((List.range n).flatMap fun r => (List.range ro).map fun j => f r j) =
      (List.range' 0 (n * ro)).map fun q => f (q / ro) (q % ro) := by
  induction n with
  | zero => simp
  | succ n ih =>
    rw [List.range_succ, List.flatMap_append, ih, Nat.succ_mul, ← List.range'_append_1, List.map_append]
    congr 1
    rw [List.flatMap_singleton, Nat.zero_add]
    apply List.ext_getElem
    · simp
    · intro i h1 h2
      have hi : i < ro := by simpa using h1
      have hd : (n * ro + i) / ro = n := by
        rw [Nat.mul_comm, Nat.mul_add_div (by omega), Nat.div_eq_of_lt hi, Nat.add_zero]
      have hm : (n * ro + i) % ro = i := by rw [Nat.mul_comm, Nat.mul_add_mod, Nat.mod_eq_of_lt hi]
      simp [hd, hm]

theorem packedOctets_eq (k : ColorKind) (m : Memory) (t : Octet) (w h : Dim) :
    packedOctets k m t w h = octetsFrom k m t w h 0 := by
  rw [packedOctets, flatMap_rows, octetsFrom, Nat.sub_zero]
  rfl

theorem packedOctets_length (k : ColorKind) (m : Memory) (t : Octet) (w h : Dim) :
    (packedOctets k m t w h).length = h.toNat * rowOctets w := by
  rw [packedOctets_eq, octetsFrom_length, Nat.sub_zero]

/-- A pack stands before the write of octet `q`: the length check has passed, `ROW` and `COL` are at the octet's last
pixel, and `OCT` holds it (44_pack.md R177, R179 to R181). -/
def PackAt (k : ColorKind) (w h : Dim) (q : Nat) (s : State) : Prop :=
  s.activity = .writing (.pixelRow k w h) ∧ s.smp.len = sampleLength k w h ∧ 0 < w.toNat ∧ q < h.toNat * rowOctets w ∧
  s.row.toNat = q / rowOctets w ∧ s.col.toNat + 1 = min w.toNat (8 * (q % rowOctets w) + 8) ∧
  s.oct = octetAt k s.smp s.thrS w q

/-- The next octet, ready at its first pixel (44_pack.md R178, R180). -/
theorem nextOctet_packAt {k : ColorKind} {w h : Dim} {q : Nat} {s : State}
    (hact : s.activity = .writing (.pixelRow k w h)) (hlen : s.smp.len = sampleLength k w h) (hw : 0 < w.toNat)
    (hq : q < h.toNat * rowOctets w) (hrow : s.row.toNat = q / rowOctets w)
    (hcol : s.col.toNat = 8 * (q % rowOctets w)) :
    ∃ t, nextOctet k w s = .next t ∧ t.snk = s.snk ∧ t.snkAnswers = s.snkAnswers ∧ WriteFrame s t ∧
      t.results = s.results ∧ t.thrS = s.thrS ∧ PackAt k w h q t := by
  have hro : 0 < rowOctets w := by simp only [rowOctets]; omega
  have hj : q % rowOctets w < rowOctets w := Nat.mod_lt _ hro
  have hjw : 8 * (q % rowOctets w) < w.toNat := by simp only [rowOctets] at hj ⊢; omega
  have hr : q / rowOctets w < h.toNat := Nat.div_lt_of_lt_mul (by rw [Nat.mul_comm]; exact hq)
  obtain ⟨nb, c, h1, h2, h3⟩ := nextOctet_spec (j := q % rowOctets w) hlen (by omega) (by omega) hcol
  refine ⟨_, h1, rfl, rfl, WriteFrame.refl s, rfl, rfl, hact, hlen, hw, hq, hrow, ?_, ?_⟩
  · show c.toNat + 1 = _
    omega
  · show packedOctet k s.smp s.thrS w.toNat s.row.toNat (q % rowOctets w) = _
    rw [hrow]
    rfl

/-- The pixel data from octet `q` on is still to be written (44_pack.md R176, R181). -/
theorem pending_pixels {k : ColorKind} {w h : Dim} (n : Nat) {q : Nat} {s : State}
    (hn : h.toNat * rowOctets w - q = n + 1) (hs : PackAt k w h q s) :
    Pending s.results (okRecord 0 0) (octetsFrom k s.smp s.thrS w h q) s := by
  induction n generalizing q s with
  | zero =>
    obtain ⟨hact, hlen, hw, hq, hrow, hcol, hoct⟩ := hs
    rw [octetsFrom_cons hq, octetsFrom_end (q := q + 1) (by omega)]
    refine ⟨rfl, _, hact, hoct, fun kk a => ⟨succeed 0 0 { s with snk := kk, snkAnswers := a }, ?_, rfl, rfl,
      WriteFrame.refl s, rfl, rfl⟩⟩
    have hro : 0 < rowOctets w := by simp only [rowOctets]; omega
    have hdm := Nat.div_add_mod q (rowOctets w)
    have hj : q % rowOctets w < rowOctets w := Nat.mod_lt _ hro
    have hr : q / rowOctets w < h.toNat := Nat.div_lt_of_lt_mul (by rw [Nat.mul_comm]; exact hq)
    have hlast : q / rowOctets w + 1 = h.toNat ∧ q % rowOctets w + 1 = rowOctets w := by
      obtain ⟨e, he⟩ : ∃ e, h.toNat = q / rowOctets w + 1 + e := ⟨h.toNat - (q / rowOctets w + 1), by omega⟩
      rw [he, Nat.add_mul, Nat.add_mul, Nat.mul_comm (q / rowOctets w)] at hn
      rcases Nat.eq_zero_or_pos e with rfl | hp
      · omega
      · have : rowOctets w ≤ e * rowOctets w := Nat.le_mul_of_pos_left _ hp
        omega
    have hc : s.col = w - 1 := BitVec.eq_of_toNat_eq (by
      rw [toNat_sub_one hw]
      have : rowOctets w = (w.toNat + 7) / 8 := rfl
      omega)
    have hr1 : s.row + 1 = h := BitVec.eq_of_toNat_eq (by
      rw [toNat_add_one_of_lt (w := h) (by omega)]
      omega)
    show afterFlush k w h _ = _
    unfold afterFlush
    rw [if_pos (by exact hc), if_pos (by exact hr1)]
  | succ n ih =>
    obtain ⟨hact, hlen, hw, hq, hrow, hcol, hoct⟩ := hs
    have hro : 0 < rowOctets w := by simp only [rowOctets]; omega
    have hrw : rowOctets w = (w.toNat + 7) / 8 := rfl
    have hdm := Nat.div_add_mod q (rowOctets w)
    have hj : q % rowOctets w < rowOctets w := Nat.mod_lt _ hro
    have hr : q / rowOctets w < h.toNat := Nat.div_lt_of_lt_mul (by rw [Nat.mul_comm]; exact hq)
    rw [octetsFrom_cons hq]
    refine ⟨rfl, _, hact, hoct, fun kk a => ?_⟩
    show ∃ t, afterFlush k w h _ = _ ∧ _
    unfold afterFlush
    by_cases hc : s.col = w - 1
    · have hcn : s.col.toNat = w.toNat - 1 := by rw [hc, toNat_sub_one hw]
      have hjl : q % rowOctets w + 1 = rowOctets w := by omega
      have hdiv : (q + 1) / rowOctets w = q / rowOctets w + 1 := by
        rw [show q + 1 = rowOctets w * (q / rowOctets w + 1) + 0 by rw [Nat.mul_succ]; omega,
          Nat.mul_add_div hro, Nat.zero_div]
      have hmod : (q + 1) % rowOctets w = 0 := by
        rw [show q + 1 = rowOctets w * (q / rowOctets w + 1) + 0 by rw [Nat.mul_succ]; omega, Nat.mul_add_mod,
          Nat.zero_mod]
      have hr1 : (s.row + 1).toNat = s.row.toNat + 1 := toNat_add_one_of_lt (w := h) (by omega)
      have hrne : s.row + 1 ≠ h := fun e => by
        rw [e, hrow] at hr1
        rw [hr1, Nat.succ_mul, Nat.mul_comm] at hn
        omega
      rw [if_pos (by exact hc), if_neg (by exact hrne)]
      obtain ⟨t, h1, h2, h3, h4, h5, h6, h7⟩ := nextOctet_packAt (q := q + 1)
        (s := { s with row := s.row + 1, col := 0, snk := kk, snkAnswers := a }) hact hlen hw (by omega)
        (by show (s.row + 1).toNat = _; omega) (by rw [hmod]; rfl)
      refine ⟨t, h1, h2, h3, h4, ?_⟩
      have := ih (q := q + 1) (s := t) (by omega) h7
      rw [h5, h6, show t.smp = s.smp from h4.2.2.2.2.1] at this
      exact this
    · have hcn : s.col.toNat ≠ w.toNat - 1 := fun e => hc (BitVec.eq_of_toNat_eq (by rw [e, toNat_sub_one hw]))
      have hjl : q % rowOctets w + 1 < rowOctets w := by omega
      have hdiv : (q + 1) / rowOctets w = q / rowOctets w := by
        rw [show q + 1 = rowOctets w * (q / rowOctets w) + (q % rowOctets w + 1) by omega,
          Nat.mul_add_div hro, Nat.div_eq_of_lt hjl, Nat.add_zero]
      have hmod : (q + 1) % rowOctets w = q % rowOctets w + 1 := by
        rw [show q + 1 = rowOctets w * (q / rowOctets w) + (q % rowOctets w + 1) by omega, Nat.mul_add_mod,
          Nat.mod_eq_of_lt hjl]
      have hc1 : (s.col + 1).toNat = s.col.toNat + 1 := toNat_add_one_of_lt (w := w) (by omega)
      rw [if_neg (by exact hc)]
      obtain ⟨t, h1, h2, h3, h4, h5, h6, h7⟩ := nextOctet_packAt (q := q + 1)
        (s := { s with col := s.col + 1, snk := kk, snkAnswers := a }) hact hlen hw (by omega)
        (by show s.row.toNat = _; omega) (by show (s.col + 1).toNat = _; omega)
      refine ⟨t, h1, h2, h3, h4, ?_⟩
      have := ih (q := q + 1) (s := t) (by omega) h7
      rw [h5, h6, show t.smp = s.smp from h4.2.2.2.2.1] at this
      exact this

/-- An image without pixels has no octets. -/
theorem packedOctets_empty {k : ColorKind} {m : Memory} {t : Octet} {w h : Dim} (he : emptyImage w h = true) :
    packedOctets k m t w h = [] := by
  apply List.eq_nil_of_length_eq_zero
  rw [packedOctets_length]
  simp only [emptyImage, Bool.or_eq_true, decide_eq_true_eq] at he
  rcases he with rfl | rfl
  · simp [rowOctets]
  · simp

theorem emptyImage_false {w h : Dim} (he : emptyImage w h = false) : 0 < w.toNat ∧ 0 < h.toNat := by
  simp only [emptyImage, Bool.or_eq_false_iff, decide_eq_false_iff_not] at he
  exact ⟨Nat.pos_of_ne_zero fun e => he.1 (BitVec.eq_of_toNat_eq e),
    Nat.pos_of_ne_zero fun e => he.2 (BitVec.eq_of_toNat_eq e)⟩

/-- What a pack comes to when the sink takes everything: the octets it writes and its result (44_pack.md R177). -/
def packPlan (k : ColorKind) (m : Memory) (t : Octet) (w h : Dim) : List Octet × Result :=
  if smpWrongLength m.len k w h then ([], Err.record .invalidImageData) else (packedOctets k m t w h, okRecord 0 0)

/-- The start of a pack answers, and leaves the whole plan to be written (44_pack.md R176, R177, R183). -/
theorem startPack_pending (k : ColorKind) (w h : Dim) (s : State) :
    ∃ t, startPack k w h s = .next t ∧ t.snk = s.snk ∧ t.snkAnswers = s.snkAnswers ∧ WriteFrame s t ∧
      Pending s.results (packPlan k s.smp s.thrS w h).2 (packPlan k s.smp s.thrS w h).1 t := by
  unfold startPack packPlan
  by_cases hl : smpWrongLength s.smp.len k w h = true
  · rw [if_pos hl, if_pos hl]
    exact ⟨_, rfl, rfl, rfl, WriteFrame.refl s, rfl, rfl⟩
  · rw [if_neg hl, if_neg hl]
    have hlen : s.smp.len = sampleLength k w h := by simpa [smpWrongLength] using hl
    by_cases he : emptyImage w h = true
    · rw [if_pos he, packedOctets_empty he]
      exact ⟨_, rfl, rfl, rfl, WriteFrame.refl s, rfl, rfl⟩
    · rw [if_neg he]
      obtain ⟨hw, hh⟩ := emptyImage_false (by simpa using he)
      have hro : 0 < rowOctets w := by simp only [rowOctets]; omega
      have hpos : 0 < h.toNat * rowOctets w := Nat.mul_pos hh hro
      obtain ⟨t, h1, h2, h3, h4, h5, h6, h7⟩ := nextOctet_packAt (k := k) (w := w) (h := h) (q := 0)
        (s := { s with row := 0, col := 0, activity := .writing (.pixelRow k w h) }) rfl hlen hw hpos
        (by simp) (by simp)
      refine ⟨t, h1, h2, h3, h4, ?_⟩
      have := pending_pixels (h.toNat * rowOctets w - 1) (q := 0) (s := t) (by omega) h7
      rw [h5, h6, show t.smp = s.smp from h4.2.2.2.2.1] at this
      rw [packedOctets_eq]
      exact this

/-! ## Headers -/

/-- What follows the header (41_header.md R126, 45_orchestration.md R207). -/
def bodyPlan (body : Option ColorKind) (m : Memory) (t : Octet) (w h : Dim) : List Octet × Result :=
  match body with
  | none => ([], okRecord 0 0)
  | some k => packPlan k m t w h

theorem afterHeader_pending (body : Option ColorKind) (w h : Dim) (s : State) :
    ∃ t, afterHeader body w h s = .next t ∧ t.snk = s.snk ∧ t.snkAnswers = s.snkAnswers ∧ WriteFrame s t ∧
      Pending s.results (bodyPlan body s.smp s.thrS w h).2 (bodyPlan body s.smp s.thrS w h).1 t := by
  cases body with
  | none => exact ⟨_, rfl, rfl, rfl, WriteFrame.refl s, rfl, rfl⟩
  | some k => exact startPack_pending k w h s

/-- The whole header and what follows it is still to be written (41_header.md R126, 45_orchestration.md R207). -/
theorem pending_header (body : Option ColorKind) (w h : Dim) {s : State}
    (hact : s.activity = .writing (.typeField body w h)) :
    Pending s.results (bodyPlan body s.smp s.thrS w h).2
      (headerOctets w h ++ (bodyPlan body s.smp s.thrS w h).1) s := by
  have hbw := vleLength_bounds w
  have hbh := vleLength_bounds h
  have hheight : ∀ u : State, WriteFrame s u → u.thrS = s.thrS → u.results = s.results →
      Pending s.results (bodyPlan body s.smp s.thrS w h).2
        (vleOctets h ++ (bodyPlan body s.smp s.thrS w h).1)
        { u with grp := firstGroup h, activity := .writing (.height body w h) } := by
    intro u hf ht hres
    have := pending_integer (w := .height body w h) (v := h) (r := (bodyPlan body u.smp u.thrS w h).2)
      (os := (bodyPlan body u.smp u.thrS w h).1) (cont := afterHeader body w h) (fun _ => rfl) (fun _ => rfl)
      (vleLength h - 1) (s := { u with grp := firstGroup h, activity := .writing (.height body w h) }) rfl
      (firstGroup_toNat h)
      (fun b k a => afterHeader_pending body w h
        { u with grp := b, activity := .writing (.height body w h), snk := k, snkAnswers := a })
    rw [show vleLength h - 1 + 1 = vleLength h by omega, ← vleOctets_eq,
      show bodyPlan body u.smp u.thrS w h = bodyPlan body s.smp s.thrS w h by rw [ht, hf.2.2.2.2.1]] at this
    rw [← hres]
    exact this
  have hwidth : ∀ u : State, WriteFrame s u → u.thrS = s.thrS → u.results = s.results →
      Pending s.results (bodyPlan body s.smp s.thrS w h).2
        (vleOctets w ++ (vleOctets h ++ (bodyPlan body s.smp s.thrS w h).1))
        { u with grp := firstGroup w, activity := .writing (.width body w h) } := by
    intro u hf ht hres
    have := pending_integer (w := .width body w h) (v := w) (r := (bodyPlan body s.smp s.thrS w h).2)
      (os := vleOctets h ++ (bodyPlan body s.smp s.thrS w h).1)
      (cont := fun s => .next { s with grp := firstGroup h, activity := .writing (.height body w h) })
      (fun _ => rfl) (fun _ => rfl)
      (vleLength w - 1) (s := { u with grp := firstGroup w, activity := .writing (.width body w h) }) rfl
      (firstGroup_toNat w)
      (fun b k a => ⟨_, rfl, rfl, rfl, WriteFrame.refl u, by
        have := hheight { u with grp := b, activity := .writing (.width body w h), snk := k, snkAnswers := a }
          hf ht hres
        rw [← hres] at this
        exact this⟩)
    rw [show vleLength w - 1 + 1 = vleLength w by omega, ← vleOctets_eq] at this
    rw [← hres]
    exact this
  rw [headerOctets, List.append_assoc, List.append_assoc]
  refine ⟨rfl, _, hact, rfl, fun k a => ⟨_, rfl, rfl, rfl, WriteFrame.refl s, rfl, _, rfl, rfl, fun k a =>
    ⟨_, rfl, rfl, rfl, WriteFrame.refl s, ?_⟩⟩⟩
  exact hwidth { s with activity := .writing (.fixHeader body w h), snk := k, snkAnswers := a } (WriteFrame.refl s) rfl rfl

theorem vleOctets_length (v : Dim) : (vleOctets v).length = vleLength v := by
  rw [vleOctets_eq, groupOctets_length]

theorem headerOctets_length (w h : Dim) : (headerOctets w h).length = 2 + vleLength w + vleLength h := by
  simp only [headerOctets, List.length_append, vleOctets_length]
  rfl

/-- The plan of an operation that begins with a header fits the count of its writes. -/
theorem headerPlan_length (body : Option ColorKind) (m : Memory) (t : Octet) (w h : Dim) :
    (headerOctets w h ++ (bodyPlan body m t w h).1).length ≤ 12 + h.toNat * rowOctets w := by
  have hbw := vleLength_bounds w
  have hbh := vleLength_bounds h
  have : (bodyPlan body m t w h).1.length ≤ h.toNat * rowOctets w := by
    cases body with
    | none => exact Nat.zero_le _
    | some k =>
      simp only [bodyPlan, packPlan]
      split
      · exact Nat.zero_le _
      · exact le_of_eq (packedOctets_length _ _ _ _ _)
  rw [List.length_append, headerOctets_length]
  omega

end Sys2Proof.Machine
end

