-- ==== Sys2Proof/Laws/Wire.lean ====
section
/-! SUPPORT. What is written is what is read: the groups of an integer (30_encoding.md R73, R74, R78) and the bits of
packed rows (20_memory.md R50, R54). -/

namespace Sys2Proof.Machine

/-! ## Integers -/

/-- Bit 7 of a written octet says whether more follow (40_vle.md R105). -/
theorem vleOctet_bit7 (v : Dim) (g : BitVec 3) : (vleOctet v g).getLsbD 7 = (g != 0) := by
  rw [vleOctet, BitVec.getLsbD_append]
  cases hg : (g != 0) <;> rfl

/-- The low 7 bits of a written octet are the group (40_vle.md R105). -/
theorem vleOctet_group (v : Dim) (g : BitVec 3) :
    (vleOctet v g).toNat % 128 = v.toNat / 128 ^ g.toNat % 128 := by
  have h1 : (128 : Nat) ^ g.toNat = 2 ^ (7 * g.toNat) := by rw [Nat.pow_mul]
  have h2 := Nat.mod_lt (v.toNat / 2 ^ (7 * g.toNat)) (show 0 < 128 by omega)
  rw [h1, vleOctet, BitVec.toNat_append, BitVec.toNat_setWidth, BitVec.toNat_ushiftRight, Nat.shiftRight_eq_div_pow,
    ← Nat.shiftLeft_add_eq_or_of_lt (by omega), Nat.shiftLeft_eq]
  omega

/-- A value fits `n` groups exactly if the shortest form has at most `n` octets (40_vle.md R106). -/
theorem vleLength_le_iff (v : Dim) {n : Nat} (hn : 1 ≤ n) : vleLength v ≤ n ↔ v.toNat < 128 ^ n := by
  have h1 : (128 : Nat) ^ n = 2 ^ (7 * n) := by rw [Nat.pow_mul]
  rw [h1]
  simp only [vleLength, bitlen]
  by_cases h0 : v.toNat = 0
  · rw [if_pos h0, h0]
    have := Nat.two_pow_pos (7 * n)
    omega
  · rw [if_neg h0, ← Nat.log2_lt h0]
    omega

/-- The groups of a value, read back as a number. -/
theorem foldl_groupOctets (v : Dim) (n a : Nat) (hn : n ≤ 8) :
    (groupOctets v n).foldl (fun acc o => acc * 128 + o.toNat % 128) a = a * 128 ^ n + v.toNat % 128 ^ n := by
  induction n generalizing a with
  | zero => simp [groupOctets, Nat.mod_one]
  | succ n ih =>
    rw [groupOctets_succ, List.foldl_cons, ih _ (by omega), vleOctet_group, BitVec.toNat_ofNat,
      Nat.mod_eq_of_lt (show n < 2 ^ 3 by omega), Nat.pow_succ, Nat.mod_mul, Nat.add_mul, Nat.mul_assoc,
      Nat.mul_comm 128, Nat.mul_comm (v.toNat / 128 ^ n % 128)]
    omega

/-- The octets written for a value have that value (40_vle.md R107). -/
theorem vleValue_vleOctets (v : Dim) : vleValue (vleOctets v) = v := by
  have hb := vleLength_bounds v
  have hlt := (vleLength_le_iff v hb.1).mp (Nat.le_refl _)
  apply BitVec.eq_of_toNat_eq
  rw [vleValue, vleOctets_eq, foldl_groupOctets v _ _ (by omega), Nat.zero_mul, Nat.zero_add, Nat.mod_eq_of_lt hlt,
    BitVec.toNat_ofNat, Nat.mod_eq_of_lt v.isLt]

/-- The octets of the groups form one integer (30_encoding.md R75). -/
theorem isVleInteger_groupOctets (v : Dim) (n : Nat) (hn : n < 8) : isVleInteger (groupOctets v (n + 1)) = true := by
  induction n with
  | zero =>
    rw [groupOctets_succ]
    show (!(vleOctet v (BitVec.ofNat 3 0)).getLsbD 7) = true
    rw [vleOctet_bit7]
    rfl
  | succ n ih =>
    have hg : (vleOctet v (BitVec.ofNat 3 (n + 1))).getLsbD 7 = true := by
      rw [vleOctet_bit7, bne_iff_ne]
      intro e
      have := congrArg BitVec.toNat e
      rw [BitVec.toNat_ofNat, Nat.mod_eq_of_lt (show n + 1 < 2 ^ 3 by omega)] at this
      exact absurd this (by simp)
    have := ih (by omega)
    rw [groupOctets_succ] at this
    rw [groupOctets_succ, groupOctets_succ, isVleInteger, hg, this]
    · rfl
    · simp

/-- What `VLENC v` writes is one integer (40_vle.md R107). -/
theorem isVleInteger_vleOctets (v : Dim) : isVleInteger (vleOctets v) = true := by
  have hb := vleLength_bounds v
  rw [vleOctets_eq, show vleLength v = vleLength v - 1 + 1 by omega]
  exact isVleInteger_groupOctets v _ (by omega)

/-- Octet `j` of what `VLENC v` writes is group `n-1-j` (40_vle.md R105). -/
theorem vleOctets_getElem? (v : Dim) {j : Nat} (hj : j < vleLength v) :
    (vleOctets v)[j]? = some (vleOctet v (BitVec.ofNat 3 (vleLength v - 1 - j))) := by
  rw [vleOctets, List.getElem?_map, List.getElem?_reverse (by rwa [List.length_range]), List.length_range,
    List.getElem?_range (by omega)]
  rfl

/-- The group an index stands for. -/
theorem group_index (v : Dim) (j : Nat) :
    (BitVec.ofNat 3 (vleLength v - 1 - j)).toNat = vleLength v - 1 - j := by
  have := vleLength_bounds v
  rw [BitVec.toNat_ofNat, Nat.mod_eq_of_lt (by omega)]

/-! ## Rows -/

/-- One accumulated bit of an octet. -/
theorem partialOctet_getLsbD (k : ColorKind) (m : Memory) (t : Octet) (w r j n b : Nat) (hn : n ≤ 8) (hb : b < 8) :
    (partialOctet k m t w r j n).getLsbD (7 - b) =
      decide (b < n ∧ 8 * j + b < w ∧ pixelBit k m t w r (8 * j + b) = true) := by
  induction n with
  | zero => simp [partialOctet]
  | succ n ih =>
    have hbit : (1#8 <<< (7 - n)).getLsbD (7 - b) = decide (b = n) := by
      have : n < 8 := by omega
      interval_cases n <;> interval_cases b <;> rfl
    rw [partialOctet_succ]
    by_cases hp : 8 * j + n < w ∧ pixelBit k m t w r (8 * j + n) = true
    · rw [if_pos hp, BitVec.getLsbD_or, ih (by omega), hbit, Bool.eq_iff_iff, Bool.or_eq_true, decide_eq_true_iff,
        decide_eq_true_iff, decide_eq_true_iff]
      constructor
      · rintro (⟨h1, h2⟩ | rfl)
        · exact ⟨by omega, h2⟩
        · exact ⟨by omega, hp⟩
      · rintro ⟨h1, h2⟩
        by_cases e : b = n
        · exact .inr e
        · exact .inl ⟨by omega, h2⟩
    · rw [if_neg hp, ih (by omega), Bool.eq_iff_iff, decide_eq_true_iff, decide_eq_true_iff]
      constructor
      · rintro ⟨h1, h2⟩
        exact ⟨by omega, h2⟩
      · rintro ⟨h1, h2⟩
        have : b ≠ n := by
          rintro rfl
          exact hp h2
        exact ⟨by omega, h2⟩

/-- Bit `7 - b` of octet `j` of a packed row is pixel `8j + b`, 0 past the row's end (44_pack.md R180, R181). -/
theorem packedOctet_getLsbD (k : ColorKind) (m : Memory) (t : Octet) (w r j b : Nat) (hb : b < 8) :
    (packedOctet k m t w r j).getLsbD (7 - b) =
      decide (8 * j + b < w ∧ pixelBit k m t w r (8 * j + b) = true) := by
  rw [packedOctet_eq_partial, partialOctet_getLsbD k m t w r j 8 b (Nat.le_refl _) hb, Bool.eq_iff_iff,
    decide_eq_true_iff, decide_eq_true_iff]
  exact ⟨fun h => h.2, fun h => ⟨hb, h⟩⟩

/-- Octet `j` of row `r` in the pixel data. -/
theorem packedOctets_getD {k : ColorKind} {m : Memory} {t : Octet} {w h : Dim} {r j : Nat} (hr : r < h.toNat)
    (hj : j < rowOctets w) :
    (packedOctets k m t w h).getD (r * rowOctets w + j) 0 = packedOctet k m t w.toNat r j := by
  have hlt : r * rowOctets w + j < h.toNat * rowOctets w := by
    have : (r + 1) * rowOctets w ≤ h.toNat * rowOctets w := Nat.mul_le_mul_right _ hr
    rw [Nat.succ_mul] at this
    omega
  have hd : (r * rowOctets w + j) / rowOctets w = r := by
    rw [Nat.mul_comm, Nat.mul_add_div (by omega), Nat.div_eq_of_lt hj, Nat.add_zero]
  have hm : (r * rowOctets w + j) % rowOctets w = j := by rw [Nat.mul_comm, Nat.mul_add_mod, Nat.mod_eq_of_lt hj]
  have hlen : r * rowOctets w + j < (packedOctets k m t w h).length := by rwa [packedOctets_length]
  rw [List.getD_eq_getElem _ _ hlen]
  simp only [packedOctets_eq, octetsFrom, List.getElem_map, List.getElem_range', octetAt, Nat.zero_add, Nat.one_mul,
    hd, hm]

/-- A bit of the pixel data where it stands in a source. -/
theorem streamBit_packed {k : ColorKind} {m : Memory} {t : Octet} {w h : Dim} {src tail : List Octet} {p r c : Nat}
    (hs : src.drop p = packedOctets k m t w h ++ tail) (hr : r < h.toNat) (hc : c / 8 < rowOctets w) :
    streamBit src p w r c = decide (c < w.toNat ∧ pixelBit k m t w.toNat r c = true) := by
  have hidx : src.getD (p + r * rowOctets w + c / 8) 0 = packedOctet k m t w.toNat r (c / 8) := by
    have hlt : r * rowOctets w + c / 8 < (packedOctets k m t w h).length := by
      rw [packedOctets_length]
      have : (r + 1) * rowOctets w ≤ h.toNat * rowOctets w := Nat.mul_le_mul_right _ hr
      rw [Nat.succ_mul] at this
      omega
    rw [← packedOctets_getD (k := k) (m := m) (t := t) hr hc, Nat.add_assoc, List.getD_eq_getElem?_getD,
      ← List.getElem?_drop, hs, List.getElem?_append_left hlt, ← List.getD_eq_getElem?_getD]
  rw [streamBit, hidx, packedOctet_getLsbD _ _ _ _ _ _ _ (Nat.mod_lt _ (by omega)), Nat.div_add_mod]

end Sys2Proof.Machine
end

