-- ==== Sys2Proof/Laws/Invariant.lean ====
section
/-! SUPPORT. What the invariant of the operation in progress rests on: which operations keep it, one by one. -/

namespace Sys2Proof.Machine

/-- Everything `Activity.Ok` looks at in a state. -/
def SameProgress (s t : State) : Prop :=
  t.phase = s.phase ∧ t.pix.len = s.pix.len ∧ t.smp.len = s.smp.len ∧ t.row = s.row ∧ t.col = s.col ∧
  t.rowbuf = s.rowbuf ∧ t.grp = s.grp ∧ t.nb = s.nb ∧ t.oct = s.oct

/-- `Activity.Ok` holds of a state that agrees where it looks. -/
theorem Activity.Ok.congr {a : Activity} {s t : State} (h : a.Ok s) (e : SameProgress s t) : a.Ok t := by
  obtain ⟨e1, e2, e3, e4, e5, e6, e7, e8, e9⟩ := e
  cases a with
  | idle => trivial
  | reading r =>
    cases r <;> simp only [Activity.Ok, Reader.Ok] at h ⊢
    case pixelRow w v => rw [e2, e4, e5, e6]; exact h
    all_goals
      rw [e1]
      exact h
  | writing w =>
    cases w <;> simp only [Activity.Ok, Writer.Ok] at h ⊢
    case pixelRow k w v => rw [e3, e4, e5, e8, e9]; exact h
    case width b w v => rw [e7]; exact h
    case height b w v => rw [e7]; exact h
    case value v => rw [e7]; exact h

/-- A block that has ended its operation meets the invariant if its streams, buffers and decoder do. -/
theorem State.Inv.finish {s : State} (he : s.EnvOk) (hd : s.DecoderOk) (r : Result) : (finish r s).Inv :=
  ⟨he, hd, trivial⟩

/-- A delivered octet moves the position within the source (20_memory.md R43). -/
theorem inv_read {s : State} {o : Octet} {rest : List ReadAnswer} (hi : s.Inv)
    (ho : s.src[s.ipos]? = some o) :
    State.Inv { s with ipos := s.ipos + 1, srcAnswers := rest } := by
  obtain ⟨⟨h1, h2, h3, h4, h5⟩, h6, h7⟩ := hi
  have := (List.getElem?_eq_some_iff.mp ho).1
  exact ⟨⟨this, h2, h3, h4, h5⟩, h6, h7.congr ⟨rfl, rfl, rfl, rfl, rfl, rfl, rfl, rfl, rfl⟩⟩

/-- A row that exists lies in a buffer that passed the length check (42_unpack.md R142). -/
theorem pixel_in {w h : Dim} {row len : Nat} (hl : pixelCount w h ≤ len) (hr : row < h.toNat) :
    row * w.toNat + w.toNat ≤ len := by
  have h1 : (row + 1) * w.toNat ≤ h.toNat * w.toNat := Nat.mul_le_mul_right _ hr
  rw [Nat.succ_mul] at h1
  rw [pixelCount, Nat.mul_comm] at hl
  omega

/-- An octet of the source, at the field where the reader stands, always answers and keeps the invariant. -/
theorem receive_inv {s : State} {r : Reader} {o : Octet} (hi : s.Inv) (ha : s.activity = .reading r) :
    ∃ t, receive (decodeOctet r.field o) s = .next t ∧ t.Inv := by
  obtain ⟨he, hd, hk⟩ := hi
  have hk' := hk
  rw [ha] at hk'
  cases r with
  | typeField d =>
    refine ⟨_, receive_typeField ha o, ?_⟩
    split
    · exact ⟨he, hd, hk'⟩
    · exact State.Inv.finish he hd _
  | fixHeader d =>
    refine ⟨_, receive_fixHeader ha o, ?_⟩
    split
    · exact State.Inv.finish he hd _
    · exact ⟨he, hd, hk'⟩
  | width d =>
    refine ⟨_, receive_width ha o, ?_⟩
    split
    · exact ⟨he, hd, hk.congr ⟨rfl, rfl, rfl, rfl, rfl, rfl, rfl, rfl, rfl⟩⟩
    · exact ⟨he, hd, hk'⟩
  | height d w =>
    refine ⟨_, receive_height ha o, ?_⟩
    split
    · exact ⟨he, hd, hk.congr ⟨rfl, rfl, rfl, rfl, rfl, rfl, rfl, rfl, rfl⟩⟩
    · cases d with
      | latch =>
        exact State.Inv.finish (s := s.latchHeader w _) he ⟨by simp [State.latchHeader], fun _ => ⟨rfl, rfl⟩⟩
          (okRecord 0 0)
      | deliver => exact State.Inv.finish he hd _
  | value =>
    refine ⟨_, receive_value ha o, ?_⟩
    split
    · exact ⟨he, hd, hk.congr ⟨rfl, rfl, rfl, rfl, rfl, rfl, rfl, rfl, rfl⟩⟩
    · exact State.Inv.finish he hd _
  | pixelRow w h =>
    obtain ⟨k1, k2, k3, k4⟩ := hk'
    by_cases hr : s.rowbuf.length + 1 < rowOctets w
    · refine ⟨_, receive_pixel_part ha o hr, he, hd, ?_⟩
      show Activity.Ok s.activity _
      rw [ha]
      exact ⟨k1, k2, by simpa using hr, k4⟩
    · obtain ⟨m, m1, m2, m3, m4⟩ := inspectRow_spec (w := w) (s := { s with rowbuf := s.rowbuf ++ [o] }) he.2.2.1
        (pixel_in k1 k2) (by simp; omega)
      refine ⟨_, (receive_pixel_last ha o (by omega)).trans (by rw [m1]; rfl), ?_⟩
      have he' : State.EnvOk { s with rowbuf := s.rowbuf ++ [o], pix := m, col := w } :=
        ⟨he.1, he.2.1, m2, he.2.2.2.1, by rw [m3]; exact he.2.2.2.2⟩
      unfold rowDone
      split
      · exact State.Inv.finish he' hd _
      · rename_i hne
        refine ⟨he', hd, ?_⟩
        show Activity.Ok s.activity _
        rw [ha]
        have hs : (s.row + 1).toNat = s.row.toNat + 1 := toNat_succ_of_lt k2
        refine ⟨by show _ ≤ m.len; rw [m3]; exact k1, ?_, ?_, rfl⟩
        · show (s.row + 1).toNat < h.toNat
          have : (s.row + 1).toNat ≠ h.toNat := fun e => hne (BitVec.eq_of_toNat_eq e)
          omega
        · show 0 < rowOctets w
          omega

/-- The bits of a row's octet below its last pixel are 0 (10_state.md R27). -/
theorem packedOctet_low {k : ColorKind} {m : Memory} {t : Octet} {w r j : Nat} (n : Nat) (h : w - 8 * j ≤ n)
    (hn : n ≤ 8) : (packedOctet k m t w r j).toNat % 2 ^ (8 - n) = 0 := by
  apply Nat.eq_of_testBit_eq
  intro i
  rw [Nat.testBit_mod_two_pow, Nat.zero_testBit]
  by_cases hi : i < 8 - n
  · have : (packedOctet k m t w r j).toNat.testBit i = (packedOctet k m t w r j).getLsbD i := rfl
    rw [this]
    have := packedOctet_getLsbD k m t w r j (7 - i) (by omega)
    rw [show 7 - (7 - i) = i by omega] at this
    rw [this]
    simp
    omega
  · simp [hi]

/-- The next octet of pixel data is accumulated with `OCT` and `NB` as 10_state.md R26 and R27 say. -/
theorem nextOctet_inv {k : ColorKind} {w h : Dim} {s : State} {j : Nat} (he : s.EnvOk) (hd : s.DecoderOk)
    (ha : s.activity = .writing (.pixelRow k w h)) (hl : s.smp.len = sampleLength k w h)
    (hr : s.row.toNat < h.toNat) (hc : s.col.toNat < w.toNat) (hj : s.col.toNat = 8 * j) :
    ∃ t, nextOctet k w s = .next t ∧ t.Inv ∧ t.results = s.results ∧ t.activity = s.activity := by
  obtain ⟨nb, c, h1, h2, h3⟩ := nextOctet_spec hl hr hc hj
  refine ⟨_, h1, ⟨he, hd, ?_⟩, rfl, rfl⟩
  show Activity.Ok s.activity _
  rw [ha]
  have := nb.isLt
  refine ⟨hl, hr, ?_, ?_, ?_, ?_⟩
  · show c.toNat < _; omega
  · show nb.toNat = c.toNat % 8 + 1; omega
  · show (packedOctet _ _ _ _ _ _).toNat % 2 ^ (8 - nb.toNat) = 0
    rcases Nat.lt_or_ge (w.toNat - 8 * j) 8 with hlt | hge
    · exact packedOctet_low _ (by omega) (by omega)
    · rw [show 8 - nb.toNat = 0 by omega]; omega
  · show flushDue w c nb = true
    rw [flushDue_iff (by omega)]
    omega

/-- The start of a pack always answers and keeps the invariant (44_pack.md R177). -/
theorem startPack_inv {k : ColorKind} {w h : Dim} {s : State} (he : s.EnvOk) (hd : s.DecoderOk) :
    ∃ t, startPack k w h s = .next t ∧ t.Inv := by
  unfold startPack
  split
  · exact ⟨_, rfl, State.Inv.finish he hd _⟩
  · rename_i hl
    have hl : s.smp.len = sampleLength k w h := by simpa [smpWrongLength] using hl
    split
    · exact ⟨_, rfl, State.Inv.finish he hd _⟩
    · rename_i hz
      simp only [emptyImage, Bool.or_eq_true, decide_eq_true_eq, not_or] at hz
      have h1 : w.toNat ≠ 0 := fun e => hz.1 (BitVec.eq_of_toNat_eq e)
      have h2 : h.toNat ≠ 0 := fun e => hz.2 (BitVec.eq_of_toNat_eq e)
      obtain ⟨t, a, b, _⟩ := nextOctet_inv (j := 0)
        (s := { s with row := 0, col := 0, activity := .writing (.pixelRow k w h) }) he hd rfl hl
        (by show 0 < _; omega) (by show 0 < _; omega) rfl
      exact ⟨t, a, b⟩

/-- `GRP` counts down to 0 (40_vle.md R105). -/
theorem grp_pred {g : BitVec 3} {n : Nat} (hg : g.toNat < n) : g ≠ 0 → (g - 1).toNat < n := by
  intro hz
  have h1 : (1 : BitVec 3).toNat = 1 := rfl
  have : g.toNat ≠ 0 := fun e => hz (BitVec.eq_of_toNat_eq e)
  have := g.isLt
  rw [BitVec.toNat_sub, h1]
  omega

/-- The first group is one of the integer's (40_vle.md R105). -/
theorem firstGroup_lt (v : Dim) : (firstGroup v).toNat < vleLength v := by
  have := vleLength_bounds v
  rw [firstGroup, BitVec.toNat_ofNat, Nat.mod_eq_of_lt (by omega)]
  omega

/-- What follows an accepted octet always answers and keeps the invariant. -/
theorem afterWrite_inv {s : State} {w : Writer} (hi : s.Inv) (ha : s.activity = .writing w) :
    ∃ t, afterWrite w s = .next t ∧ t.Inv := by
  obtain ⟨he, hd, hk⟩ := hi
  rw [ha] at hk
  cases w with
  | typeField b w h => exact ⟨_, rfl, he, hd, trivial⟩
  | fixHeader b w h => exact ⟨_, rfl, he, hd, firstGroup_lt w⟩
  | width b w h =>
    simp only [afterWrite]
    split
    · exact ⟨_, rfl, he, hd, firstGroup_lt h⟩
    · rename_i hz
      refine ⟨_, rfl, he, hd, ?_⟩
      show Activity.Ok s.activity _
      rw [ha]; exact grp_pred hk hz
  | height b w h =>
    simp only [afterWrite]
    split
    · unfold afterHeader
      split
      · exact ⟨_, rfl, State.Inv.finish he hd _⟩
      · exact startPack_inv he hd
    · rename_i hz
      refine ⟨_, rfl, he, hd, ?_⟩
      show Activity.Ok s.activity _
      rw [ha]; exact grp_pred hk hz
  | value v =>
    simp only [afterWrite]
    split
    · exact ⟨_, rfl, State.Inv.finish he hd _⟩
    · rename_i hz
      refine ⟨_, rfl, he, hd, ?_⟩
      show Activity.Ok s.activity _
      rw [ha]; exact grp_pred hk hz
  | pixelRow k w h =>
    obtain ⟨k1, k2, k3, k4, k5, k6⟩ := hk
    rw [flushDue_iff (by omega)] at k6
    have hw : (w - 1).toNat = w.toNat - 1 := toNat_sub_one (by omega)
    simp only [afterWrite, afterFlush]
    split
    · rename_i hc
      split
      · exact ⟨_, rfl, State.Inv.finish he hd _⟩
      · rename_i hne
        have hs : (s.row + 1).toNat = s.row.toNat + 1 := toNat_succ_of_lt k2
        have : (s.row + 1).toNat ≠ h.toNat := fun e => hne (BitVec.eq_of_toNat_eq e)
        obtain ⟨t, a, b, _⟩ := nextOctet_inv (j := 0) (s := { s with row := s.row + 1, col := 0 }) he hd ha k1
          (by show (s.row + 1).toNat < _; omega) (by show 0 < _; omega) rfl
        exact ⟨t, a, b⟩
    · rename_i hc
      have hc' : s.col.toNat ≠ w.toNat - 1 := fun e => hc (BitVec.eq_of_toNat_eq (by rw [e, hw]))
      have hs : (s.col + 1).toNat = s.col.toNat + 1 := toNat_succ_of_lt k3
      obtain ⟨t, a, b, _⟩ := nextOctet_inv (j := s.col.toNat / 8 + 1) (s := { s with col := s.col + 1 }) he hd ha k1 k2
        (by show (s.col + 1).toNat < _; omega) (by show (s.col + 1).toNat = _; omega)
      exact ⟨t, a, b⟩

/-- The start of an unpack keeps the invariant (42_unpack.md R142, R143). -/
theorem startUnpack_inv {w h : Dim} {s : State} (hi : s.EnvOk) (hd : s.DecoderOk) : (startUnpack w h s).Inv := by
  rcases startUnpack_cases w h s with ⟨_, e⟩ | ⟨h1, m, hl, hw, _, ⟨_, e⟩ | ⟨hz, e⟩⟩ <;> rw [e]
  · exact State.Inv.finish hi hd _
  · exact State.Inv.finish (s := { s with pix := m })
      ⟨hi.1, hi.2.1, hw hi.2.2.1, hi.2.2.2.1, by rw [hl]; exact hi.2.2.2.2⟩ hd _
  · refine ⟨⟨hi.1, hi.2.1, hw hi.2.2.1, hi.2.2.2.1, by rw [hl]; exact hi.2.2.2.2⟩, hd, ?_⟩
    simp only [emptyImage, Bool.or_eq_false_iff, decide_eq_false_iff_not] at hz
    have h1 : w.toNat ≠ 0 := fun e => hz.1 (BitVec.eq_of_toNat_eq e)
    have h2 : h.toNat ≠ 0 := fun e => hz.2 (BitVec.eq_of_toNat_eq e)
    exact ⟨by show _ ≤ m.len; rw [hl]; assumption, by show 0 < _; omega,
      by show 0 < rowOctets w; unfold rowOctets; omega, rfl⟩

end Sys2Proof.Machine
end

