-- ==== Sys2Proof/Laws/PerInstr.lean ====
section
/-! SUPPORT. The family `RoundTrip`: decoding what `encode` writes gives the instruction back, one lemma a
constructor. -/

namespace Sys2Proof.Laws.RoundTrip

/-- At every port where a well-formed instruction is met, its word decodes to it. -/
def Statement (i : Instr) : Prop :=
  WellFormed i = true → ∀ p, i.foundAt p = true → decode p (encode i) = .ok i

/-- A command is met at the command port only. -/
theorem of_command {i : Instr} (hp : ∀ p, i.foundAt p = true → p = .command)
    (h : decodeCommand (encode i) = .ok i) : Statement i := by
  intro _ p hf
  rw [hp p hf]
  exact h

theorem decNew : Statement .decNew := of_command (by simp [Instr.foundAt]) rfl
theorem dims : Statement .dims := of_command (by simp [Instr.foundAt]) rfl
theorem rdimg : Statement .rdimg := of_command (by simp [Instr.foundAt]) rfl
theorem encNew : Statement .encNew := of_command (by simp [Instr.foundAt]) rfl
theorem setthr (t : Octet) : Statement (.setthr t) :=
  of_command (by simp [Instr.foundAt]) (by simp [decodeCommand, encode])
theorem encodeL (w h : Dim) : Statement (.encodeL w h) :=
  of_command (by simp [Instr.foundAt]) (by simp [decodeCommand, encode])
theorem encodeC (w h : Dim) : Statement (.encodeC w h) :=
  of_command (by simp [Instr.foundAt]) (by simp [decodeCommand, encode])
theorem rdhdr : Statement .rdhdr := of_command (by simp [Instr.foundAt]) rfl
theorem wrhdr (w h : Dim) : Statement (.wrhdr w h) :=
  of_command (by simp [Instr.foundAt]) (by simp [decodeCommand, encode])
theorem unpack (w h : Dim) : Statement (.unpack w h) :=
  of_command (by simp [Instr.foundAt]) (by simp [decodeCommand, encode])
theorem packL (w h : Dim) (t : Octet) : Statement (.packL w h t) :=
  of_command (by simp [Instr.foundAt]) (by simp [decodeCommand, encode])
theorem packC (w h : Dim) (t : Octet) : Statement (.packC w h t) :=
  of_command (by simp [Instr.foundAt]) (by simp [decodeCommand, encode])
theorem vldec : Statement .vldec := of_command (by simp [Instr.foundAt]) rfl
theorem vlenc (v : Dim) : Statement (.vlenc v) :=
  of_command (by simp [Instr.foundAt]) (by simp [decodeCommand, encode])
theorem thrcmpL (s t : Octet) : Statement (.thrcmpL s t) :=
  of_command (by simp [Instr.foundAt]) (by simp [decodeCommand, encode])
theorem thrcmpC (r g b a t : Octet) : Statement (.thrcmpC r g b a t) :=
  of_command (by simp [Instr.foundAt]) (by simp [decodeCommand, encode])

theorem typeOk : Statement .typeOk := by
  intro _ p hf
  obtain rfl : p = .source .typeField := by simpa [Instr.foundAt] using hf
  rfl

theorem typeBad (t : Octet) : Statement (.typeBad t) := by
  intro hw p hf
  obtain rfl : p = .source .typeField := by simpa [Instr.foundAt] using hf
  have ht : t ≠ 0#8 := by simpa [WellFormed] using hw
  simp [decode, encode, decodeOctet, ht, OctetClass.toInstr]

theorem fixhdrOk (t : BitVec 2) (r : BitVec 5) : Statement (.fixhdrOk t r) := by
  intro _ p hf
  obtain rfl : p = .source .fixHeader := by simpa [Instr.foundAt] using hf
  simp only [decode, encode, octetWord_octet]
  revert t r; decide

theorem fixhdrExt (t : BitVec 2) (r : BitVec 5) : Statement (.fixhdrExt t r) := by
  intro _ p hf
  obtain rfl : p = .source .fixHeader := by simpa [Instr.foundAt] using hf
  simp only [decode, encode, octetWord_octet]
  revert t r; decide

theorem vleCont (g : BitVec 7) : Statement (.vleCont g) := by
  intro _ p hf
  simp only [Instr.foundAt, Bool.or_eq_true, decide_eq_true_eq] at hf
  rcases hf with (rfl | rfl) | rfl <;> simp only [decode, encode, octetWord_octet] <;> revert g <;> decide

theorem vleLast (g : BitVec 7) : Statement (.vleLast g) := by
  intro _ p hf
  simp only [Instr.foundAt, Bool.or_eq_true, decide_eq_true_eq] at hf
  rcases hf with (rfl | rfl) | rfl <;> simp only [decode, encode, octetWord_octet] <;> revert g <;> decide

theorem pixoct (p : Octet) : Statement (.pixoct p) := by
  intro _ q hf
  obtain rfl : q = .source .pixelData := by simpa [Instr.foundAt] using hf
  simp [decode, encode, decodeOctet, OctetClass.toInstr]

end Sys2Proof.Laws.RoundTrip
end

