-- ==== Sys2Proof/Laws/Registers.lean ====
section
/-! SUPPORT. Other values in the persistent registers: what the units compute does not depend on them (10_state.md
R31; 40_vle.md R109, 41_header.md R120, 42_unpack.md R149, 44_pack.md R186). A change of the persistent registers can
be made before a unit runs or after it. -/

namespace Sys2Proof.Machine

/-- A change of the persistent registers, each for itself. -/
structure RegisterMap where
  thr : Octet → Octet
  phase : Phase → Phase
  hdrType : Octet → Octet
  hdrExt : BitVec 1 → BitVec 1
  hdrW : Dim → Dim
  hdrH : Dim → Dim

/-- The state with its persistent registers changed. -/
def mapRegisters (f : RegisterMap) (s : State) : State :=
  { s with
    thr := f.thr s.thr
    phase := f.phase s.phase
    hdrType := f.hdrType s.hdrType
    hdrExt := f.hdrExt s.hdrExt
    hdrW := f.hdrW s.hdrW
    hdrH := f.hdrH s.hdrH }

/-- Other persistent registers altogether. -/
def RegisterMap.all (r : Registers) : RegisterMap :=
  ⟨fun _ => r.thr, fun _ => r.phase, fun _ => r.hdrType, fun _ => r.hdrExt, fun _ => r.hdrW, fun _ => r.hdrH⟩

/-- Other registers of the decoder half. -/
def RegisterMap.decoder (r : Registers) : RegisterMap := { RegisterMap.all r with thr := id }

/-- Another threshold. -/
def RegisterMap.threshold (t : Octet) : RegisterMap := ⟨fun _ => t, id, id, id, id, id⟩

/-- All persistent registers replaced. -/
theorem mapRegisters_all (r : Registers) (s : State) : mapRegisters (.all r) s = s.withRegisters r := rfl
/-- The registers of the decoder half replaced. -/
theorem mapRegisters_decoder (r : Registers) (s : State) : mapRegisters (.decoder r) s = s.withDecoder r := rfl
/-- The threshold replaced. -/
theorem mapRegisters_threshold (t : Octet) (s : State) : mapRegisters (.threshold t) s = { s with thr := t } := rfl

/-! Every other field stays. -/

section
variable (f : RegisterMap) (s : State)
theorem mapRegisters_activity : (mapRegisters f s).activity = s.activity := rfl
theorem mapRegisters_acc : (mapRegisters f s).acc = s.acc := rfl
theorem mapRegisters_col : (mapRegisters f s).col = s.col := rfl
theorem mapRegisters_row : (mapRegisters f s).row = s.row := rfl
theorem mapRegisters_pix : (mapRegisters f s).pix = s.pix := rfl
theorem mapRegisters_rowbuf : (mapRegisters f s).rowbuf = s.rowbuf := rfl
theorem mapRegisters_src : (mapRegisters f s).src = s.src := rfl
theorem mapRegisters_ipos : (mapRegisters f s).ipos = s.ipos := rfl
theorem mapRegisters_srcAnswers : (mapRegisters f s).srcAnswers = s.srcAnswers := rfl
theorem mapRegisters_cfg : (mapRegisters f s).cfg = s.cfg := rfl
theorem mapRegisters_snk : (mapRegisters f s).snk = s.snk := rfl
theorem mapRegisters_snkAnswers : (mapRegisters f s).snkAnswers = s.snkAnswers := rfl
theorem mapRegisters_grp : (mapRegisters f s).grp = s.grp := rfl
theorem mapRegisters_oct : (mapRegisters f s).oct = s.oct := rfl
theorem mapRegisters_nb : (mapRegisters f s).nb = s.nb := rfl
theorem mapRegisters_thrS : (mapRegisters f s).thrS = s.thrS := rfl
theorem mapRegisters_smp : (mapRegisters f s).smp = s.smp := rfl
end

/-- The change goes past the latching of a header: it leaves the decoder half alone (45_orchestration.md R196). -/
def RegisterMap.KeepsLatch (f : RegisterMap) : Prop :=
  ∀ (w h : Dim) (s : State), mapRegisters f (s.latchHeader w h) = (mapRegisters f s).latchHeader w h

/-- Another threshold goes past the latching of a header. -/
theorem keepsLatch_threshold (t : Octet) : (RegisterMap.threshold t).KeepsLatch := fun _ _ _ => rfl

/-- A header read for the result port, or no header read at all. -/
def Reader.delivers : Reader → Prop
  | .typeField d | .fixHeader d | .width d | .height d _ => d = .deliver
  | .value | .pixelRow _ _ => True

/-- What a state has in progress does not see the change: it will latch no header, or the change goes past that. -/
def Blind (f : RegisterMap) (s : State) : Prop := f.KeepsLatch ∨ ∀ r, s.activity = .reading r → r.delivers

variable {f : RegisterMap}

/-- Inspecting the bits of a row does not see the registers (42_unpack.md R149). -/
theorem inspectBits_mapRegisters (w : Dim) (bs : List Bool) (s : State) :
    inspectBits w bs (mapRegisters f s) = andThen (inspectBits w bs s) (fun t => .next (mapRegisters f t)) := by
  induction bs generalizing s with
  | nil => rfl
  | cons b rest ih =>
    have h1 : inspectBit w b (mapRegisters f s) = andThen (inspectBit w b s) (fun t => .next (mapRegisters f t)) := by
      unfold inspectBit
      by_cases hc : s.col = w
      · rw [if_pos hc, if_pos (by exact hc)]; rfl
      · rw [if_neg hc, if_neg (by exact hc)]
        cases b with
        | false => rfl
        | true =>
          simp only [if_true, mapRegisters_pix, mapRegisters_row, mapRegisters_col]
          cases memWrite s.pix (pixelIndex w s.row s.col) Config.white <;> rfl
    simp only [inspectBits]
    rw [h1]
    cases inspectBit w b s with
    | next t => exact ih t
    | fault => rfl
    | refused => rfl

/-- Ending a row does not see the registers. -/
theorem rowDone_mapRegisters (h : Dim) (s : State) : rowDone h (mapRegisters f s) = mapRegisters f (rowDone h s) := by
  unfold rowDone
  by_cases hc : s.row + 1 = h
  · rw [if_pos hc, if_pos (by exact hc)]; rfl
  · rw [if_neg hc, if_neg (by exact hc)]; rfl

/-- Taking one octet does not see the registers, but for the latching of a header. -/
theorem receive_mapRegisters (r : Reader) (o : Octet) (s : State) (ha : s.activity = .reading r) (hl : Blind f s) :
    receive (decodeOctet r.field o) (mapRegisters f s)
      = andThen (receive (decodeOctet r.field o) s) (fun t => .next (mapRegisters f t)) := by
  have ha' : (mapRegisters f s).activity = .reading r := (mapRegisters_activity f s).trans ha
  cases r with
  | typeField d =>
    refine (receive_typeField ha' o).trans ?_
    rw [show Reader.field (.typeField d) = .typeField from rfl, receive_typeField ha o, andThen_next]
    split
    · rfl
    · rfl
  | fixHeader d =>
    refine (receive_fixHeader ha' o).trans ?_
    rw [show Reader.field (.fixHeader d) = .fixHeader from rfl, receive_fixHeader ha o, andThen_next]
    split
    · rfl
    · rfl
  | width d =>
    refine (receive_width ha' o).trans ?_
    rw [show Reader.field (.width d) = .width from rfl, receive_width ha o, andThen_next]
    simp only [mapRegisters_acc]
    split
    · rfl
    · rfl
  | height d w =>
    refine (receive_height ha' o).trans ?_
    rw [show Reader.field (.height d w) = .height from rfl, receive_height ha o, andThen_next]
    simp only [mapRegisters_acc]
    split
    · rfl
    · cases d with
      | deliver => rfl
      | latch =>
        rcases hl with h | h
        · exact congrArg Host.Outcome.next (congrArg (finish (okRecord 0 0)) (h w _ s).symm)
        · have := h _ ha; cases this
  | value =>
    refine (receive_value ha' o).trans ?_
    rw [show Reader.field .value = .value from rfl, receive_value ha o, andThen_next]
    simp only [mapRegisters_acc]
    split
    · rfl
    · rfl
  | pixelRow w h =>
    by_cases hl : s.rowbuf.length + 1 < rowOctets w
    · refine (receive_pixel_part ha' o hl).trans ?_
      rw [show Reader.field (.pixelRow w h) = .pixelData from rfl, receive_pixel_part ha o hl]; rfl
    · refine (receive_pixel_last ha' o (by show _ ≤ s.rowbuf.length + 1; omega)).trans ?_
      rw [show Reader.field (.pixelRow w h) = .pixelData from rfl, receive_pixel_last ha o (by omega)]
      have hb := inspectBits_mapRegisters (f := f) w ((s.rowbuf ++ [o]).flatMap octetBits)
        { s with rowbuf := s.rowbuf ++ [o], col := 0 }
      refine (congrArg (fun x => andThen x (fun s2 => .next (rowDone h s2))) hb).trans ?_
      unfold inspectRow
      cases inspectBits w ((s.rowbuf ++ [o]).flatMap octetBits) { s with rowbuf := s.rowbuf ++ [o], col := 0 } with
      | next t => simp [rowDone_mapRegisters]
      | fault => rfl
      | refused => rfl

/-- What follows an octet does not see the change where the read before it did not. -/
theorem receive_blind {s t : State} {r : Reader} {o : Octet} (ha : s.activity = .reading r) (hl : Blind f s)
    (ht : receive (decodeOctet r.field o) s = .next t) : Blind f t := by
  rcases hl with h | h
  · exact .inl h
  refine .inr ?_
  have h' := h r ha
  cases r with
  | typeField d =>
    cases (receive_typeField ha o).symm.trans ht
    split
    · intro r hr; cases hr; exact h'
    · intro r hr; cases hr
  | fixHeader d =>
    cases (receive_fixHeader ha o).symm.trans ht
    split
    · intro r hr; cases hr
    · intro r hr; cases hr; exact h'
  | width d =>
    cases (receive_width ha o).symm.trans ht
    split
    · exact h
    · intro r hr; cases hr; exact h'
  | height d w =>
    cases (receive_height ha o).symm.trans ht
    split
    · exact h
    · cases d <;> (intro r hr; cases hr)
  | value =>
    cases (receive_value ha o).symm.trans ht
    split
    · exact h
    · intro r hr; cases hr
  | pixelRow w h2 =>
    by_cases hl : s.rowbuf.length + 1 < rowOctets w
    · cases (receive_pixel_part ha o hl).symm.trans ht
      exact h
    · replace ht := (receive_pixel_last ha o (by omega)).symm.trans ht
      obtain ⟨u, hu, ht⟩ := andThen_eq_next ht
      obtain ⟨m, c, rfl⟩ := inspectBits_frame hu
      cases ht
      unfold rowDone
      split
      · intro r hr; cases hr
      · exact h

/-- One access to the source does not see the registers. -/
theorem srcRead_mapRegisters (s : State) : srcRead (mapRegisters f s) = match srcRead s with
    | .silent => .silent
    | .failed c u => .failed c (mapRegisters f u)
    | .delivered o u => .delivered o (mapRegisters f u) := by
  unfold srcRead srcDeliver
  simp only [mapRegisters_srcAnswers, mapRegisters_src, mapRegisters_ipos]
  split
  · split
    · rfl
    · rfl
  · split
    · rfl
    · rfl
  · rfl
  · rfl

/-- A chain of reads does not see the registers. -/
theorem readLoop_mapRegisters (n : Nat) (s : State) (hl : Blind f s) :
    readLoop n (mapRegisters f s) = andThen (readLoop n s) (fun t => .next (mapRegisters f t)) := by
  induction n generalizing s with
  | zero => rfl
  | succ n ih =>
    cases ha : s.activity with
    | reading r =>
      have ha' : (mapRegisters f s).activity = .reading r := (mapRegisters_activity f s).trans ha
      simp only [readLoop, ha, ha', srcRead_mapRegisters]
      cases hd : srcRead s with
      | silent => rfl
      | failed c u => rfl
      | delivered o u =>
        obtain ⟨_, rest, rfl⟩ := srcRead_delivered hd
        simp only
        rw [receive_mapRegisters r o _ (by exact ha) (by exact hl)]
        cases hr : receive (decodeOctet r.field o) { s with ipos := s.ipos + 1, srcAnswers := rest } with
        | next t => exact ih t (receive_blind (s := { s with ipos := s.ipos + 1, srcAnswers := rest }) ha hl hr)
        | fault => rfl
        | refused => rfl
    | _ => simp [readLoop, ha, mapRegisters_activity]

/-- A reading operation does not see the registers (40_vle.md R109, 41_header.md R120, 42_unpack.md R149). -/
theorem runReader_mapRegisters (s : State) (hl : Blind f s) :
    runReader (mapRegisters f s) = andThen (runReader s) (fun t => .next (mapRegisters f t)) := by
  unfold runReader
  rw [show (mapRegisters f s).srcLeft = s.srcLeft by simp [State.srcLeft, mapRegisters_src, mapRegisters_ipos]]
  exact readLoop_mapRegisters _ s hl

/-- The start of `UNPACK` does not see the registers. -/
theorem startUnpack_mapRegisters (w h : Dim) (s : State) :
    startUnpack w h (mapRegisters f s) = mapRegisters f (startUnpack w h s) := by
  have hp : prezero w h (mapRegisters f s) = mapRegisters f (prezero w h s) := by
    unfold prezero
    rw [mapRegisters_cfg]
    split
    · rfl
    · rfl
  unfold startUnpack
  rw [mapRegisters_pix, hp]
  split
  · rfl
  · split
    · rfl
    · rfl

/-- The bit of a pixel comes from the sampled threshold, not from `THR`. -/
theorem sampleBit_mapRegisters (k : ColorKind) (w : Dim) (s : State) :
    sampleBit k w (mapRegisters f s) = sampleBit k w s := by
  cases k <;> simp [sampleBit, mapRegisters_smp, mapRegisters_thrS, mapRegisters_row, mapRegisters_col]

/-- Packing the bits of an octet does not see the registers. -/
theorem fillOctet_mapRegisters (k : ColorKind) (w : Dim) (n : Nat) (s : State) :
    fillOctet k w n (mapRegisters f s) = andThen (fillOctet k w n s) (fun t => .next (mapRegisters f t)) := by
  induction n generalizing s with
  | zero => rfl
  | succ n ih =>
    simp only [fillOctet, sampleBit_mapRegisters]
    cases sampleBit k w s with
    | none => simp [mapRegisters_row, mapRegisters_col, andThen]
    | some b =>
      have h1 : accumulateBit b (mapRegisters f s) = mapRegisters f (accumulateBit b s) := rfl
      simp only [h1, mapRegisters_col, mapRegisters_nb]
      split
      · rfl
      · exact ih { accumulateBit b s with col := s.col + 1 }

/-- Making up the next octet of a row does not see the registers. -/
theorem nextOctet_mapRegisters (k : ColorKind) (w : Dim) (s : State) :
    nextOctet k w (mapRegisters f s) = andThen (nextOctet k w s) (fun t => .next (mapRegisters f t)) := by
  unfold nextOctet
  exact fillOctet_mapRegisters _ _ _ { s with oct := 0, nb := 0 }

/-- The start of `PACK` does not see the registers. -/
theorem startPack_mapRegisters (k : ColorKind) (w h : Dim) (s : State) :
    startPack k w h (mapRegisters f s) = andThen (startPack k w h s) (fun t => .next (mapRegisters f t)) := by
  unfold startPack
  rw [mapRegisters_smp]
  split
  · rfl
  · split
    · rfl
    · exact nextOctet_mapRegisters _ _ { s with row := 0, col := 0, activity := .writing (.pixelRow k w h) }

/-- What follows an accepted octet does not see the registers. -/
theorem afterWrite_mapRegisters (w : Writer) (s : State) :
    afterWrite w (mapRegisters f s) = andThen (afterWrite w s) (fun t => .next (mapRegisters f t)) := by
  cases w with
  | typeField => rfl
  | fixHeader => rfl
  | width b w h =>
    simp only [afterWrite]
    by_cases hc : s.grp = 0
    · rw [if_pos hc, if_pos (by exact hc)]; rfl
    · rw [if_neg hc, if_neg (by exact hc)]; rfl
  | height b w h =>
    simp only [afterWrite]
    by_cases hc : s.grp = 0
    · rw [if_pos hc, if_pos (by exact hc)]
      cases b with
      | none => rfl
      | some k => exact startPack_mapRegisters _ _ _ _
    · rw [if_neg hc, if_neg (by exact hc)]; rfl
  | value v =>
    simp only [afterWrite]
    by_cases hc : s.grp = 0
    · rw [if_pos hc, if_pos (by exact hc)]; rfl
    · rw [if_neg hc, if_neg (by exact hc)]; rfl
  | pixelRow k w h =>
    simp only [afterWrite, afterFlush]
    by_cases hc : s.col = w - 1
    · rw [if_pos hc, if_pos (by exact hc)]
      by_cases hr : s.row + 1 = h
      · rw [if_pos hr, if_pos (by exact hr)]; rfl
      · rw [if_neg hr, if_neg (by exact hr)]
        exact nextOctet_mapRegisters _ _ { s with row := s.row + 1, col := 0 }
    · rw [if_neg hc, if_neg (by exact hc)]
      exact nextOctet_mapRegisters _ _ { s with col := s.col + 1 }

/-- The octet offered does not depend on the registers. -/
theorem octet_mapRegisters (w : Writer) (s : State) : w.octet (mapRegisters f s) = w.octet s := by
  cases w <;> simp [Writer.octet, mapRegisters_grp, mapRegisters_oct]

/-- A chain of writes does not see the registers. -/
theorem writeLoop_mapRegisters (n : Nat) (s : State) :
    writeLoop n (mapRegisters f s) = andThen (writeLoop n s) (fun t => .next (mapRegisters f t)) := by
  induction n generalizing s with
  | zero => rfl
  | succ n ih =>
    cases ha : s.activity with
    | writing w =>
      have ha' : (mapRegisters f s).activity = .writing w := (mapRegisters_activity f s).trans ha
      have hs : snkWrite (w.octet s) (mapRegisters f s) = match snkWrite (w.octet s) s with
          | .silent => .silent
          | .failed c u => .failed c (mapRegisters f u)
          | .accepted u => .accepted (mapRegisters f u) := by
        unfold snkWrite
        simp only [mapRegisters_snkAnswers, mapRegisters_snk]
        split
        · rfl
        · rfl
        · rfl
        · rfl
      simp only [writeLoop, ha, ha', octet_mapRegisters, hs]
      cases hd : snkWrite (w.octet s) s with
      | silent => rfl
      | failed c u => rfl
      | accepted u =>
        simp only
        rw [afterWrite_mapRegisters]
        cases afterWrite w u with
        | next t => exact ih t
        | fault => rfl
        | refused => rfl
    | _ => simp [writeLoop, ha, mapRegisters_activity]

/-- A writing operation does not see the registers. -/
theorem runWriter_mapRegisters (s : State) :
    runWriter (mapRegisters f s) = andThen (runWriter s) (fun t => .next (mapRegisters f t)) := by
  unfold runWriter
  rw [mapRegisters_activity]
  split
  · exact writeLoop_mapRegisters _ _
  · rfl

/-- `PACK` with a sampled threshold does not see the registers (44_pack.md R186). -/
theorem runPack_mapRegisters (k w h x) (s : State) :
    runPack k w h x (mapRegisters f s) = andThen (runPack k w h x s) (fun t => .next (mapRegisters f t)) := by
  unfold runPack
  rw [show ({ mapRegisters f s with thrS := x } : State) = mapRegisters f { s with thrS := x } from rfl,
    startPack_mapRegisters]
  cases startPack k w h { s with thrS := x } with
  | next t => exact runWriter_mapRegisters t
  | fault => rfl
  | refused => rfl

end Sys2Proof.Machine
end

