-- ==== Sys2Proof/Tests/Slice0.lean ====
section
/-! SUPPORT. Small tests. Every expected value is taken from the spec: the encodings of 30_encoding.md and the
vectors of 95_test_vectors.md, named beside each. -/

namespace Sys2Proof.Tests

open Sys2Proof.Machine

/-! ## WellFormed refuses an ill-formed term of its one check -/

theorem test_wellFormed_refuses_typeBad_zero : WellFormed (.typeBad 0x00) = false := by decide
theorem test_wellFormed_admits_typeBad_one : WellFormed (.typeBad 0x01) = true := by decide

/-! ## Decoding: words written out from 30_encoding.md R84, R85, R92 and 95_test_vectors.md -/

theorem test_decode_decNew : decode .command 0x00000000000000000001#80 = .ok .decNew := by decide
theorem test_decode_dims : decode .command 0x00000000000000000002#80 = .ok .dims := by decide
theorem test_decode_rdimg : decode .command 0x00000000000000000003#80 = .ok .rdimg := by decide
theorem test_decode_encNew : decode .command 0x00000000000000000004#80 = .ok .encNew := by decide
theorem test_decode_setthr : decode .command 0x00000000000000008005#80 = .ok (.setthr 0x80) := by decide
theorem test_decode_encodeL : decode .command 0x00000002000000090006#80 = .ok (.encodeL 9 2) := by decide
theorem test_decode_encodeC : decode .command 0x00000002000000030016#80 = .ok (.encodeC 3 2) := by decide
theorem test_decode_rdhdr : decode .command 0x00000000000000000008#80 = .ok .rdhdr := by decide
theorem test_decode_wrhdr : decode .command 0x00004000000000C80009#80 = .ok (.wrhdr 200 16384) := by decide
theorem test_decode_unpack : decode .command 0x0000000200000009000A#80 = .ok (.unpack 9 2) := by decide
theorem test_decode_packL : decode .command 0x00000001000000097F0B#80 = .ok (.packL 9 1 0x7F) := by decide
theorem test_decode_packC : decode .command 0x0000000200000003801B#80 = .ok (.packC 3 2 0x80) := by decide
theorem test_decode_vldec : decode .command 0x0000000000000000000C#80 = .ok .vldec := by decide
theorem test_decode_vlenc : decode .command 0x0000000000004000000D#80 = .ok (.vlenc 16384) := by decide
theorem test_decode_thrcmpL : decode .command 0x000000000000007E7F0E#80 = .ok (.thrcmpL 0x7E 0x7F) := by decide
theorem test_decode_thrcmpC :
    decode .command 0x000000007E7F7F807F1E#80 = .ok (.thrcmpC 128 127 127 126 0x7F) := by decide

/-- The reserved low bytes of vector V-O7. -/
theorem test_decode_reserved :
    [0x00#8, 0x07#8, 0x0F#8, 0x10#8, 0x11#8, 0x12#8, 0x17#8, 0x1A#8, 0x1C#8, 0x1F#8, 0x26#8, 0x81#8].all
      (fun low => decode .command (commandWord 0 0 0 low) = .error (.reservedCommand low)) = true := by decide

/-- Bits of the operand fields an operation does not use are ignored (R86). -/
theorem test_decode_ignores_unused_operands :
    decode .command 0xFFFFFFFFFFFFFFFFFF01#80 = .ok .decNew := by decide

/-- `0b00000000` and `0b10000001` at the TypeField (R71). -/
theorem test_decode_type :
    decode (.source .typeField) 0b00000000#80 = .ok .typeOk ∧
    decode (.source .typeField) 0b10000001#80 = .ok (.typeBad 0x81) := by decide

/-- `0ttrrrrr` and `1ttrrrrr` with `tt` = 11, `rrrrr` = 00101 (R72). -/
theorem test_decode_fixhdr :
    decode (.source .fixHeader) 0b01100101#80 = .ok (.fixhdrOk 0b11 0b00101) ∧
    decode (.source .fixHeader) 0b11100101#80 = .ok (.fixhdrExt 0b11 0b00101) := by decide

/-- `1ggggggg` and `0ggggggg` with `g` = 1000010 (R73). -/
theorem test_decode_vle :
    decode (.source .width) 0b11000010#80 = .ok (.vleCont 0b1000010) ∧
    decode (.source .height) 0b01000010#80 = .ok (.vleLast 0b1000010) := by decide

theorem test_decode_pixoct : decode (.source .pixelData) 0b10100101#80 = .ok (.pixoct 0b10100101) := by decide

/-! ## One step on a small state -/

/-- An idle block with a source and a sink that already holds nothing. -/
def withSource (src : List Octet) : State := { State.reset with src := src }

/-- An idle block with a sample buffer. -/
def withSamples (bytes : List Octet) : State := { State.reset with smp := Memory.ofBytes bytes }

/-- An idle block with a source and a pixel buffer. -/
def withPixels (src bytes : List Octet) : State := { withSource src with pix := Memory.ofBytes bytes }

/-- A decoder in Ready with these dimensions. -/
def ready (w h : Dim) (s : State) : State := s.latchHeader w h

/-- What is read of the state an instruction leaves. -/
def left {α : Type} (f : State → α) (o : Host.Outcome State Fault Refusal) : Option α :=
  match o with
  | .next s => some (f s)
  | _ => none

/-- The refusal an instruction ends in. -/
def refusal (o : Host.Outcome State Fault Refusal) : Option Refusal :=
  match o with
  | .refused r => some r
  | _ => none

/-- The first `n` bytes of the pixel buffer. -/
def pixels (n : Nat) (s : State) : List Octet := (List.range n).map s.pix.read

/-- V-V19: the five-octet form. -/
theorem test_vlenc_five_octets :
    left (fun s => (s.snk, s.results, s.busy)) (exec (.vlenc 305419896) State.reset) =
      some ([0x81, 0x91, 0xD1, 0xAC, 0x78], [okRecord 0 0], false) := by decide

/-- V-V23: the second write fails. -/
theorem test_vlenc_failed_write :
    left (fun s => (s.snk, s.results))
      (exec (.vlenc 16384) { State.reset with snkAnswers := [.accept, .fail (.env 7)] }) =
      some ([0x81], [{ kind := 1, info := 0, cause := some (.env 7), a := 0, b := 0 }]) := by decide

/-- V-V35: bit 32 is dropped. -/
theorem test_vldec_drops_high_bits :
    left (fun s => (s.results, s.ipos)) (exec .vldec (withSource [0x9F, 0xFF, 0xFF, 0xFF, 0x7F])) =
      some ([okRecord 4294967295 0], 5) := by decide

/-- V-V41: the stream ends inside an integer. -/
theorem test_vldec_end_of_stream :
    left (fun s => (s.results, s.ipos)) (exec .vldec (withSource [0xFF, 0xFF])) =
      some ([Err.record (.ioError .eos)], 2) := by decide

/-- V-H17: the low flag bits are ignored, the width is not canonical. -/
theorem test_rdhdr_ignored_bits :
    left (fun s => (s.results, s.ipos, s.phase)) (exec .rdhdr (withSource [0x00, 0x7F, 0x80, 0x80, 0x01, 0x00])) =
      some ([okRecord 1 0], 6, .uninitialized) := by decide

/-- V-H3: the type is rejected before the flag octet is read. -/
theorem test_rdhdr_type_rejected :
    left (fun s => (s.results, s.ipos)) (exec .rdhdr (withSource [0x01, 0x80])) =
      some ([Err.record (.unsupportedType 1)], 1) := by decide

/-- V-H23. -/
theorem test_wrhdr :
    left State.snk (exec (.wrhdr 200 16384) State.reset) =
      some [0x00, 0x00, 0x81, 0x48, 0x81, 0x80, 0x00] := by decide

/-- V-U8: two rows of 9, the bytes beyond `w * h` untouched. -/
theorem test_unpack_rows :
    left (fun s => (pixels 20 s, s.ipos))
      (exec (.unpack 9 2) (withPixels [0xAA, 0x80, 0x00, 0x80] (List.replicate 20 0x55))) =
      some ([0xFF, 0, 0xFF, 0, 0xFF, 0, 0xFF, 0, 0xFF, 0, 0, 0, 0, 0, 0, 0, 0, 0xFF, 0x55, 0x55], 4) := by decide

/-- V-U11: row 0 stands, row 1 is never read. -/
theorem test_unpack_failed_row :
    left (fun s => (pixels 4 s, s.results, s.ipos))
      (exec (.unpack 2 2) (withPixels [0xC0] (List.replicate 4 0x55))) =
      some ([0xFF, 0xFF, 0, 0], [Err.record (.ioError .eos)], 1) := by decide

/-- V-T2. -/
theorem test_thrcmpL_one_below :
    left State.results (exec (.thrcmpL 0x7E 0x7F) State.reset) = some [okRecord 0 0] := by decide

/-- V-T3: the comparison is unsigned. -/
theorem test_thrcmpL_unsigned :
    left State.results (exec (.thrcmpL 0x80 0x7F) State.reset) = some [okRecord 1 0] := by decide

/-- V-T11: the division truncates. -/
theorem test_thrcmpC_truncates :
    left State.results (exec (.thrcmpC 127 127 127 126 0x7F) State.reset) = some [okRecord 0 0] := by decide

/-- V-T14: alpha counts. -/
theorem test_thrcmpC_alpha :
    left State.results (exec (.thrcmpC 160 160 160 0 0x7F) State.reset) = some [okRecord 0 0] := by decide

/-- V-P3: three short rows. -/
theorem test_packL_short_rows :
    left State.snk (exec (.packL 3 3 0x7F) (withSamples [0xFF, 0, 0xFF, 0, 0xFF, 0, 0xFF, 0xFF, 0xFF])) =
      some [0xA0, 0x40, 0xE0] := by decide

/-- V-P14: a buffer one byte too long. -/
theorem test_packL_wrong_length :
    left (fun s => (s.snk, s.results)) (exec (.packL 2 2 0x7F) (withSamples [0, 0, 0, 0, 0])) =
      some ([], [Err.record .invalidImageData]) := by decide

/-- V-P11. -/
theorem test_packC :
    left State.snk (exec (.packC 3 2 0x80) (withSamples
      [0xFF, 0xFF, 0xFF, 0x00, 0x00, 0x00, 0x00, 0xFF, 0x7F, 0x7F, 0x7F, 0x7F,
       0x7F, 0x7F, 0x7F, 0x7E, 0x80, 0x7F, 0x7F, 0x7E, 0xFF, 0xFF, 0xFF, 0xFF])) =
      some [0x80, 0x20] := by decide

/-- Program P1, step 1. -/
theorem test_decNew_latches :
    left (fun s => (s.phase, s.hdrW, s.hdrH, s.ipos)) (exec .decNew (withSource [0x00, 0x00, 0x02, 0x02, 0xC0, 0xC0])) =
      some (.ready, 2, 2, 4) := by decide

/-- V-O6: a failed construction leaves no decoder. -/
theorem test_decNew_fails :
    left (fun s => (s.phase, s.results)) (exec .decNew (ready 2 2 (withSource [0x01]))) =
      some (.uninitialized, [Err.record (.unsupportedType 1)]) := by decide

/-- Program P1, step 2. -/
theorem test_dims :
    left State.results (exec .dims (ready 9 2 State.reset)) = some [okRecord 9 2] := by decide

/-- V-O1. -/
theorem test_dims_without_decoder : refusal (exec .dims State.reset) = some .noDecoder := by decide

/-- Program P4, step 3. -/
theorem test_rdimg :
    left (fun s => (pixels 4 s, s.ipos, s.phase))
      (exec .rdimg (ready 2 2 (withPixels [0x40, 0x80] [0xFF, 0xFF, 0xFF, 0xFF]))) =
      some ([0x00, 0xFF, 0xFF, 0x00], 2, .ready) := by decide

/-- V-O2. -/
theorem test_rdimg_without_decoder : refusal (exec .rdimg State.reset) = some .noDecoder := by decide

/-- V-O5. -/
theorem test_encNew :
    left (fun s => (s.thr, s.snk)) (exec .encNew { State.reset with thr := 0x80 }) = some (0x7F, []) := by decide

/-- V-O4. -/
theorem test_setthr : left State.thr (exec (.setthr 0x80) State.reset) = some 0x80 := by decide

/-- Program P2, step 1. -/
theorem test_encodeL :
    left State.snk (exec (.encodeL 9 2) (withSamples
      [0xFF, 0, 0xFF, 0, 0xFF, 0, 0xFF, 0, 0xFF, 0, 0, 0, 0, 0, 0, 0, 0, 0xFF])) =
      some [0x00, 0x00, 0x09, 0x02, 0xAA, 0x80, 0x00, 0x80] := by decide

/-- Program P6, step 1: the header is written before the length check. -/
theorem test_encodeL_wrong_length :
    left (fun s => (s.snk, s.results)) (exec (.encodeL 2 2) (withSamples [0xFF, 0xFF, 0xFF])) =
      some ([0x00, 0x00, 0x02, 0x02], [Err.record .invalidImageData]) := by decide

/-- Program P3, step 2. -/
theorem test_encodeC :
    left State.snk (exec (.encodeC 3 2) (withSamples
      [0xFF, 0xFF, 0xFF, 0x00, 0x00, 0x00, 0x00, 0xFF, 0x7F, 0x7F, 0x7F, 0x7F,
       0x7F, 0x7F, 0x7F, 0x7E, 0x80, 0x7F, 0x7F, 0x7E, 0xFF, 0xFF, 0xFF, 0xFF])) =
      some [0x00, 0x00, 0x03, 0x02, 0xA0, 0x60] := by decide

/-! ## A blocked operation (20_memory.md R48) takes its octets one step at a time -/

/-- A read operation at a place, with one octet to come. -/
def readingAt (r : Reader) (o : Octet) : State := { withSource [o] with activity := .reading r }

theorem test_typeOk :
    left State.activity (step (readingAt (.typeField .deliver) 0x00)) =
      some (.reading (.fixHeader .deliver)) := by decide

theorem test_typeBad :
    left State.results (step (readingAt (.typeField .latch) 0xFF)) =
      some [Err.record (.unsupportedType 0xFF)] := by decide

theorem test_fixhdrOk :
    left (fun s => (s.activity, s.acc)) (step { readingAt (.fixHeader .deliver) 0x60 with acc := 9 }) =
      some (.reading (.width .deliver), 0) := by decide

theorem test_fixhdrExt :
    left State.results (step (readingAt (.fixHeader .latch) 0x80)) =
      some [Err.record .unsupportedHeaders] := by decide

/-- The trace of V-V34: `0FFFFFFF`, then `FFFFFFFF`. -/
theorem test_vleCont_drops_high_bits :
    left State.acc (step { readingAt (.width .latch) 0xFF with acc := 0x0FFFFFFF }) =
      some 0xFFFFFFFF := by decide

theorem test_vleLast_width_then_height :
    left (fun s => (s.activity, s.acc)) (step { readingAt (.width .deliver) 0x48 with acc := 1 }) =
      some (.reading (.height .deliver 200), 0) := by decide

theorem test_vleLast_latches :
    left (fun s => (s.phase, s.hdrW, s.hdrH)) (step { readingAt (.height .latch 200) 0x00 with acc := 128 }) =
      some (.ready, 200, 16384) := by decide

/-- The first octet of a two-octet row writes no pixel (42_unpack.md R144). -/
theorem test_pixoct_waits_for_row :
    left (fun s => (pixels 9 s, s.rowbuf))
      (step { withPixels [0xFF] (List.replicate 9 0) with activity := .reading (.pixelRow 9 1) }) =
      some (List.replicate 9 0, [0xFF]) := by decide

/-- V-U4: three pixels of one octet, the padding skipped; the next row begins at column 0 (10_state.md R21). -/
theorem test_pixoct_row_skip :
    left (fun s => (pixels 6 s, s.row, s.col))
      (step { withPixels [0xBF] [0, 0, 0, 0, 0, 0] with activity := .reading (.pixelRow 3 2) }) =
      some ([0xFF, 0x00, 0xFF, 0x00, 0x00, 0x00], 1, 0) := by decide

/-- An octet of a class that has no place here has no meaning (30_encoding.md R80). -/
theorem test_octet_out_of_place : refusal (exec .typeOk State.reset) = some .octetOutOfPlace := by decide

/-- An unanswered read leaves the operation in progress, and the next step too (20_memory.md R48). -/
theorem test_unanswered_read :
    left (fun s => (s.busy, s.results, left (fun t => decide (t = s)) (step s)))
      (exec .vldec { withSource [0x05] with srcAnswers := [.silent] }) = some (true, [], some true) := by decide

/-! ## The command port -/

/-- A command waiting at the port is run; a reserved one is refused (30_encoding.md R86). -/
theorem test_step_runs_command :
    left State.thr (step { State.reset with cmds := [0x00000000000000008005#80] }) = some 0x80 ∧
    refusal (step { State.reset with cmds := [0x07#80] }) = some (.reservedCommand 0x07) := by decide

/-- Program P7, step 1, placed as the host places a word. -/
theorem test_withFetchWord :
    left State.thr (step (State.reset.withFetchWord 16 0x8005)) = some 0x80 ∧
    left State.acc (step (State.reset.withFetchWord 8 0x81)) = some 1 := by decide

/-! ## Witnesses: concrete states and operands that meet all hypotheses of an obligation

Each is named after its obligation. Where a statement has several clauses, each clause has one, at a boundary of its
range. -/

/-- An unpack of 9 columns and 2 rows in its last row, one of its two octets read. -/
def unpacking : State :=
  { withPixels [0xAA, 0x80, 0x00, 0x80] (List.replicate 18 0) with
    ipos := 3, row := 1, rowbuf := [0x00], activity := .reading (.pixelRow 9 2) }

/-- A pack of 9 columns and 1 row, its last octet (one pixel) accumulated. -/
def packing : State :=
  { withSamples (List.replicate 9 0xFF) with
    snk := [0xFF], col := 8, nb := 1, oct := 0x80, activity := .writing (.pixelRow .luma8 9 1) }

/-- A `VLENC 128` whose first octet is not yet written. -/
def writing128 : State := { State.reset with grp := 1, activity := .writing (.value 128) }

/-- An idle block at which `SETTHR 0x80` waits. -/
def offered : State := { State.reset with cmds := [0x00000000000000008005#80] }

theorem unpacking_inv : unpacking.Inv :=
  ⟨⟨by decide, by decide, by decide, by decide, by decide⟩, ⟨by decide, by decide⟩, by decide, by decide, by decide, rfl⟩

theorem packing_inv : packing.Inv :=
  ⟨⟨by decide, by decide, by decide, by decide, by decide⟩, ⟨by decide, by decide⟩, by decide, by decide, by decide,
    by decide, by decide, by decide⟩

theorem offered_inv : offered.Inv :=
  ⟨⟨by decide, by decide, by decide, by decide, by decide⟩, ⟨by decide, by decide⟩, trivial⟩

theorem witness_ResetStateMeetsInvariant : unpacking.EnvOk := unpacking_inv.1

theorem witness_StepKeepsInvariant :
    (offered.Inv ∧ ∃ t, step offered = .next t) ∧ (unpacking.Inv ∧ ∃ t, step unpacking = .next t) ∧
    (packing.Inv ∧ ∃ t, step packing = .next t) :=
  ⟨⟨offered_inv, _, rfl⟩, ⟨unpacking_inv, _, rfl⟩, ⟨packing_inv, _, rfl⟩⟩

theorem witness_EnvironmentKeepsInvariant :
    (offered.Inv ∧ ∃ t, envMove (.attachPixels [0x00, 0xFF]) offered = some t) ∧
    (unpacking.Inv ∧ ∃ t, envMove .reset unpacking = some t) := ⟨⟨offered_inv, _, rfl⟩, ⟨unpacking_inv, _, rfl⟩⟩

theorem witness_NoInstructionFaults : unpacking.Inv ∧ packing.Inv := ⟨unpacking_inv, packing_inv⟩

theorem witness_DecodeOfEncodeIsTheInstruction :
    (WellFormed (.typeBad 0x01) = true ∧ (Instr.typeBad 0x01).foundAt (.source .typeField) = true) ∧
    (WellFormed (.encodeC 0xFFFFFFFF 0) = true ∧ (Instr.encodeC 0xFFFFFFFF 0).foundAt .command = true) := by decide

theorem witness_DecodedInstructionBelongsToPort : decode .command 0x4000FF0D#80 = .ok (.vlenc 0x4000) := by decide

theorem witness_ReservedCommandsAreRefused :
    (State.reset.activity = .idle ∧ decodeCommand 0x1F#80 = .error (.reservedCommand (CommandWord.low 0x1F#80))) ∧
    0x0C#8 ∈ [0x01#8, 0x02#8, 0x03#8, 0x04#8, 0x08#8, 0x0C#8] ∧ 0x16#8 ∈ [0x06#8, 0x16#8, 0x09#8, 0x0A#8] ∧
    (0x0000017E#32).extractLsb' 0 8 = (0xFFFFFF7E#32).extractLsb' 0 8 := by decide

theorem witness_StepRunsTheDecodedInstruction :
    (offered.activity = .idle ∧ offered.cmds = [0x8005#80] ∧ decode .command 0x8005#80 = .ok (.setthr 0x80)) ∧
    (({ offered with cmds := [0x07#80, 0x8005#80] } : State).activity = .idle ∧
      decode .command 0x07#80 = .error (.reservedCommand 0x07)) ∧
    (unpacking.activity = .reading (.pixelRow 9 2) ∧ unpacking.src[unpacking.ipos]? = some 0x80 ∧
      decode (.source (Reader.field (.pixelRow 9 2))) (octetWord 0x80) = .ok (.pixoct 0x80) ∧
      unpacking.srcAnswers = [] ∧ ({ unpacking with srcAnswers := [.deliver] } : State).srcAnswers = .deliver :: []) := by
  decide

theorem witness_IdleBlockWaitsForACommand : State.reset.activity = .idle ∧ State.reset.cmds = [] := by decide

theorem witness_BusyBlockTakesNoCommand :
    packing.busy = true ∧ (∃ t, step packing = .next t) ∧ Instr.dims.foundAt .command = true :=
  ⟨rfl, ⟨_, rfl⟩, rfl⟩

/-- For every obligation whose one hypothesis is an idle block: `SetThresholdWritesThr`,
`NewEncoderRestoresDefaultThreshold`, `FailedDecNewLeavesNoDecoder`. -/
theorem witness_idle : State.reset.activity = .idle := by decide

theorem witness_DimsDeliversTheLatchedHeader :
    (ready 9 2 State.reset).activity = .idle ∧ (ready 9 2 State.reset).phase = .ready := by decide

theorem witness_NoDecoderNoMeaning : State.reset.activity = .idle ∧ State.reset.phase ≠ .ready := by decide

/-- A source with a header of width 200, height 0, and one octet behind it. -/
def headerSource : State := withSource [0x00, 0x7F, 0x81, 0x48, 0x00, 0xC0]

/-- `RdhdrReadsAHeader` has the same hypotheses. -/
theorem witness_DecNewLatchesTheHeader :
    headerSource.activity = .idle ∧ headerSource.srcAnswers = [] ∧
    headerSource.src.drop headerSource.ipos = 0x00 :: 0x7F :: ([0x81, 0x48] ++ ([0x00] ++ [0xC0])) ∧
    (0x7F#8).getLsbD 7 = false ∧ isVleInteger [0x81, 0x48] = true ∧ isVleInteger [0x00] = true := by decide

theorem witness_RdhdrReadsAHeader : headerSource.src.length = 6 ∧ headerSource.srcAnswers = [] := by decide

/-- Below and at the threshold; `RgbaComparisonUsesTheAverage` needs an idle block only. -/
theorem witness_LumaComparisonIsInclusive :
    State.reset.activity = .idle ∧ (0x7E#8).toNat < (0x7F#8).toNat ∧ (0x7F#8).toNat ≤ (0x7F#8).toNat := by decide

theorem witness_RgbaComparisonUsesTheAverage : State.reset.activity = .idle := by decide

/-- A plain sink: also for `VleRoundTrip`, `WrhdrWritesAHeader` and `HeaderRoundTrip` on the writing side. -/
theorem witness_VlencWritesTheGroups :
    State.reset.activity = .idle ∧ State.reset.snkAnswers = [] ∧ 1 < vleLength 128 := by decide

/-- The boundaries of the five lengths. -/
theorem witness_VlencWritesTheShortestForm :
    [0, 127, 128, 16383, 16384, 2097151, 2097152, 268435455, 268435456, 4294967295].map vleLength =
      [1, 1, 2, 2, 3, 3, 4, 4, 5, 5] := by decide

theorem witness_VldecReadsOneInteger :
    (withSource [0x81, 0x48, 0x55]).src.drop 0 = [0x81, 0x48] ++ [0x55] ∧ isVleInteger [0x81, 0x48] = true ∧
    (withSource [0x81, 0x48, 0x55]).activity = .idle ∧ (withSource [0x81, 0x48, 0x55]).srcAnswers = [] := by decide

theorem witness_LeadingZeroGroupsAreAccepted :
    ((readingAt .value 0x80).activity = .reading .value ∧
      (Instr.vleCont 0).foundAt (.source (Reader.field .value)) = true ∧ (readingAt .value 0x80).acc = 0) ∧
    ((withSource [0x80, 0x80, 0x7F]).src.drop 0 = List.replicate 2 0x80 ++ ([0x7F] ++ []) ∧
      isVleInteger [0x7F] = true ∧ (withSource [0x80, 0x80, 0x7F]).activity = .idle) := by decide

/-- A source that ends within the integer; a second read that is not answered. -/
theorem witness_UnendingIntegerEndsInIoError :
    ((withSource [0xFF, 0x80]).activity = .idle ∧ (withSource [0xFF, 0x80]).srcAnswers = [] ∧
      (withSource [0xFF, 0x80]).ipos ≤ (withSource [0xFF, 0x80]).src.length ∧
      (∀ o ∈ (withSource [0xFF, 0x80]).src.drop 0, o.getLsbD 7 = true)) ∧
    (([.deliver, .silent] : List ReadAnswer) = List.replicate [0xFF#8].length .deliver ++ .silent :: [] ∧
      (withSource [0xFF, 0x80]).src.drop 0 = [0xFF] ++ [0x80] ∧ (∀ o ∈ [0xFF#8], o.getLsbD 7 = true)) := by decide

/-- No write accepted, and all but the last; a read that fails at the end of the source, and before it. -/
theorem witness_IntegerFailurePartWay :
    (([.fail .eos] : List WriteAnswer) = List.replicate 0 .accept ++ .fail .eos :: [] ∧ 0 < (vleOctets 16384).length) ∧
    (([.accept, .accept, .fail .eos] : List WriteAnswer) = List.replicate 2 .accept ++ .fail .eos :: [] ∧
      2 < (vleOctets 16384).length) ∧
    (([.deliver, .fail (.env 1)] : List ReadAnswer) = List.replicate [0x81#8].length .deliver ++ .fail (.env 1) :: [] ∧
      (withSource [0x81]).src.drop 0 = [0x81] ++ [] ∧ (withSource [0x81, 0x00]).src.drop 0 = [0x81] ++ [0x00] ∧
      (∀ o ∈ [0x81#8], o.getLsbD 7 = true)) := by decide

theorem witness_VleRoundTrip :
    (∃ t, exec (.vlenc 16384) State.reset = .next t ∧ t.snk = [] ++ [0x81, 0x80, 0x00]) ∧
    (withSource [0x81, 0x80, 0x00, 0x55]).src.drop 0 = [0x81, 0x80, 0x00] ++ [0x55] := ⟨⟨_, rfl, rfl⟩, rfl⟩

/-- Octets that stop short of a header: none, and all but its last octet. -/
theorem stopsShort_none : StopsShort [] := .inl ⟨rfl, rfl, rfl⟩

theorem stopsShort_height : StopsShort [0x00, 0x00, 0x02, 0x81] :=
  .inr (.inr (.inr (.inr (.inr ⟨0x00, [0x02], [0x81], rfl, rfl, rfl, by decide, rfl, rfl⟩))))

/-- Scripts for them: the first read failed, the fifth failed or not answered; and one for an error of the format. -/
theorem witness_HeaderErrorsInOrder_scripts :
    StopsShort [] ∧ StopsShort [0x00, 0x00, 0x02, 0x81] ∧
    ([.fail (.env 1)] : List ReadAnswer) = List.replicate ([] : List Octet).length .deliver ++ .fail (.env 1) :: [] ∧
    ([.deliver, .deliver, .deliver, .deliver, .silent] : List ReadAnswer)
      = List.replicate [0x00#8, 0x00, 0x02, 0x81].length .deliver ++ .silent :: [] ∧
    (withSource [0x00, 0x00, 0x02, 0x81, 0x00]).src.drop 0 = [0x00, 0x00, 0x02, 0x81] ++ [0x00] ∧
    (withSource [0x00, 0x00, 0x02, 0x81]).src.drop 0 = [0x00, 0x00, 0x02, 0x81] ++ [] ∧
    (([.deliver, .fail .eos] : List ReadAnswer) = List.replicate 1 .deliver ++ [.fail .eos] ∧
      ∀ c, Err.unsupportedType 0x01 ≠ .ioError c) :=
  ⟨stopsShort_none, stopsShort_height, rfl, rfl, rfl, rfl, rfl, by simp⟩

/-- Each of the six ways to fail. -/
theorem witness_HeaderErrorsInOrder :
    HeaderFails [] (.ioError .eos) 0 ∧ HeaderFails [0x01, 0x80] (.unsupportedType 0x01) 1 ∧
    HeaderFails [0x00] (.ioError .eos) 1 ∧ HeaderFails [0x00, 0x80] .unsupportedHeaders 2 ∧
    HeaderFails [0x00, 0x00] (.ioError .eos) 2 ∧ HeaderFails [0x00, 0x00, 0x02, 0x81] (.ioError .eos) 4 :=
  ⟨.inl ⟨rfl, rfl, rfl⟩, .inr (.inl ⟨0x01, [0x80], rfl, by decide, rfl, rfl⟩), .inr (.inr (.inl ⟨rfl, rfl, rfl⟩)),
    .inr (.inr (.inr (.inl ⟨0x80, [], rfl, rfl, rfl, rfl⟩))),
    .inr (.inr (.inr (.inr (.inl ⟨0x00, [], rfl, rfl, by decide, rfl, rfl⟩)))),
    .inr (.inr (.inr (.inr (.inr ⟨0x00, [0x02], [0x81], rfl, rfl, rfl, by decide, rfl, rfl⟩))))⟩

theorem witness_WrhdrWritesAHeader : State.reset.activity = .idle ∧ State.reset.snkAnswers = [] := by decide

theorem witness_HeaderRoundTrip :
    (∃ t, exec (.wrhdr 0 128) State.reset = .next t ∧ t.snk = [] ++ [0x00, 0x00, 0x00, 0x81, 0x00]) ∧
    (withSource [0x00, 0x00, 0x00, 0x81, 0x00]).src.drop 0 = [0x00, 0x00, 0x00, 0x81, 0x00] ++ [] :=
  ⟨⟨_, rfl, rfl⟩, rfl⟩

/-- Four octets and 20 bytes for 9 columns and 2 rows. -/
def imageSource : State := withPixels [0xAA, 0x80, 0x00, 0x80] (List.replicate 20 0x55)

/-- `UNPACK`, and `RDIMG` with these dimensions latched; a pixel in the last row and column. -/
theorem witness_UnpackWritesThePixels :
    (Unpacks (.unpack 9 2) 9 2 imageSource ∧ Unpacks .rdimg 9 2 (ready 9 2 imageSource)) ∧
    imageSource.activity = .idle ∧ imageSource.srcAnswers = [] ∧ imageSource.pix.wf = true ∧
    9 * 2 ≤ imageSource.pix.len ∧ imageSource.ipos + 2 * ((9 + 7) / 8) ≤ imageSource.src.length ∧
    imageSource.cfg.unpackPrezero = .block ∧ 1 < (2#32).toNat ∧ 8 < (9#32).toNat :=
  ⟨⟨.inl rfl, .inr ⟨rfl, rfl, rfl, rfl⟩⟩, by decide⟩

/-- The same block with the zero fill left to the caller. -/
def callerZeros : State := { imageSource with cfg := { imageSource.cfg with unpackPrezero := .caller } }

theorem witness_UnpackLeavesTheCallersZeros :
    Unpacks (.unpack 9 2) 9 2 callerZeros ∧ callerZeros.activity = .idle ∧ callerZeros.srcAnswers = [] ∧
    callerZeros.pix.wf = true ∧ 9 * 2 ≤ callerZeros.pix.len ∧
    callerZeros.ipos + 2 * ((9 + 7) / 8) ≤ callerZeros.src.length ∧ callerZeros.cfg.unpackPrezero = .caller :=
  ⟨.inl rfl, by decide⟩

/-- One byte too short. -/
theorem witness_ShortPixelBufferIsAUsageError :
    Unpacks (.unpack 7 3) 7 3 imageSource ∧ imageSource.activity = .idle ∧
    imageSource.pix.len < (7#32).toNat * (3#32).toNat := ⟨.inl rfl, by decide⟩

/-- No columns, no rows, and an empty buffer. -/
theorem witness_UnpackOfNoPixels :
    Unpacks (.unpack 0 7) 0 7 State.reset ∧ Unpacks (.unpack 7 0) 7 0 imageSource ∧ State.reset.activity = .idle :=
  ⟨.inl rfl, .inl rfl, by decide⟩

/-- The read of the last row failed, or not answered, before its first octet; the source may go on. -/
theorem witness_FailedRowWritesNoPixel_scripts :
    Unpacks (.unpack 2 2) 2 2 (withPixels [0xC0, 0xC0] [0, 0, 0, 0]) ∧ 1 < (2#32).toNat ∧
    1 = 1 * (((2#32).toNat + 7) / 8) + 0 ∧
    (withPixels [0xC0, 0xC0] [0, 0, 0, 0]).ipos + 1 ≤ (withPixels [0xC0, 0xC0] [0, 0, 0, 0]).src.length ∧
    ([.deliver, .fail (.env 1)] : List ReadAnswer) = List.replicate 1 .deliver ++ .fail (.env 1) :: [] ∧
    ([.deliver, .silent] : List ReadAnswer) = List.replicate 1 .deliver ++ .silent :: [] := ⟨.inl rfl, by decide⟩

/-- A source that ends at the start of the last row, and inside the first. -/
theorem witness_FailedRowWritesNoPixel :
    (Unpacks (.unpack 2 2) 2 2 (withPixels [0xC0] [0, 0, 0, 0]) ∧ (withPixels [0xC0] [0, 0, 0, 0]).pix.wf = true ∧
      1 < (2#32).toNat ∧ 0 < ((2#32).toNat + 7) / 8 ∧
      (withPixels [0xC0] [0, 0, 0, 0]).src.length = 0 + 1 * (((2#32).toNat + 7) / 8) + 0) ∧
    (Unpacks (.unpack 9 1) 9 1 (withPixels [0xC0] (List.replicate 9 0)) ∧ 1 < ((9#32).toNat + 7) / 8 ∧
      (withPixels [0xC0] (List.replicate 9 0)).src.length = 0 + 0 * (((9#32).toNat + 7) / 8) + 1) :=
  ⟨⟨.inl rfl, by decide⟩, ⟨.inl rfl, by decide⟩⟩

/-- Nine bytes: one row of nine luminances; four: one RGBA pixel. -/
theorem witness_PackWritesThePixelBits :
    (Packs (.packL 9 1 0x7F) .luma8 9 1 0x7F ∧
      packing.smp.len = (9#32).toNat * (1#32).toNat * bytesPerPixel .luma8) ∧
    (Packs (.packC 1 1 0x7F) .rgba8 1 1 0x7F ∧
      (withSamples [0, 0, 0, 0]).smp.len = (1#32).toNat * (1#32).toNat * bytesPerPixel .rgba8) ∧
    (withSamples [0, 0, 0, 0]).activity = .idle ∧ (withSamples [0, 0, 0, 0]).snkAnswers = [] :=
  ⟨⟨.inl ⟨rfl, rfl⟩, rfl⟩, ⟨.inr ⟨rfl, rfl⟩, rfl⟩, rfl, rfl⟩

/-- One byte too many, one too few. -/
theorem witness_WrongSampleLengthStopsPack :
    Packs (.packL 3 1 0x7F) .luma8 3 1 0x7F ∧ Packs (.packL 5 1 0x7F) .luma8 5 1 0x7F ∧
    (withSamples [0, 0, 0, 0]).smp.len ≠ (3#32).toNat * (1#32).toNat * bytesPerPixel .luma8 ∧
    (withSamples [0, 0, 0, 0]).smp.len ≠ (5#32).toNat * (1#32).toNat * bytesPerPixel .luma8 :=
  ⟨.inl ⟨rfl, rfl⟩, .inl ⟨rfl, rfl⟩, by decide, by decide⟩

theorem witness_PackOfNoPixels :
    Packs (.packC 0 3 0x7F) .rgba8 0 3 0x7F ∧ State.reset.activity = .idle ∧ State.reset.smp.len = 0 ∧
    (withSamples [0]).smp.len ≠ 0 := ⟨.inr ⟨rfl, rfl⟩, by decide⟩

/-- A row with a whole octet and a rest. -/
theorem witness_PackAtTheExtremeThresholds :
    Packs (.packL 9 1 0x00) .luma8 9 1 0x00 ∧ Packs (.packL 9 1 0xFF) .luma8 9 1 0xFF ∧
    (withSamples (List.replicate 9 0xFF)).smp.len = (9#32).toNat * (1#32).toNat * bytesPerPixel .luma8 ∧
    0 < (9#32).toNat / 8 ∧ (9#32).toNat % 8 ≠ 0 := ⟨.inl ⟨rfl, rfl⟩, .inl ⟨rfl, rfl⟩, by decide⟩

/-- Two pixels, white and black. -/
def blackAndWhite : State := withSamples [0xFF, 0x00]

theorem witness_PackUnpackRoundTrip :
    (blackAndWhite.activity = .idle ∧ blackAndWhite.snkAnswers = [] ∧
      blackAndWhite.smp.len = (2#32).toNat * (1#32).toNat ∧
      (∀ j, j < 2 → blackAndWhite.smp.read j = 0x00 ∨ blackAndWhite.smp.read j = 0xFF) ∧ 1 ≤ (0x01#8).toNat) ∧
    (∃ t, exec (.packL 2 1 0x01) blackAndWhite = .next t ∧ t.snk = [] ++ [0x80]) ∧
    ((withPixels [0x80] [0, 0]).src.drop 0 = [0x80] ++ [] ∧ (withPixels [0x80] [0, 0]).pix.wf = true ∧
      (2#32).toNat * (1#32).toNat ≤ (withPixels [0x80] [0, 0]).pix.len) :=
  ⟨by decide, ⟨_, rfl, rfl⟩, by decide⟩

theorem witness_EncodeWritesHeaderAndPixels :
    Encodes (.encodeL 2 1) .luma8 2 1 ∧ blackAndWhite.activity = .idle ∧ blackAndWhite.snkAnswers = [] ∧
    blackAndWhite.smp.len = (2#32).toNat * (1#32).toNat * bytesPerPixel .luma8 := ⟨.inl ⟨rfl, rfl⟩, by decide⟩

/-- Scripts for a header of four octets: all accepted, the first write failed, the last one not answered. -/
theorem witness_WrongSampleLengthStopsEncode_scripts :
    (headerOctets 2 1).length = 4 ∧ blackAndWhite.activity = .idle ∧
    ([.accept, .accept, .accept, .accept, .silent] : List WriteAnswer)
      = List.replicate (headerOctets 2 1).length .accept ++ [.silent] ∧
    (0 < (headerOctets 2 1).length ∧
      ([.fail (.env 1)] : List WriteAnswer) = List.replicate 0 .accept ++ .fail (.env 1) :: []) ∧
    (3 < (headerOctets 2 1).length ∧
      ([.accept, .accept, .accept, .silent] : List WriteAnswer) = List.replicate 3 .accept ++ .silent :: []) := by decide

/-- Under both orders. -/
theorem witness_WrongSampleLengthStopsEncode :
    Encodes (.encodeC 2 1) .rgba8 2 1 ∧
    blackAndWhite.smp.len ≠ (2#32).toNat * (1#32).toNat * bytesPerPixel .rgba8 ∧
    blackAndWhite.cfg.encodeCheckOrder = .headerFirst ∧
    ({ Config.Params.default with encodeCheckOrder := .checkFirst } : Config.Params).encodeCheckOrder = .checkFirst :=
  ⟨.inr ⟨rfl, rfl⟩, by decide⟩

theorem witness_WholeImageRoundTrip :
    (blackAndWhite.activity = .idle ∧ 1 ≤ blackAndWhite.thr.toNat ∧
      blackAndWhite.smp.len = (2#32).toNat * (1#32).toNat) ∧
    (∃ u, exec (.encodeL 2 1) blackAndWhite = .next u ∧ Ended (okRecord 0 0) blackAndWhite u ∧
      u.snk = [] ++ [0x00, 0x00, 0x02, 0x01, 0x80]) ∧
    (withPixels [0x00, 0x00, 0x02, 0x01, 0x80] [0, 0]).src.drop 0 = [0x00, 0x00, 0x02, 0x01, 0x80] :=
  ⟨by decide, ⟨_, rfl, ⟨rfl, rfl⟩, rfl⟩, rfl⟩

/-- No write accepted, all but the last of the five octets, and all. -/
theorem witness_EarlierOctetsStayInTheSink :
    samplesFit (.encodeL 2 1) blackAndWhite ∧ octetsToWrite (.encodeL 2 1) blackAndWhite ≠ [] ∧
    (octetsToWrite (.encodeL 2 1) blackAndWhite).length = 5 ∧
    ([.accept, .accept, .accept, .accept, .accept] : List WriteAnswer) = List.replicate 5 .accept ++ [] ∧
    0 < (octetsToWrite (.encodeL 2 1) blackAndWhite).length ∧
    4 < (octetsToWrite (.encodeL 2 1) blackAndWhite).length ∧ blackAndWhite.activity = .idle ∧
    ([.fail .eos] : List WriteAnswer) = List.replicate 0 .accept ++ .fail .eos :: [] ∧
    ([.accept, .accept, .accept, .accept, .silent] : List WriteAnswer) = List.replicate 4 .accept ++ .silent :: [] :=
  ⟨rfl, by decide⟩

theorem witness_StreamsOnlyGrow :
    (∃ t, exec (.vlenc 128) State.reset = .next t ∧ t.snk = [0x81, 0x00]) ∧
    (∃ t, step unpacking = .next t ∧ t.ipos = 4) := ⟨⟨_, rfl, rfl⟩, ⟨_, rfl, rfl⟩⟩

theorem witness_UnansweredAccessHangs :
    (({ unpacking with srcAnswers := [.silent] } : State).activity = .reading (.pixelRow 9 2) ∧
      ({ unpacking with srcAnswers := [.silent] } : State).srcAnswers = .silent :: []) ∧
    (({ writing128 with snkAnswers := [.silent] } : State).activity = .writing (.value 128) ∧
      ({ writing128 with snkAnswers := [.silent] } : State).snkAnswers = .silent :: []) := by decide

/-- A failed read, with octets left and at the end of a plain source; a failed write. -/
theorem witness_FailingAccessEndsTheOperation :
    (unpacking.activity = .reading (.pixelRow 9 2) ∧
      ({ unpacking with srcAnswers := [.fail (.env 1)] } : State).srcAnswers = .fail (.env 1) :: []) ∧
    (({ unpacking with ipos := 4 } : State).srcAnswers = [] ∧
      ({ unpacking with ipos := 4 } : State).src.length ≤ ({ unpacking with ipos := 4 } : State).ipos) ∧
    (packing.activity = .writing (.pixelRow .luma8 9 1) ∧
      ({ packing with snkAnswers := [.fail (.env 1)] } : State).snkAnswers = .fail (.env 1) :: []) := by decide

theorem witness_WritingStepOffersOneOctet :
    packing.Inv ∧ packing.activity = .writing (.pixelRow .luma8 9 1) ∧ packing.snkAnswers = [] :=
  ⟨packing_inv, by decide⟩

/-- A command, and `DIMS` in Ready. -/
theorem witness_EveryCommandEndsOrBlocks :
    (offered.Inv ∧ offered.activity = .idle ∧ Instr.vldec.foundAt .command = true) ∧
    ((ready 9 2 State.reset).phase = .ready ∧ Instr.dims.foundAt .command = true) :=
  ⟨⟨offered_inv, by decide⟩, by decide⟩

/-- A command that ends with a payload, one that ends with the header's, and one that ends with an error. -/
theorem witness_ResultsAreThoseOfTheCommand :
    (Instr.vldec.foundAt .command = true ∧ (withSource [0x05]).activity = .idle ∧
      ∃ t, exec .vldec (withSource [0x05]) = .next t ∧ t.results = [okRecord 5 0]) ∧
    (∃ t, exec .rdhdr headerSource = .next t ∧ ∃ w h, t.results = [okRecord w h]) ∧
    (∃ t, exec .rdhdr (withSource [0x01]) = .next t ∧ t.results = [Err.record (.unsupportedType 1)]) :=
  ⟨⟨rfl, rfl, _, rfl, rfl⟩, ⟨_, rfl, _, _, rfl⟩, ⟨_, rfl, rfl⟩⟩

theorem witness_RegistersHaveTheirWriters :
    (∃ t, exec .decNew headerSource = .next t ∧ t.phase = .ready) ∧ Instr.decNew ≠ .encNew ∧
    (∃ t, exec (.setthr 0x80) headerSource = .next t ∧ t.thr = 0x80) ∧ Instr.setthr 0x80 ≠ .decNew ∧
    (Instr.setthr 0x80).foundAt .command = true := ⟨⟨_, rfl, rfl⟩, by decide, ⟨_, rfl, rfl⟩, by decide, rfl⟩

theorem witness_UnitsDoNotSeeRegisters : isComponent (.packL 9 1 0x7F) = true := by decide

theorem witness_HalvesShareNoRegister :
    isDecoderCommand .rdimg = true ∧ isEncoderCommand (.encodeC 3 2) = true := by decide

theorem witness_TypeOctetsAtTheTypeField :
    (readingAt (.typeField .latch) 0).activity = .reading (.typeField .latch) ∧ (0x01#8) ≠ 0x00 := by decide

theorem witness_FlagOctetsAtTheFixHeaderField :
    (readingAt (.fixHeader .deliver) 0).activity = .reading (.fixHeader .deliver) := by decide

/-- Each of the three places of an integer, and each end of a header. -/
theorem witness_GroupOctetsAtAnInteger :
    (readingAt .value 0).activity = .reading .value ∧ Reader.field .value = .value ∧
    (readingAt (.width .latch) 0).activity = .reading (.width .latch) ∧
    (readingAt (.height .deliver 9) 0).activity = .reading (.height .deliver 9) ∧
    (readingAt (.height .latch 9) 0).activity = .reading (.height .latch 9) ∧
    (0xFFFFFFFF#32) = BitVec.ofNat 32 ((0x0FFFFFFF#32).toNat * 128 + (0x7F#7).toNat) := by decide

/-- The octet before the last of a row, the last of a row that is not the last, and the last of the last row. -/
theorem witness_PixelOctetsFillTheRow :
    (unpacking.Inv ∧ unpacking.activity = .reading (.pixelRow 9 2) ∧
      unpacking.rowbuf.length + 1 = ((9#32).toNat + 7) / 8 ∧ unpacking.row.toNat + 1 = (2#32).toNat) ∧
    (({ unpacking with rowbuf := [] } : State).rowbuf.length + 1 < ((9#32).toNat + 7) / 8 ∧
      ({ unpacking with row := 0 } : State).row.toNat + 1 < (2#32).toNat) := ⟨⟨unpacking_inv, by decide⟩, by decide⟩

theorem witness_OctetsOutOfPlaceAreRefused :
    Instr.typeOk.foundAt .command = false ∧
    (∀ r, unpacking.activity = .reading r → Instr.typeOk.foundAt (.source r.field) = false) :=
  ⟨rfl, fun r h => by cases h; rfl⟩

end Sys2Proof.Tests
end

/-! Proofs of the statements about the state as a whole (10_state.md): the reset input, what every step keeps, the
growth of the streams, and who writes the persistent registers. They rest on one inversion, `exec_command_cases`: a
command waits, or makes its first move and then runs as a reading or a writing operation. -/

namespace Sys2Proof.Machine

/-! ## What a command can do -/

/-- The first move of a command `i` on an idle block, before any stream is accessed. -/
inductive FirstMove (i : Instr) (s : State) : State → Prop
  /-- ended at once: `DIMS`, `THRCMP.*`, or an `ENCODE.*` whose check comes first and fails (45_orchestration.md R208) -/
  | ended (r : Result) : FirstMove i s (finish r s)
  /-- `THR` written, and ended (45_orchestration.md R203, R205) -/
  | threshold (x : Octet) (hi : i = .encNew ∨ ∃ t, i = .setthr t) :
      FirstMove i s (finish (okRecord 0 0) (s.setThr x))
  /-- `DEC_NEW` drops the old header and begins the header read (45_orchestration.md R196) -/
  | decoder (hi : i = .decNew) :
      FirstMove i s (s.forgetHeader.setActivity (.reading (.typeField .latch)))
  /-- the start of an unpack (42_unpack.md R141) -/
  | unpack (w h : Dim) : FirstMove i s (startUnpack w h s)
  /-- transient registers set and an operation begun that latches no header -/
  | operation (x : Octet) (acc : Dim) (g : BitVec 3) (a : Activity)
      (hd : ∀ r, a = .reading r → r.delivers)
      (ok : a.Ok { s with thrS := x, acc := acc, grp := g, activity := a }) :
      FirstMove i s { s with thrS := x, acc := acc, grp := g, activity := a }
  /-- the start of a pack with its threshold sampled (44_pack.md R176) -/
  | pack (k : ColorKind) (w h : Dim) (x : Octet) {u : State}
      (hu : startPack k w h { s with thrS := x } = .next u) : FirstMove i s u

/-- An operation runs on from `u` to `t`, as a reading or as a writing one; it stays where it has ended. -/
def RunsTo (u t : State) : Prop := runReader u = .next t ∨ runWriter u = .next t

/-- What has ended runs no further. -/
theorem runsTo_finish (r : Result) (s : State) : RunsTo (finish r s) (finish r s) := .inl (readLoop_finish _ r s)

/-- An encode fails its first check, or begins its header with `THR` sampled (45_orchestration.md R207, R208). -/
theorem runEncode_firstMove {i : Instr} {k : ColorKind} {w h : Dim} {s t : State} (ht : runEncode k w h s = .next t) :
    ∃ u, FirstMove i s u ∧ RunsTo u t := by
  unfold runEncode at ht
  split at ht
  · cases ht
    exact ⟨_, .ended _, runsTo_finish _ _⟩
  · exact ⟨_, .operation s.thr s.acc s.grp (.writing (.typeField (some k) w h)) nofun trivial, .inr ht⟩

/-- A pack starts with its threshold sampled, and runs on (44_pack.md R176). -/
theorem runPack_firstMove {i : Instr} {k : ColorKind} {w h : Dim} {x : Octet} {s t : State}
    (ht : runPack k w h x s = .next t) : ∃ u, FirstMove i s u ∧ RunsTo u t := by
  obtain ⟨u, hu, ht⟩ := andThen_eq_next ht
  exact ⟨u, .pack k w h x hu, .inr ht⟩

/-- An idle block runs a command by its first move and the operation that this begins. -/
theorem exec_idle_cases {i : Instr} {s t : State} (hi : i.foundAt .command = true) (h : s.activity = .idle)
    (ht : exec i s = .next t) : ∃ u, FirstMove i s u ∧ RunsTo u t := by
  cases i with
  | decNew => exact ⟨_, .decoder rfl, .inl ((exec_decNew h).symm.trans ht)⟩
  | dims =>
    rw [exec_dims h] at ht
    split at ht
    · cases ht
      exact ⟨_, .ended _, runsTo_finish _ _⟩
    · cases ht
  | rdimg =>
    rw [exec_rdimg h] at ht
    split at ht
    · exact ⟨_, .unpack _ _, .inl ht⟩
    · cases ht
  | encNew =>
    cases (exec_encNew h).symm.trans ht
    exact ⟨_, .threshold _ (.inl rfl), runsTo_finish _ _⟩
  | setthr x =>
    cases (exec_setthr h x).symm.trans ht
    exact ⟨_, .threshold _ (.inr ⟨x, rfl⟩), runsTo_finish _ _⟩
  | encodeL w v => exact runEncode_firstMove ((exec_encodeL h w v).symm.trans ht)
  | encodeC w v => exact runEncode_firstMove ((exec_encodeC h w v).symm.trans ht)
  | rdhdr =>
    exact ⟨_, .operation s.thrS s.acc s.grp (.reading (.typeField .deliver)) (by rintro _ ⟨⟩; rfl) nofun,
      .inl ((exec_rdhdr h).symm.trans ht)⟩
  | wrhdr w v =>
    exact ⟨_, .operation s.thrS s.acc s.grp (.writing (.typeField none w v)) nofun trivial,
      .inr ((exec_wrhdr h w v).symm.trans ht)⟩
  | unpack w v => exact ⟨_, .unpack w v, .inl ((exec_unpack h w v).symm.trans ht)⟩
  | packL w v x => exact runPack_firstMove ((exec_packL h w v x).symm.trans ht)
  | packC w v x => exact runPack_firstMove ((exec_packC h w v x).symm.trans ht)
  | vldec =>
    exact ⟨_, .operation s.thrS 0 s.grp (.reading .value) (by rintro _ ⟨⟩; trivial) trivial,
      .inl ((exec_vldec h).symm.trans ht)⟩
  | vlenc v =>
    exact ⟨_, .operation s.thrS s.acc (firstGroup v) (.writing (.value v)) nofun (firstGroup_lt v),
      .inr ((exec_vlenc h v).symm.trans ht)⟩
  | thrcmpL v x =>
    cases (exec_thrcmpL h v x).symm.trans ht
    exact ⟨_, .ended _, runsTo_finish _ _⟩
  | thrcmpC r g b a x =>
    cases (exec_thrcmpC h r g b a x).symm.trans ht
    exact ⟨_, .ended _, runsTo_finish _ _⟩
  | typeOk | typeBad | fixhdrOk | fixhdrExt | vleCont | vleLast | pixoct => cases hi

/-- Everything a command can do: wait on a busy block, or its first move and the operation that this begins
(20_memory.md R41). -/
theorem exec_command_cases {i : Instr} {s t : State} (hi : i.foundAt .command = true) (ht : exec i s = .next t) :
    t = s ∨ ∃ u, FirstMove i s u ∧ RunsTo u t := by
  by_cases h : s.activity = .idle
  · exact .inr (exec_idle_cases hi h ht)
  · cases (exec_busy hi h).symm.trans ht
    exact .inl rfl

/-- An instruction is a command or an octet class (30_encoding.md R80, R85). -/
theorem command_or_octet (i : Instr) : i.foundAt .command = true ∨ ∃ c : OctetClass, i = c.toInstr := by
  cases i with
  | typeOk => exact .inr ⟨.typeOk, rfl⟩
  | typeBad t => exact .inr ⟨.typeBad t, rfl⟩
  | fixhdrOk t r => exact .inr ⟨.fixhdrOk t r, rfl⟩
  | fixhdrExt t r => exact .inr ⟨.fixhdrExt t r, rfl⟩
  | vleCont g => exact .inr ⟨.vleCont g, rfl⟩
  | vleLast g => exact .inr ⟨.vleLast g, rfl⟩
  | pixoct p => exact .inr ⟨.pixoct p, rfl⟩
  | _ => exact .inl rfl

/-- Everything an instruction can do: what a command can, or what the reader does with an octet. -/
theorem exec_cases {i : Instr} {s t : State} (ht : exec i s = .next t) :
    t = s ∨ (∃ u, FirstMove i s u ∧ RunsTo u t) ∨ ∃ c, receive c s = .next t := by
  rcases command_or_octet i with hi | ⟨c, rfl⟩
  · exact (exec_command_cases hi ht).imp_right .inl
  · exact .inr (.inr ⟨c, (exec_toInstr c s).symm.trans ht⟩)

/-! ## The reset input -/

/-- Settles O1: the reset input takes each register from the reset state, and each stream and buffer from the state
before. -/
theorem resetInputGivesResetValues : Obligations.ResetInputGivesResetValues :=
  fun _ => ⟨rfl, rfl, rfl, rfl, ⟨rfl, rfl, rfl⟩, ⟨rfl, rfl⟩, rfl, rfl⟩

/-! ## The invariant -/

/-- The first move of a command keeps the invariant. -/
theorem FirstMove.inv {i : Instr} {s u : State} (h : FirstMove i s u) (hs : s.Inv) : u.Inv := by
  obtain ⟨he, hd, -⟩ := hs
  cases h with
  | ended r => exact State.Inv.finish he hd r
  | threshold x hi => exact State.Inv.finish (s := s.setThr x) he hd _
  | decoder hi => exact ⟨he, by simp [State.DecoderOk], fun _ => rfl⟩
  | unpack w h => exact startUnpack_inv he hd
  | operation x acc g a _ ok => exact ⟨he, hd, ok⟩
  | pack k w h x hu =>
    obtain ⟨u', hu', hinv⟩ := startPack_inv (k := k) (w := w) (h := h) (s := { s with thrS := x }) he hd
    cases hu'.symm.trans hu
    exact hinv

/-- Reading keeps the invariant, however many octets are read. -/
theorem readLoop_inv {n : Nat} {s t : State} (hs : s.Inv) (ht : readLoop n s = .next t) : t.Inv := by
  refine readLoop_induct ?_ ?_ hs ht
  · rintro u r c u' ⟨he, hd, -⟩ _ hf
    obtain ⟨-, rest, rfl⟩ := srcRead_failed hf
    exact State.Inv.finish (s := { u with srcAnswers := rest }) he hd _
  · intro u r o u' v hu ha hd hv
    obtain ⟨ho, rest, rfl⟩ := srcRead_delivered hd
    obtain ⟨v', hv', hinv⟩ := receive_inv (o := o) (inv_read (rest := rest) hu ho) ha
    cases hv'.symm.trans hv
    exact hinv

/-- An accepted octet keeps the invariant, which does not look at the sink. -/
theorem inv_write {s : State} {os : List Octet} {rest : List WriteAnswer} (hs : s.Inv) :
    State.Inv { s with snk := os, snkAnswers := rest } := by
  obtain ⟨he, hd, hk⟩ := hs
  exact ⟨he, hd, hk.congr ⟨rfl, rfl, rfl, rfl, rfl, rfl, rfl, rfl, rfl⟩⟩

/-- Writing keeps the invariant, however many octets are written. -/
theorem writeLoop_inv {n : Nat} {s t : State} (hs : s.Inv) (ht : writeLoop n s = .next t) : t.Inv := by
  refine writeLoop_induct ?_ ?_ hs ht
  · rintro u w c u' ⟨he, hd, -⟩ _ hf
    obtain ⟨rest, rfl⟩ := snkWrite_failed hf
    exact State.Inv.finish (s := { u with snkAnswers := rest }) he hd _
  · intro u w u' v hu ha hd hv
    obtain ⟨rest, rfl⟩ := snkWrite_accepted hd
    obtain ⟨v', hv', hinv⟩ := afterWrite_inv (inv_write (os := u.snk ++ [w.octet u]) (rest := rest) hu) ha
    cases hv'.symm.trans hv
    exact hinv

/-- The operation begun keeps the invariant as far as it runs. -/
theorem RunsTo.inv {u t : State} (h : RunsTo u t) (hu : u.Inv) : t.Inv := by
  rcases h with h | h
  · exact readLoop_inv hu h
  · unfold runWriter at h
    split at h
    · exact writeLoop_inv hu h
    · cases h; exact hu

/-- A command keeps the invariant. -/
theorem exec_command_inv {i : Instr} {s t : State} (hi : i.foundAt .command = true) (hs : s.Inv)
    (ht : exec i s = .next t) : t.Inv := by
  rcases exec_command_cases hi ht with rfl | ⟨u, hu, hrun⟩
  · exact hs
  · exact hrun.inv (hu.inv hs)

/-- Settles O3, by what is in progress: a command is taken, an octet read, or an octet written. -/
theorem stepKeepsInvariant : Obligations.StepKeepsInvariant := by
  intro s t hs ht
  cases ha : s.activity with
  | idle =>
    rcases step_idle_cases ha ht with ⟨-, rfl⟩ | ⟨c, rest, i, -, hi, hx⟩
    · exact hs
    · have hs' : State.Inv { s with cmds := rest } := by
        obtain ⟨he, hd, hk⟩ := hs
        exact ⟨he, hd, hk.congr ⟨rfl, rfl, rfl, rfl, rfl, rfl, rfl, rfl, rfl⟩⟩
      exact exec_command_inv (decodeCommand_foundAt c i hi).1 hs' hx
  | reading r => exact readLoop_inv hs ((step_reading_eq ha).symm.trans ht)
  | writing w => exact writeLoop_inv hs ((step_writing ha).symm.trans ht)

/-! ## The streams -/

/-- The position has not gone back and the sink has only been extended (10_state.md R29). -/
def StreamsGrow (s t : State) : Prop := s.ipos ≤ t.ipos ∧ s.snk <+: t.snk

theorem StreamsGrow.of_eq {s t : State} (hp : t.ipos = s.ipos) (hk : t.snk = s.snk) : StreamsGrow s t :=
  ⟨hp.ge, hk ▸ List.prefix_rfl⟩

theorem StreamsGrow.trans {s t u : State} (h : StreamsGrow s t) (k : StreamsGrow t u) : StreamsGrow s u :=
  ⟨h.1.trans k.1, h.2.trans k.2⟩

/-- The first move of a command accesses no stream. -/
theorem FirstMove.streams {i : Instr} {s u : State} (h : FirstMove i s u) : StreamsGrow s u := by
  cases h with
  | ended | threshold | decoder | operation => exact .of_eq rfl rfl
  | unpack w h =>
    obtain ⟨⟨-, -, -, -, hsnk, -, -⟩, -, ⟨-, hpos, -⟩, -⟩ := startUnpack_frame w h s
    exact .of_eq hpos hsnk
  | pack k w h x hu =>
    obtain ⟨⟨-, -, -, ⟨-, hpos, -⟩, -, -⟩, ⟨hsnk, -⟩, -⟩ := startPack_frame hu
    exact .of_eq hpos hsnk

/-- Reading moves the position forward and leaves the sink alone. -/
theorem readLoop_streams {n : Nat} {s t : State} (h : readLoop n s = .next t) : StreamsGrow s t := by
  obtain ⟨⟨-, -, -, -, hsnk, -, -⟩, hpos⟩ := readLoop_frame h
  exact ⟨hpos, hsnk ▸ List.prefix_rfl⟩

/-- Writing leaves the position alone, so with the sink extended the streams have grown. -/
theorem WriteFrame.streams {s t : State} (h : WriteFrame s t) (hsnk : s.snk <+: t.snk) : StreamsGrow s t := by
  obtain ⟨-, -, -, ⟨-, hpos, -⟩, -, -⟩ := h
  exact ⟨hpos.ge, hsnk⟩

/-- The operation begun grows the streams. -/
theorem RunsTo.streams {u t : State} (h : RunsTo u t) : StreamsGrow u t := by
  rcases h with h | h
  · exact readLoop_streams h
  · obtain ⟨hf, hsnk⟩ := runWriter_frame h
    exact hf.streams hsnk

/-- Every instruction grows the streams. -/
theorem exec_streams {i : Instr} {s t : State} (ht : exec i s = .next t) : StreamsGrow s t := by
  rcases exec_cases ht with rfl | ⟨u, hu, hrun⟩ | ⟨c, hc⟩
  · exact .of_eq rfl rfl
  · exact hu.streams.trans hrun.streams
  · obtain ⟨⟨-, -, -, -, hsnk, -, -⟩, hpos, -, -⟩ := receive_frame hc
    exact .of_eq hpos hsnk

/-- Every step grows the streams. -/
theorem step_streams {s t : State} (ht : step s = .next t) : StreamsGrow s t := by
  cases ha : s.activity with
  | idle =>
    rcases step_idle_cases ha ht with ⟨-, rfl⟩ | ⟨c, rest, i, -, -, hx⟩
    · exact .of_eq rfl rfl
    · exact exec_streams (s := { s with cmds := rest }) hx
  | reading r => exact readLoop_streams ((step_reading_eq ha).symm.trans ht)
  | writing w =>
    obtain ⟨hf, hsnk⟩ := writeLoop_frame ((step_writing ha).symm.trans ht)
    exact hf.streams hsnk

/-- Settles O47: the first move of a command accesses no stream, and no read or write goes back. -/
theorem streamsOnlyGrow : Obligations.StreamsOnlyGrow :=
  ⟨fun _ _ _ => exec_streams, fun _ _ => step_streams⟩

/-! ## The writers of the persistent registers -/

/-- `THR` is written at the first move of `ENC_NEW` and `SETTHR` only (10_state.md R11). -/
theorem FirstMove.thr {i : Instr} {s u : State} (h : FirstMove i s u) (hn : i ≠ .encNew) (ht : ∀ x, i ≠ .setthr x) :
    u.thr = s.thr := by
  cases h with
  | ended | decoder | operation => rfl
  | threshold x hi =>
    rcases hi with hi | ⟨y, hi⟩
    · exact absurd hi hn
    · exact absurd hi (ht y)
  | unpack w h =>
    obtain ⟨⟨-, hthr, -⟩, -⟩ := startUnpack_frame w h s
    exact hthr
  | pack k w h x hu =>
    obtain ⟨⟨-, ⟨hthr, -⟩, -⟩, -⟩ := startPack_frame hu
    exact hthr

/-- No operation in progress writes `THR`. -/
theorem RunsTo.thr {u t : State} (h : RunsTo u t) : t.thr = u.thr := by
  rcases h with h | h
  · obtain ⟨⟨-, hthr, -⟩, -⟩ := readLoop_frame h
    exact hthr
  · obtain ⟨⟨-, ⟨hthr, -⟩, -⟩, -⟩ := runWriter_frame h
    exact hthr

/-- The start of an unpack begins no header read. -/
theorem startUnpack_delivers (w h : Dim) (s : State) (r : Reader) (hr : (startUnpack w h s).activity = .reading r) :
    r.delivers := by
  rcases startUnpack_cases w h s with ⟨_, e⟩ | ⟨_, m, _, _, _, ⟨_, e⟩ | ⟨_, e⟩⟩ <;> rw [e] at hr <;> cases hr
  trivial

/-- Only `DEC_NEW` writes the decoder's registers at its first move, or begins a read that latches a header. -/
theorem FirstMove.decoderRegisters {i : Instr} {s u : State} (h : FirstMove i s u) (hn : i ≠ .decNew) :
    SameDecoder s u ∧ ∀ r, u.activity = .reading r → r.delivers := by
  cases h with
  | ended | threshold => exact ⟨⟨rfl, rfl, rfl, rfl, rfl⟩, nofun⟩
  | decoder hi => exact absurd hi hn
  | unpack w h =>
    obtain ⟨-, ⟨-, hdec⟩, -⟩ := startUnpack_frame w h s
    exact ⟨hdec, startUnpack_delivers w h s⟩
  | operation x acc g a hd _ => exact ⟨⟨rfl, rfl, rfl, rfl, rfl⟩, hd⟩
  | pack k w h x hu =>
    obtain ⟨⟨-, ⟨-, hdec⟩, -⟩, -, hread⟩ := startPack_frame hu
    exact ⟨hdec, fun r hr => absurd hr (hread r)⟩

/-- The persistent registers of a state. -/
def State.registers (s : State) : Registers := ⟨s.thr, s.phase, s.hdrType, s.hdrExt, s.hdrW, s.hdrH⟩

/-- Where the registers are put back to what they are, nothing changes. -/
theorem mapRegisters_registers (s : State) : mapRegisters (.decoder s.registers) s = s := rfl

/-- A reading operation that latches no header leaves the decoder's registers alone: it would put back any others
after it, so it puts back those that are there. -/
theorem runReader_sameDecoder {u t : State} (hd : ∀ r, u.activity = .reading r → r.delivers)
    (h : runReader u = .next t) : SameDecoder u t := by
  have hmap := runReader_mapRegisters (f := .decoder u.registers) u (.inr hd)
  rw [mapRegisters_registers, h, andThen_next] at hmap
  have ht : t = mapRegisters (.decoder u.registers) t := Host.Outcome.next.inj hmap
  rw [ht]
  exact ⟨rfl, rfl, rfl, rfl, rfl⟩

/-- No operation in progress writes the decoder's registers but one that latches a header. -/
theorem RunsTo.sameDecoder {u t : State} (h : RunsTo u t) (hd : ∀ r, u.activity = .reading r → r.delivers) :
    SameDecoder u t := by
  rcases h with h | h
  · exact runReader_sameDecoder hd h
  · obtain ⟨⟨-, ⟨-, hdec⟩, -⟩, -⟩ := runWriter_frame h
    exact hdec

theorem SameDecoder.trans {s t u : State} (h : SameDecoder s t) (k : SameDecoder t u) : SameDecoder s u := by
  obtain ⟨a1, a2, a3, a4, a5⟩ := h
  obtain ⟨b1, b2, b3, b4, b5⟩ := k
  exact ⟨b1.trans a1, b2.trans a2, b3.trans a3, b4.trans a4, b5.trans a5⟩

/-- Settles O53: a persistent register is written at the first move of its command, or by the latch of a header that
only `DEC_NEW` begins to read. -/
theorem registersHaveTheirWriters : Obligations.RegistersHaveTheirWriters := by
  refine ⟨fun i s t ht hn hx => ?_, fun i s t ht hi hn => ?_⟩
  · rcases exec_cases ht with rfl | ⟨u, hu, hrun⟩ | ⟨c, hc⟩
    · rfl
    · exact hrun.thr.trans (hu.thr hn hx)
    · obtain ⟨⟨-, hthr, -⟩, -⟩ := receive_frame hc
      exact hthr
  · rcases exec_command_cases hi ht with rfl | ⟨u, hu, hrun⟩
    · exact ⟨rfl, rfl, rfl, rfl, rfl⟩
    · obtain ⟨hdec, hread⟩ := hu.decoderRegisters hn
      exact hdec.trans (hrun.sameDecoder hread)

/-! ## The two halves -/

/-- A command does not see the registers where what it does on an idle block does not: on a busy one it waits. -/
theorem whenIdle_mapRegisters {f : RegisterMap} {s : State} {k : State → Host.Outcome State Fault Refusal}
    (h : k (mapRegisters f s) = andThen (k s) (fun t => .next (mapRegisters f t))) :
    whenIdle (mapRegisters f s) k = andThen (whenIdle s k) (fun t => .next (mapRegisters f t)) := by
  by_cases ha : s.activity = .idle
  · rw [whenIdle_of_idle ha, whenIdle_of_idle ((mapRegisters_activity f s).trans ha), h]
  · rw [whenIdle_of_busy ha, whenIdle_of_busy (by rwa [mapRegisters_activity]), andThen_next]

/-- What needs a decoder does not see `THR` where what it does in Ready does not (45_orchestration.md R200). -/
theorem inReady_threshold {t : Octet} {s : State} {o o' : Host.Outcome State Fault Refusal}
    (h : o' = andThen o (fun u => .next (mapRegisters (.threshold t) u))) :
    (if (mapRegisters (.threshold t) s).phase = .ready then o' else .refused .noDecoder)
      = andThen (if s.phase = .ready then o else .refused .noDecoder)
          (fun u => .next (mapRegisters (.threshold t) u)) := by
  by_cases hp : s.phase = .ready
  · rw [if_pos hp, if_pos (by exact hp), h]
  · rw [if_neg hp, if_neg (by exact hp), andThen_refused]

/-- An unpack begun by a command does not see the registers. -/
theorem runUnpack_mapRegisters (f : RegisterMap) (w h : Dim) (s : State) :
    runReader (startUnpack w h (mapRegisters f s))
      = andThen (runReader (startUnpack w h s)) (fun t => .next (mapRegisters f t)) := by
  rw [startUnpack_mapRegisters]
  exact runReader_mapRegisters _ (.inr (startUnpack_delivers w h s))

/-- An encode sees `THR` and none of the decoder's registers (45_orchestration.md R207). -/
theorem runEncode_decoder (k : ColorKind) (w h : Dim) (r : Registers) (s : State) :
    runEncode k w h (mapRegisters (.decoder r) s)
      = andThen (runEncode k w h s) (fun t => .next (mapRegisters (.decoder r) t)) := by
  unfold runEncode
  rw [mapRegisters_cfg, mapRegisters_smp]
  split
  · rfl
  · exact runWriter_mapRegisters (f := .decoder r)
      { s with thrS := s.thr, activity := .writing (.typeField (some k) w h) }

/-- No command of the decoder half sees `THR`. -/
theorem exec_threshold {i : Instr} (hi : isDecoderCommand i = true) (t : Octet) (s : State) :
    exec i (mapRegisters (.threshold t) s)
      = andThen (exec i s) (fun u => .next (mapRegisters (.threshold t) u)) := by
  cases i with
  | decNew =>
    unfold exec execDecNew
    exact whenIdle_mapRegisters (runReader_mapRegisters (f := .threshold t)
      (s.forgetHeader.setActivity (.reading (.typeField .latch))) (.inl (keepsLatch_threshold t)))
  | dims =>
    unfold exec execDims
    exact whenIdle_mapRegisters (inReady_threshold rfl)
  | rdimg =>
    unfold exec execRdimg
    exact whenIdle_mapRegisters (inReady_threshold (runUnpack_mapRegisters (.threshold t) s.hdrW s.hdrH s))
  | _ => cases hi

/-- No command of the encoder half sees `PHASE` or `HDR_*`. -/
theorem exec_decoder {i : Instr} (hi : isEncoderCommand i = true) (r : Registers) (s : State) :
    exec i (mapRegisters (.decoder r) s)
      = andThen (exec i s) (fun u => .next (mapRegisters (.decoder r) u)) := by
  cases i with
  | encNew =>
    unfold exec execEncNew
    exact whenIdle_mapRegisters rfl
  | setthr x =>
    unfold exec execSetthr
    exact whenIdle_mapRegisters rfl
  | encodeL w h => exact whenIdle_mapRegisters (runEncode_decoder .luma8 w h r s)
  | encodeC w h => exact whenIdle_mapRegisters (runEncode_decoder .rgba8 w h r s)
  | _ => cases hi

/-- Settles O55: a command of one half gives the same outcome whether the other half's registers are replaced before
it or after it. -/
theorem halvesShareNoRegister : Obligations.HalvesShareNoRegister :=
  ⟨fun _ t s hi => exec_threshold hi t s, fun _ r s hi => exec_decoder hi r s⟩

end Sys2Proof.Machine

/-! Proofs of the statements about the ports, streams and buffers (20_memory.md): the command port, an access that fails
or is not answered, the octets that stay in the sink, the header and the rows that stop short, and that nothing faults.
A writing command rests on `Writes`, the octets it has still to write; a reading one on what its read loop has reached
when the environment's script stops it. -/

namespace Sys2Proof.Machine

/-! ## The command port -/

/-- A block is busy exactly when something is in progress (20_memory.md R41). -/
theorem busy_iff (s : State) : s.busy = true ↔ s.activity ≠ .idle := by
  simp [State.busy]

/-- A step of a busy block leaves the command port alone. -/
theorem step_busy_cmds {s t : State} (hb : s.activity ≠ .idle) (ht : step s = .next t) : t.cmds = s.cmds := by
  cases ha : s.activity with
  | idle => exact absurd ha hb
  | reading r =>
    obtain ⟨⟨-, -, hcmds, -⟩, -⟩ := readLoop_frame ((step_reading_eq ha).symm.trans ht)
    exact hcmds
  | writing w =>
    obtain ⟨⟨-, -, hcmds, -⟩, -⟩ := writeLoop_frame ((step_writing ha).symm.trans ht)
    exact hcmds

/-- Settles O13: a step of a busy block is a round of its read or write loop, which leaves the port alone. -/
theorem busyBlockTakesNoCommand : Obligations.BusyBlockTakesNoCommand := by
  intro s hb
  have ha := (busy_iff s).mp hb
  exact ⟨fun _ => step_busy_cmds ha, fun _ hi => exec_busy hi ha⟩

/-- A step of a reading operation whose octet is delivered runs that octet's instruction. -/
theorem step_delivered {s s' : State} {r : Reader} {o : Octet} (ha : s.activity = .reading r)
    (hd : srcRead s = .delivered o s') : step s = exec (decodeOctet r.field o).toInstr s' := by
  rw [step_reading ha, fetchOctet, hd]
  rfl

/-- Settles O11: by what a step fetches, from the command port or from the source. -/
theorem stepRunsTheDecodedInstruction : Obligations.StepRunsTheDecodedInstruction := by
  refine ⟨fun s c rest i ha hc hd => ?_, fun s c rest low ha hc hd => ?_, fun s r o i ha ho hd => ?_⟩
  · have hd : decodeCommand c = .ok i := hd
    simp [step_idle ha, fetchCommand, hc, hd, runFetched]
  · have hd : decodeCommand c = .error (.reservedCommand low) := hd
    simp [step_idle ha, fetchCommand, hc, hd, runFetched]
  · obtain rfl : (decodeOctet r.field o).toInstr = i := by simpa [decode] using hd
    refine ⟨fun hp => step_delivered ha (srcRead_plain_some hp ho), fun rest hp => step_delivered ha ?_⟩
    simp [srcRead, hp, srcDeliver, ho]

/-! ## An access that fails or is not answered -/

/-- The operation in progress stands at an access that the environment does not answer (20_memory.md R48). -/
def AtUnansweredAccess (s : State) : Prop :=
  (∃ r rest, s.activity = .reading r ∧ s.srcAnswers = .silent :: rest) ∨
  (∃ w rest, s.activity = .writing w ∧ s.snkAnswers = .silent :: rest)

/-- A step at an unanswered access leaves the state as it is. -/
theorem step_unanswered {s : State} (h : AtUnansweredAccess s) : step s = .next s := by
  rcases h with ⟨r, rest, ha, hp⟩ | ⟨w, rest, ha, hp⟩
  · rw [step_reading_eq ha, readLoop_silent ha (srcRead_silent.mpr ⟨rest, hp⟩)]
  · rw [step_writing ha, writeLoop_silent ha (snkWrite_silent.mpr ⟨rest, hp⟩)]

/-- Steps from a state that a step leaves as it is. -/
theorem runSteps_of_step_eq {s : State} (h : step s = .next s) (n : Nat) : runSteps n s = .next s := by
  induction n with
  | zero => rfl
  | succ n ih => rw [runSteps, h, andThen_next, ih]

/-- Settles O48, by induction on the number of steps. -/
theorem unansweredAccessHangs : Obligations.UnansweredAccessHangs := by
  intro s h
  have ha : s.activity ≠ .idle := by
    rcases h with ⟨r, rest, ha, -⟩ | ⟨w, rest, ha, -⟩ <;> simp [ha]
  exact ⟨(busy_iff s).mpr ha, runSteps_of_step_eq (step_unanswered h), fun _ hi => exec_busy hi ha⟩

/-- A step whose read fails ends the operation with the cause given. -/
theorem step_read_failed {s s' : State} {r : Reader} {c : IoCause} (ha : s.activity = .reading r)
    (hd : srcRead s = .failed c s') : step s = .next (raise (.ioError c) s') := by
  rw [step_reading_eq ha, readLoop_failed ha hd]

/-- A step whose write fails ends the operation with the cause given. -/
theorem step_write_failed {s s' : State} {w : Writer} {c : IoCause} (ha : s.activity = .writing w)
    (hd : snkWrite (w.octet s) s = .failed c s') : step s = .next (raise (.ioError c) s') := by
  rw [step_writing ha, writeLoop_failed ha hd]

/-- The end of an operation after a read that took nothing: no register and no buffer has changed. -/
theorem raise_readsNothing (e : Err) (s : State) : SameRegisters s (raise e s) ∧ ReadsOctets 0 s (raise e s) := by
  obtain ⟨hport, hreg, ⟨hsrc, hpos, -⟩, hsnk, hsmp, hpix⟩ := quiet_finish e.record s
  exact ⟨hreg, hport, hsrc, hpos, hsnk, hsmp, hpix⟩

/-- What a write leaves alone, with the octets it appended (20_memory.md R44, R45). -/
theorem WriteFrame.writesOctets {s t : State} {os : List Octet} (h : WriteFrame s t) (hk : t.snk = s.snk ++ os) :
    WritesOctets os s t := by
  obtain ⟨hcfg, hreg, hcmds, hsrc, hsmp, hpix⟩ := h
  exact ⟨⟨hcfg, hcmds⟩, hreg, hsrc, hsmp ▸ SameBytes.refl _, hpix ▸ SameBytes.refl _, hk⟩

/-- Settles O49: the failing access consumes its answer, and the operation ends with `IoError`. -/
theorem failingAccessEndsTheOperation : Obligations.FailingAccessEndsTheOperation := by
  refine ⟨fun s r c rest ha hp => ?_, fun s r ha hp hend => ?_, fun s w c rest ha hp => ?_⟩
  · have hd : srcRead s = .failed (if s.ipos < s.src.length then c else .eos) { s with srcAnswers := rest } := by
      simp [srcRead, hp]
    exact ⟨_, step_read_failed ha hd, ended_finish _ { s with srcAnswers := rest }, rfl,
      raise_readsNothing _ { s with srcAnswers := rest }⟩
  · exact ⟨_, step_read_failed ha (srcRead_plain_none hp hend), ended_finish _ s, raise_readsNothing _ s⟩
  · have hd : snkWrite (w.octet s) s = .failed c { s with snkAnswers := rest } := by simp [snkWrite, hp]
    exact ⟨_, step_write_failed ha hd, ended_finish _ { s with snkAnswers := rest }, rfl,
      (WriteFrame.refl s).writesOctets (List.append_nil _).symm⟩

/-- A sink that is plain, or whose next answer is to accept, takes the octet (20_memory.md R45). -/
theorem snkWrite_takes {s : State} (b : Octet) (h : s.snkAnswers = [] ∨ ∃ rest, s.snkAnswers = .accept :: rest) :
    ∃ rest, snkWrite b s = .accepted { s with snk := s.snk ++ [b], snkAnswers := rest } := by
  rcases h with hp | ⟨rest, hp⟩
  · exact ⟨[], by rw [snkWrite_plain hp, ← hp]⟩
  · exact ⟨rest, by simp [snkWrite, hp]⟩

/-- Settles O50: the octet is appended, and what follows it is another write or one of the two ends. -/
theorem writingStepOffersOneOctet : Obligations.WritingStepOffersOneOctet := by
  intro s w hinv ha hsink
  obtain ⟨rest, hd⟩ := snkWrite_takes (w.octet s) hsink
  obtain ⟨t, ht, -⟩ := afterWrite_inv (inv_write (os := s.snk ++ [w.octet s]) (rest := rest) hinv) ha
  obtain ⟨hf, ⟨hsnk, -⟩, -⟩ := afterWrite_frame (by exact ha) ht
  have hends := afterWrite_ends (by exact ha) ht
  refine ⟨t, ?_, WriteFrame.writesOctets hf hsnk, hends⟩
  rw [step_writing ha, writeLoop_accepted ha hd, ht]
  rfl

/-! ## The moves of the environment -/

/-- A change between operations is made on an idle block only (70_reset_and_hazards.md R270). -/
theorem betweenOperations_eq_some {s t u : State} (h : betweenOperations s t = some u) :
    s.activity = .idle ∧ u = t := by
  unfold betweenOperations at h
  split at h
  · cases h
  · rename_i hb
    exact ⟨(busy_eq_false_iff s).mp (by simpa using hb), (Option.some.inj h).symm⟩

/-- An idle block meets the invariant if its streams, buffers and decoder do. -/
theorem State.Inv.of_idle {s : State} (ha : s.activity = .idle) (he : s.EnvOk) (hd : s.DecoderOk) : s.Inv :=
  ⟨he, hd, by rw [ha]; trivial⟩

/-- The reset input leaves the environment's state alone and the block idle, Uninitialized (10_state.md R25). -/
theorem resetInput_inv {s : State} (he : s.EnvOk) : s.resetInput.Inv :=
  .of_idle rfl he ⟨nofun, nofun⟩

/-- Settles O4, by the move: on a busy block only the port, the scripts and the reset input are open to the
environment. -/
theorem environmentKeepsInvariant : Obligations.EnvironmentKeepsInvariant := by
  rintro m s t ⟨he, hd, hk⟩ hm
  obtain ⟨hpos, hsmp, hpix, hsmpLen, hpixLen⟩ := id he
  cases m with
  | offer c =>
    cases hm
    exact ⟨he, hd, hk.congr ⟨rfl, rfl, rfl, rfl, rfl, rfl, rfl, rfl, rfl⟩⟩
  | answerReads answers =>
    cases hm
    exact ⟨he, hd, hk.congr ⟨rfl, rfl, rfl, rfl, rfl, rfl, rfl, rfl, rfl⟩⟩
  | answerWrites answers =>
    cases hm
    exact ⟨he, hd, hk.congr ⟨rfl, rfl, rfl, rfl, rfl, rfl, rfl, rfl, rfl⟩⟩
  | reset =>
    cases hm
    exact resetInput_inv he
  | attachSource octets =>
    obtain ⟨ha, rfl⟩ := betweenOperations_eq_some hm
    exact .of_idle ha ⟨Nat.zero_le _, hsmp, hpix, hsmpLen, hpixLen⟩ hd
  | attachSink octets =>
    obtain ⟨ha, rfl⟩ := betweenOperations_eq_some hm
    exact .of_idle ha he hd
  | reposition position =>
    simp only [envMove] at hm
    split at hm
    · rename_i hle
      obtain ⟨ha, rfl⟩ := betweenOperations_eq_some hm
      exact .of_idle ha ⟨hle, hsmp, hpix, hsmpLen, hpixLen⟩ hd
    · cases hm
  | attachSamples bytes =>
    simp only [envMove] at hm
    split at hm
    · rename_i hlt
      obtain ⟨ha, rfl⟩ := betweenOperations_eq_some hm
      obtain ⟨hwf, hlen, -⟩ := Memory.ofBytes_spec bytes
      exact .of_idle ha ⟨hpos, hwf, hpix, hlen ▸ hlt, hpixLen⟩ hd
    · cases hm
  | attachPixels bytes =>
    simp only [envMove] at hm
    split at hm
    · rename_i hlt
      obtain ⟨ha, rfl⟩ := betweenOperations_eq_some hm
      obtain ⟨hwf, hlen, -⟩ := Memory.ofBytes_spec bytes
      exact .of_idle ha ⟨hpos, hsmp, hwf, hsmpLen, hlen ▸ hlt⟩ hd
    · cases hm

/-! ## The octets of a writing command -/

/-- `o` is an operation begun on `s` that still has to write the octets of the plan `p` and then ends with its result;
its first move has touched nothing that a write does not touch. -/
def Writes (s : State) (p : List Octet × Result) (o : Host.Outcome State Fault Refusal) : Prop :=
  ∃ n u, o = writeLoop n u ∧ p.1.length ≤ n ∧ Pending s.results p.2 p.1 u ∧ WriteFrame s u ∧ SameSink s u

/-- The writing operation in progress runs its pending octets, if its count is large enough. -/
theorem runWriter_pending {base : List Result} {r : Result} {os : List Octet} {u : State} (h : Pending base r os u)
    (hb : ∀ w, u.activity = .writing w → os.length ≤ w.octetsBound) :
    ∃ n, runWriter u = writeLoop n u ∧ os.length ≤ n := by
  cases os with
  | nil =>
    obtain ⟨ha, -⟩ := h
    exact ⟨0, by simp [runWriter, ha, writeLoop], Nat.le_refl _⟩
  | cons o os =>
    obtain ⟨-, w, ha, -⟩ := h
    exact ⟨w.octetsBound, by simp [runWriter, ha], hb w ha⟩

/-- `VLENC v` writes the octets of `v` (40_vle.md R105). -/
theorem exec_vlenc_writes {s : State} (h : s.activity = .idle) (v : Dim) :
    Writes s (vleOctets v, okRecord 0 0) (exec (.vlenc v) s) := by
  have hle : (vleOctets v).length ≤ (Writer.value v).octetsBound := by
    rw [vleOctets_length]
    exact (vleLength_bounds v).2
  exact ⟨_, _, exec_vlenc h v, hle, pending_value v s, WriteFrame.refl s, rfl, rfl⟩

/-- A command that begins with a header writes it, and then its body (41_header.md R126, 45_orchestration.md R207). -/
theorem runWriter_header_writes (body : Option ColorKind) (w h : Dim) (t : Octet) (s : State) :
    Writes s (headerOctets w h ++ (bodyPlan body s.smp t w h).1, (bodyPlan body s.smp t w h).2)
      (runWriter { s with thrS := t, activity := .writing (.typeField body w h) }) :=
  ⟨_, _, rfl, headerPlan_length body s.smp t w h,
    pending_header body w h (s := { s with thrS := t, activity := .writing (.typeField body w h) }) rfl,
    WriteFrame.refl s, rfl, rfl⟩

/-- `WRHDR w, h` writes a header and nothing else (41_header.md R126). -/
theorem exec_wrhdr_writes {s : State} (h : s.activity = .idle) (w v : Dim) :
    Writes s (headerOctets w v, okRecord 0 0) (exec (.wrhdr w v) s) := by
  have := runWriter_header_writes none w v s.thrS s
  rw [bodyPlan, List.append_nil] at this
  rw [exec_wrhdr h]
  exact this

/-- Where a started pack is in progress, it stands in its pixel rows. -/
theorem startPack_writing {k : ColorKind} {w h : Dim} {s t : State} (ht : startPack k w h s = .next t) {v : Writer}
    (hv : t.activity = .writing v) : v = .pixelRow k w h := by
  rcases startPack_cases ht with ⟨-, rfl⟩ | ⟨-, -, rfl⟩ | ⟨-, -, hn⟩
  · cases hv
  · cases hv
  · obtain ⟨o, nb, c, rfl⟩ := fillOctet_frame hn
    cases hv
    rfl

/-- The octets of a pack are no more than its count (44_pack.md R181). -/
theorem packPlan_length (k : ColorKind) (m : Memory) (t : Octet) (w h : Dim) :
    (packPlan k m t w h).1.length ≤ h.toNat * rowOctets w := by
  unfold packPlan
  split
  · exact Nat.zero_le _
  · exact (packedOctets_length k m t w h).le

/-- `PACK.*` writes its pixel data, or fails its length check (44_pack.md R176, R177). -/
theorem runPack_writes (k : ColorKind) (w h : Dim) (t : Octet) (s : State) :
    Writes s (packPlan k s.smp t w h) (runPack k w h t s) := by
  obtain ⟨u, hu, hsnk, hans, hf, hp⟩ := startPack_pending k w h { s with thrS := t }
  obtain ⟨n, hn, hle⟩ := runWriter_pending hp fun v hv => by
    rw [startPack_writing hu hv]
    exact packPlan_length k s.smp t w h
  exact ⟨n, u, by rw [runPack, hu, andThen_next, hn], hle, hp, hf, hsnk, hans⟩

/-- What an encode comes to when the sink takes everything (45_orchestration.md R207, R208). -/
def encodePlan (k : ColorKind) (w h : Dim) (s : State) : List Octet × Result :=
  if s.cfg.encodeCheckOrder = .checkFirst ∧ smpWrongLength s.smp.len k w h then ([], Err.record .invalidImageData)
  else (headerOctets w h ++ (packPlan k s.smp s.thr w h).1, (packPlan k s.smp s.thr w h).2)

/-- `ENCODE.*` writes its header and then its pixel data, or fails its length check (45_orchestration.md R207, R208). -/
theorem runEncode_writes (k : ColorKind) (w h : Dim) (s : State) :
    Writes s (encodePlan k w h s) (runEncode k w h s) := by
  unfold encodePlan runEncode
  split
  · exact ⟨0, _, rfl, Nat.le_refl _, ⟨rfl, rfl⟩, WriteFrame.refl s, rfl, rfl⟩
  · exact runWriter_header_writes (some k) w h s.thr s

/-- With samples of the right length a pack writes all its pixel data (44_pack.md R177). -/
theorem packPlan_of_fit {k : ColorKind} {m : Memory} {w h : Dim} (hl : m.len = sampleLength k w h) (t : Octet) :
    packPlan k m t w h = (packedOctets k m t w h, okRecord 0 0) := by
  simp [packPlan, smpWrongLength, hl]

/-- With samples of the right length an encode writes its header and all its pixel data (45_orchestration.md R208). -/
theorem encodePlan_of_fit {k : ColorKind} {w h : Dim} {s : State} (hl : s.smp.len = sampleLength k w h) :
    encodePlan k w h s = (headerOctets w h ++ packedOctets k s.smp s.thr w h, okRecord 0 0) := by
  rw [encodePlan, packPlan_of_fit hl]
  simp [smpWrongLength, hl]

/-- Every command that has octets to write, with samples that fit, writes these octets and succeeds. -/
theorem exec_writes {i : Instr} {s : State} (h : s.activity = .idle) (hf : samplesFit i s)
    (hne : octetsToWrite i s ≠ []) : Writes s (octetsToWrite i s, okRecord 0 0) (exec i s) := by
  cases i with
  | vlenc v => exact exec_vlenc_writes h v
  | wrhdr w v => exact exec_wrhdr_writes h w v
  | packL w v t => exact exec_packL h w v t ▸ packPlan_of_fit hf t ▸ runPack_writes .luma8 w v t s
  | packC w v t => exact exec_packC h w v t ▸ packPlan_of_fit hf t ▸ runPack_writes .rgba8 w v t s
  | encodeL w v => exact exec_encodeL h w v ▸ encodePlan_of_fit hf ▸ runEncode_writes .luma8 w v s
  | encodeC w v => exact exec_encodeC h w v ▸ encodePlan_of_fit hf ▸ runEncode_writes .rgba8 w v s
  | decNew | dims | rdimg | encNew | setthr | rdhdr | unpack | vldec | thrcmpL | thrcmpC | typeOk | typeBad | fixhdrOk
  | fixhdrExt | vleCont | vleLast | pixoct => exact absurd rfl hne

/-- An operation with octets still to write is in progress, without a result. -/
theorem Pending.blocked {s t : State} {r : Result} {os : List Octet} (h : Pending s.results r os t) (hne : os ≠ []) :
    Blocked s t := by
  cases os with
  | nil => exact absurd rfl hne
  | cons o os =>
    obtain ⟨hres, w, ha, -⟩ := h
    exact ⟨(busy_iff t).mpr (by simp [ha]), hres⟩

/-- An operation with no octet left to write has ended with its result. -/
theorem Pending.ended {s t : State} {r : Result} {os : List Octet} (h : Pending s.results r os t) (he : os = []) :
    Ended r s t := by
  subst he
  exact h

/-- From a write that was not answered on, a plain sink takes one octet a step, and the operation ends with the last
(20_memory.md R45, R48). -/
theorem pending_resumed {s u : State} {r : Result} {os : List Octet} {k m : Nat} (hf : WriteFrame s u)
    (hk : u.snk = s.snk ++ os.take k) (hp : Pending s.results r (os.drop k) u) (hm : k + m ≤ os.length) :
    ∃ t, runSteps m { u with snkAnswers := [] } = .next t ∧ WritesOctets (os.take (k + m)) s t ∧
      (k + m < os.length → Blocked s t) ∧ (k + m = os.length → Ended r s t) := by
  obtain ⟨t, ht, hft, hkt, hpt⟩ := pending_steps m (pending_withSink hp []) (by rw [List.length_drop]; omega) rfl
  rw [List.drop_drop] at hpt
  refine ⟨t, ht, (hf.trans hft).writesOctets ?_, fun hlt => hpt.blocked ?_, fun heq => hpt.ended ?_⟩
  · rw [hkt, List.take_add, ← List.append_assoc, ← hk]
  · exact mt List.drop_eq_nil_iff.mp (by omega)
  · exact List.drop_eq_nil_iff.mpr (by omega)

/-- Settles O46, from the octets the command has still to write and the script of the sink. -/
theorem earlierOctetsStayInTheSink : Obligations.EarlierOctetsStayInTheSink := by
  intro i s rest ha hfit hne
  obtain ⟨n, u, hexec, hle, hp, hfu, hsnk, hans⟩ := exec_writes ha hfit hne
  generalize octetsToWrite i s = os at hle hp
  dsimp only at hle hp
  rw [hexec]
  refine ⟨fun hs => ?_, fun k c hk hs => ?_, fun k hk hs => ?_⟩
  · obtain ⟨t, ht, hf, hkt, hat, hend⟩ := pending_all_accepted os hle hp (hans.trans hs)
    exact ⟨t, ht, hend, hat, (hfu.trans hf).writesOctets (hsnk ▸ hkt)⟩
  · obtain ⟨t, ht, hf, hkt, hat, hend⟩ := pending_failed k hle hp hk (hans.trans hs)
    exact ⟨t, ht, hend, hat, (hfu.trans hf).writesOctets (hsnk ▸ hkt)⟩
  · obtain ⟨t, ht, hf, hkt, hat, -, -, hpt⟩ := pending_silent k hle hp hk (hans.trans hs)
    have hft : WriteFrame s t := hfu.trans hf
    have hkt : t.snk = s.snk ++ os.take k := hsnk ▸ hkt
    exact ⟨t, ht, hpt.blocked (mt List.drop_eq_nil_iff.mp (by omega)), hat, hft.writesOctets hkt,
      fun m hm => pending_resumed hft hkt hpt hm⟩

/-! ## Every command ends or blocks -/

/-- `o` answers a next state in which an operation begun on `s` has ended with one result, or is in progress at an
access that is not answered. -/
def EndsOrBlocks (s : State) (o : Host.Outcome State Fault Refusal) : Prop :=
  ∃ t, o = .next t ∧ ((∃ r, Ended r s t) ∨ (Blocked s t ∧ AtUnansweredAccess t))

/-- An operation that ends at once. -/
theorem endsOrBlocks_finish {s u : State} (r : Result) (hu : u.results = s.results) :
    EndsOrBlocks s (.next (finish r u)) :=
  ⟨_, rfl, .inl ⟨r, rfl, by rw [finish_results, hu]⟩⟩

/-- A writing operation writes all its octets, or is stopped at one of them (20_memory.md R45). -/
theorem Writes.endsOrBlocks {s : State} {p : List Octet × Result} {o : Host.Outcome State Fault Refusal}
    (h : Writes s p o) : EndsOrBlocks s o := by
  obtain ⟨n, u, rfl, hle, hp, -⟩ := h
  obtain ⟨t, ht, -, ⟨-, hend⟩ | ⟨k, -, c, -, hend⟩ | ⟨k, -, rest, -, hans, ⟨w, ha⟩, hres⟩⟩ := pending_cases hle hp
  · exact ⟨t, ht, .inl ⟨_, hend⟩⟩
  · exact ⟨t, ht, .inl ⟨_, hend⟩⟩
  · exact ⟨t, ht, .inr ⟨⟨(busy_iff t).mpr (by simp [ha]), hres⟩, .inr ⟨w, rest, ha, hans⟩⟩⟩

/-- An operation begun on `s` has ended with one result, or is reading without a result. -/
def EndedOrReading (s u : State) : Prop :=
  (∃ r, Ended r s u) ∨ (∃ r, u.activity = .reading r) ∧ u.results = s.results

/-- While it is reading, no result has been delivered. -/
theorem EndedOrReading.results {s u : State} {r : Reader} (h : EndedOrReading s u) (ha : u.activity = .reading r) :
    u.results = s.results := by
  rcases h with ⟨_, hidle, -⟩ | ⟨-, hres⟩
  · rw [hidle] at ha; cases ha
  · exact hres

/-- An octet ends the operation with one result, or leaves it reading without one. -/
theorem receive_endedOrReading {s t : State} {r : Reader} {o : Octet} (ha : s.activity = .reading r)
    (ht : receive (decodeOctet r.field o) s = .next t) : EndedOrReading s t := by
  cases r with
  | typeField d =>
    cases (receive_typeField ha o).symm.trans ht
    split
    · exact .inr ⟨⟨_, rfl⟩, rfl⟩
    · exact .inl ⟨_, ended_finish _ s⟩
  | fixHeader d =>
    cases (receive_fixHeader ha o).symm.trans ht
    split
    · exact .inl ⟨_, ended_finish _ s⟩
    · exact .inr ⟨⟨_, rfl⟩, rfl⟩
  | width d =>
    cases (receive_width ha o).symm.trans ht
    split
    · exact .inr ⟨⟨_, ha⟩, rfl⟩
    · exact .inr ⟨⟨_, rfl⟩, rfl⟩
  | height d w =>
    cases (receive_height ha o).symm.trans ht
    split
    · exact .inr ⟨⟨_, ha⟩, rfl⟩
    · cases d
      · exact .inl ⟨_, ended_finish _ (s.latchHeader w _)⟩
      · exact .inl ⟨_, ended_finish _ s⟩
  | value =>
    cases (receive_value ha o).symm.trans ht
    split
    · exact .inr ⟨⟨_, ha⟩, rfl⟩
    · exact .inl ⟨_, ended_finish _ s⟩
  | pixelRow w h =>
    by_cases hl : s.rowbuf.length + 1 < rowOctets w
    · cases (receive_pixel_part ha o hl).symm.trans ht
      exact .inr ⟨⟨_, ha⟩, rfl⟩
    · obtain ⟨u, hu, ht⟩ := andThen_eq_next ((receive_pixel_last ha o (by omega)).symm.trans ht)
      obtain ⟨m, c, rfl⟩ := inspectBits_frame hu
      cases ht
      unfold rowDone
      split
      · exact .inl ⟨_, rfl, rfl⟩
      · exact .inr ⟨⟨_, ha⟩, rfl⟩

/-- The read loop always answers from a state that meets the invariant, and the operation has then ended with one
result or is still reading. -/
theorem readLoop_endedOrReading {s u : State} (n : Nat) (hu : u.Inv) (hr : EndedOrReading s u) :
    ∃ t, readLoop n u = .next t ∧ EndedOrReading s t := by
  refine (readLoop_total (P := fun v => v.Inv ∧ EndedOrReading s v) ?_ ?_ n u ⟨hu, hr⟩).imp
    fun _ ⟨ht, _, h⟩ => ⟨ht, h⟩
  · rintro v r c v' ⟨⟨he, hd, -⟩, h⟩ ha hf
    obtain ⟨-, rest, rfl⟩ := srcRead_failed hf
    exact ⟨State.Inv.finish (s := { v with srcAnswers := rest }) he hd _,
      .inl ⟨_, rfl, by rw [raise_results, h.results ha]⟩⟩
  · rintro v r o v' ⟨hv, h⟩ ha hd
    obtain ⟨ho, rest, rfl⟩ := srcRead_delivered hd
    obtain ⟨t, ht, hinv⟩ := receive_inv (o := o) (inv_read (rest := rest) hv ho) ha
    refine ⟨t, ht, hinv, ?_⟩
    have hone := receive_endedOrReading (by exact ha) ht
    simpa only [EndedOrReading, Ended, h.results ha] using hone

/-- A reading operation begun from a state that meets the invariant ends, or stands at a read that is not answered
(20_memory.md R43, R48). -/
theorem runReader_endsOrBlocks {s u : State} (hu : u.Inv) (hr : EndedOrReading s u) :
    EndsOrBlocks s (runReader u) := by
  have hw : ∀ w, u.activity ≠ .writing w := by
    rcases hr with ⟨_, ha, -⟩ | ⟨⟨r, ha⟩, -⟩ <;> simp [ha]
  obtain ⟨t, ht, h⟩ := readLoop_endedOrReading (u.srcLeft + 1) hu hr
  refine ⟨t, ht, ?_⟩
  rcases h with h | ⟨⟨r, ha⟩, hres⟩
  · exact .inl h
  · rcases readLoop_settles hw (Nat.lt_succ_self _) ht with hidle | ⟨-, rest, hans⟩
    · rw [hidle] at ha; cases ha
    · exact .inr ⟨⟨(busy_iff t).mpr (by simp [ha]), hres⟩, .inl ⟨r, rest, ha, hans⟩⟩

/-- An unpack ends or blocks (42_unpack.md R141). -/
theorem unpack_endsOrBlocks {s : State} (hs : s.Inv) (w h : Dim) :
    EndsOrBlocks s (runReader (startUnpack w h s)) := by
  obtain ⟨he, hd, -⟩ := hs
  refine runReader_endsOrBlocks (startUnpack_inv he hd) ?_
  rcases startUnpack_cases w h s with ⟨-, e⟩ | ⟨-, m, -, -, -, ⟨-, e⟩ | ⟨-, e⟩⟩ <;> rw [e]
  · exact .inl ⟨_, ended_finish _ s⟩
  · exact .inl ⟨_, rfl, rfl⟩
  · exact .inr ⟨⟨_, rfl⟩, rfl⟩

/-- Every command on an idle block ends or blocks, where it has a meaning (20_memory.md R41, R48). -/
theorem exec_endsOrBlocks {i : Instr} {s : State} (hs : s.Inv) (h : s.activity = .idle)
    (hi : i.foundAt .command = true) (hready : i = .dims ∨ i = .rdimg → s.phase = .ready) :
    EndsOrBlocks s (exec i s) := by
  cases i with
  | decNew =>
    rw [exec_decNew h]
    exact runReader_endsOrBlocks ((FirstMove.decoder rfl).inv hs) (.inr ⟨⟨_, rfl⟩, rfl⟩)
  | rdhdr =>
    rw [exec_rdhdr h]
    obtain ⟨he, hd, -⟩ := hs
    exact runReader_endsOrBlocks ⟨he, hd, nofun⟩ (.inr ⟨⟨_, rfl⟩, rfl⟩)
  | vldec =>
    rw [exec_vldec h]
    obtain ⟨he, hd, -⟩ := hs
    exact runReader_endsOrBlocks ⟨he, hd, trivial⟩ (.inr ⟨⟨_, rfl⟩, rfl⟩)
  | rdimg =>
    rw [exec_rdimg h, if_pos (hready (.inr rfl))]
    exact unpack_endsOrBlocks hs _ _
  | unpack w v =>
    rw [exec_unpack h]
    exact unpack_endsOrBlocks hs w v
  | dims =>
    rw [exec_dims h, if_pos (hready (.inl rfl))]
    exact endsOrBlocks_finish _ rfl
  | encNew => exact exec_encNew h ▸ endsOrBlocks_finish _ rfl
  | setthr t => exact exec_setthr h t ▸ endsOrBlocks_finish _ rfl
  | thrcmpL v t => exact exec_thrcmpL h v t ▸ endsOrBlocks_finish _ rfl
  | thrcmpC r g b a t => exact exec_thrcmpC h r g b a t ▸ endsOrBlocks_finish _ rfl
  | vlenc v => exact (exec_vlenc_writes h v).endsOrBlocks
  | wrhdr w v => exact (exec_wrhdr_writes h w v).endsOrBlocks
  | packL w v t => exact exec_packL h w v t ▸ (runPack_writes .luma8 w v t s).endsOrBlocks
  | packC w v t => exact exec_packC h w v t ▸ (runPack_writes .rgba8 w v t s).endsOrBlocks
  | encodeL w v => exact exec_encodeL h w v ▸ (runEncode_writes .luma8 w v s).endsOrBlocks
  | encodeC w v => exact exec_encodeC h w v ▸ (runEncode_writes .rgba8 w v s).endsOrBlocks
  | typeOk | typeBad | fixhdrOk | fixhdrExt | vleCont | vleLast | pixoct => cases hi

/-- Settles O51, by what the command's read or write loop comes to. -/
theorem everyCommandEndsOrBlocks : Obligations.EveryCommandEndsOrBlocks := by
  intro i s hs h hi hready
  obtain ⟨t, ht, hend | ⟨hb, hread | hwrite⟩⟩ := exec_endsOrBlocks hs h hi hready
  · exact ⟨t, ht, .inl hend⟩
  · exact ⟨t, ht, .inr (.inl ⟨hb, hread⟩)⟩
  · exact ⟨t, ht, .inr (.inr ⟨hb, hwrite⟩)⟩

/-! ## No fault -/

/-- An outcome that is a next state is no fault. -/
theorem ne_fault_of_next {o : Host.Outcome State Fault Refusal} (h : ∃ t, o = .next t) (f : Fault) : o ≠ .fault f := by
  obtain ⟨t, rfl⟩ := h
  nofun

/-- `DIMS` and `RDIMG` outside Ready are refused (45_orchestration.md R200). -/
theorem exec_refused_of_not_ready {i : Instr} {s : State} (hi : i = .dims ∨ i = .rdimg) (h : s.activity = .idle)
    (hp : s.phase ≠ .ready) : exec i s = .refused .noDecoder := by
  rcases hi with rfl | rfl
  · rw [exec_dims h, if_neg hp]
  · rw [exec_rdimg h, if_neg hp]

/-- No command faults: it waits, is refused, or ends or blocks. -/
theorem exec_command_no_fault {i : Instr} {s : State} (hs : s.Inv) (hi : i.foundAt .command = true) (f : Fault) :
    exec i s ≠ .fault f := by
  by_cases h : s.activity = .idle
  · by_cases hr : (i = .dims ∨ i = .rdimg) ∧ s.phase ≠ .ready
    · rw [exec_refused_of_not_ready hr.1 h hr.2]
      nofun
    · obtain ⟨t, ht, -⟩ := exec_endsOrBlocks hs h hi fun hd => by_contra fun hp => hr ⟨hd, hp⟩
      exact ne_fault_of_next ⟨t, ht⟩ f
  · exact ne_fault_of_next ⟨s, exec_busy hi h⟩ f

/-- No octet class faults: only a pixel octet accesses a buffer, and its row lies in it (42_unpack.md R142). -/
theorem receive_no_fault {s : State} (hs : s.Inv) (c : OctetClass) (f : Fault) : receive c s ≠ .fault f := by
  cases c with
  | pixoct p =>
    by_cases hp : ∃ w h, s.activity = .reading (.pixelRow w h)
    · obtain ⟨w, h, ha⟩ := hp
      obtain ⟨t, ht, -⟩ := receive_inv (o := p) hs ha
      exact ne_fault_of_next ⟨t, ht⟩ f
    · simp only [receive, execPixoct]
      split
      · rename_i w h ha
        exact absurd ⟨w, h, ha⟩ hp
      · nofun
  | typeBad t =>
    simp only [receive, execTypeBad]
    split
    · split <;> nofun
    · nofun
  | typeOk => simp only [receive, execTypeOk]; split <;> nofun
  | fixhdrOk t r => simp only [receive, execFixhdrOk]; split <;> nofun
  | fixhdrExt t r => simp only [receive, execFixhdrExt]; split <;> nofun
  | vleCont g => simp only [receive, execVleCont]; split <;> nofun
  | vleLast g => simp only [receive, execVleLast]; split <;> nofun

/-- No instruction faults. -/
theorem exec_no_fault {s : State} (hs : s.Inv) (i : Instr) (f : Fault) : exec i s ≠ .fault f := by
  rcases command_or_octet i with hi | ⟨c, rfl⟩
  · exact exec_command_no_fault hs hi f
  · rw [exec_toInstr]
    exact receive_no_fault hs c f

/-- What a state that meets the invariant fetches, it runs without a fault. -/
theorem step_idle_no_fault {s : State} (hs : s.Inv) (h : s.activity = .idle) (f : Fault) : step s ≠ .fault f := by
  obtain ⟨he, hd, -⟩ := hs
  rw [step_idle h, fetchCommand]
  split
  · nofun
  · split
    · rename_i c rest _ _ i _
      exact exec_no_fault (s := { s with cmds := rest }) (.of_idle h he hd) i f
    · nofun

/-- The write loop always answers from a state that meets the invariant. -/
theorem writeLoop_answers {s : State} (hs : s.Inv) (n : Nat) : ∃ t, writeLoop n s = .next t := by
  refine (writeLoop_total (P := State.Inv) ?_ ?_ n s hs).imp fun _ ⟨ht, _⟩ => ht
  · rintro u w c u' ⟨he, hd, -⟩ _ hf
    obtain ⟨rest, rfl⟩ := snkWrite_failed hf
    exact State.Inv.finish (s := { u with snkAnswers := rest }) he hd _
  · intro u w u' hu ha hd
    obtain ⟨rest, rfl⟩ := snkWrite_accepted hd
    exact afterWrite_inv (inv_write hu) ha

/-- Settles O5: every access of an operation that meets the invariant lies in its buffer, so its loop always answers. -/
theorem noInstructionFaults : Obligations.NoInstructionFaults := by
  refine fun s hs => ⟨exec_no_fault hs, fun f => ?_⟩
  cases ha : s.activity with
  | idle => exact step_idle_no_fault hs ha f
  | reading r =>
    obtain ⟨t, ht, -⟩ := readLoop_endedOrReading (s := s) 1 hs (.inr ⟨⟨r, ha⟩, rfl⟩)
    exact ne_fault_of_next ⟨t, (step_reading_eq ha).trans ht⟩ f
  | writing w => exact step_writing ha ▸ ne_fault_of_next (writeLoop_answers hs 1) f

/-! ## The header read of a decoder -/

/-- The reader stands in a header that is to be latched. -/
def Reader.latches : Reader → Prop
  | .typeField d | .fixHeader d | .width d | .height d _ => d = .latch
  | .value | .pixelRow _ _ => False

/-- The header read of a `DEC_NEW` begun on `s` has ended Ready with success, has ended Uninitialized with an error, or
is in progress, Uninitialized (45_orchestration.md R196 to R198). -/
def LatchProgress (s u : State) : Prop :=
  (u.phase = .ready ∧ u.hdrType = 0x00 ∧ u.hdrExt = 0 ∧ Ended (okRecord 0 0) s u) ∨
  (u.phase = .uninitialized ∧ ∃ e : Err, Ended e.record s u) ∨
  (u.phase = .uninitialized ∧ u.results = s.results ∧ ∃ r, u.activity = .reading r ∧ r.latches)

/-- A read in progress is in its header, Uninitialized and without a result. -/
theorem LatchProgress.of_reading {s u : State} {r : Reader} (h : LatchProgress s u) (ha : u.activity = .reading r) :
    u.phase = .uninitialized ∧ u.results = s.results ∧ r.latches := by
  rcases h with ⟨-, -, -, hidle, -⟩ | ⟨-, e, hidle, -⟩ | ⟨hp, hres, r', ha', hl⟩
  · rw [hidle] at ha; cases ha
  · rw [hidle] at ha; cases ha
  · rw [ha'] at ha; cases ha
    exact ⟨hp, hres, hl⟩

/-- An error ends the header read Uninitialized (45_orchestration.md R197). -/
theorem LatchProgress.raise {s u : State} (hp : u.phase = .uninitialized) (hres : u.results = s.results) (e : Err) :
    LatchProgress s (raise e u) :=
  .inr (.inl ⟨hp, e, rfl, by rw [raise_results, hres]⟩)

/-- An octet of a header to be latched always answers, and leaves `PIX` alone (41_header.md R121 to R123). -/
theorem receive_latchProgress {s u : State} {r : Reader} (h : LatchProgress s u) (ha : u.activity = .reading r)
    (o : Octet) :
    ∃ t, receive (decodeOctet r.field o) u = .next t ∧ t.pix = u.pix ∧ LatchProgress s t := by
  obtain ⟨hp, hres, hl⟩ := h.of_reading ha
  cases r with
  | typeField d =>
    refine ⟨_, receive_typeField ha o, ?_⟩
    split
    · exact ⟨rfl, .inr (.inr ⟨hp, hres, _, rfl, hl⟩)⟩
    · exact ⟨rfl, .raise hp hres _⟩
  | fixHeader d =>
    refine ⟨_, receive_fixHeader ha o, ?_⟩
    split
    · exact ⟨rfl, .raise hp hres _⟩
    · exact ⟨rfl, .inr (.inr ⟨hp, hres, _, rfl, hl⟩)⟩
  | width d =>
    refine ⟨_, receive_width ha o, ?_⟩
    split
    · exact ⟨rfl, .inr (.inr ⟨hp, hres, _, ha, hl⟩)⟩
    · exact ⟨rfl, .inr (.inr ⟨hp, hres, _, rfl, hl⟩)⟩
  | height d w =>
    obtain rfl : d = .latch := hl
    refine ⟨_, receive_height ha o, ?_⟩
    split
    · exact ⟨rfl, .inr (.inr ⟨hp, hres, _, ha, rfl⟩)⟩
    · exact ⟨rfl, .inl ⟨rfl, rfl, rfl, rfl, by rw [← hres]; rfl⟩⟩
  | value => exact hl.elim
  | pixelRow w h => exact hl.elim

/-- The read loop of a header to be latched, however it is cut and whatever the source answers. -/
theorem readLoop_latchProgress {s u : State} (n : Nat) (h : LatchProgress s u) :
    ∃ t, readLoop n u = .next t ∧ t.pix = u.pix ∧ LatchProgress s t := by
  refine readLoop_total (P := fun v => v.pix = u.pix ∧ LatchProgress s v) ?_ ?_ n u ⟨rfl, h⟩
  · rintro v r c v' ⟨hpix, hv⟩ ha hf
    obtain ⟨-, rest, rfl⟩ := srcRead_failed hf
    obtain ⟨hp, hres, -⟩ := hv.of_reading ha
    exact ⟨hpix, LatchProgress.raise (u := { v with srcAnswers := rest }) hp hres _⟩
  · rintro v r o v' ⟨hpix, hv⟩ ha hd
    obtain ⟨-, rest, rfl⟩ := srcRead_delivered hd
    obtain ⟨t, ht, hpt, hprog⟩ :=
      receive_latchProgress (u := { v with ipos := v.ipos + 1, srcAnswers := rest }) (by exact hv) (by exact ha) o
    exact ⟨t, ht, hpt.trans hpix, hprog⟩

/-- Settles O19, by the progress of the header read that `DEC_NEW` begins. -/
theorem failedDecNewLeavesNoDecoder : Obligations.FailedDecNewLeavesNoDecoder := by
  intro s h
  obtain ⟨t, ht, hpix, hprog⟩ := readLoop_latchProgress (s := s)
    (u := s.forgetHeader.setActivity (.reading (.typeField .latch))) (s.srcLeft + 1)
    (.inr (.inr ⟨rfl, rfl, _, rfl, rfl⟩))
  obtain ⟨⟨hcfg, hthr, hcmds, -, hsnk, hans, hsmp⟩, -⟩ := readLoop_frame ht
  have hpix : t.pix = s.pix := hpix
  have hsmp : t.smp = s.smp := hsmp
  refine ⟨t, (exec_decNew h).trans ht, hthr, ⟨hcfg, hcmds⟩, ⟨hsnk, hans⟩, hsmp ▸ SameBytes.refl _,
    hpix ▸ SameBytes.refl _, ?_⟩
  rcases hprog with hok | herr | ⟨hp, hres, r, ha, -⟩
  · exact .inl hok
  · exact .inr (.inl herr)
  · exact .inr (.inr ⟨hp, (busy_iff t).mpr (by simp [ha]), hres⟩)

/-! ## A read loop that is stopped -/

/-- The count of a reading operation leaves room for one read after any octets that are left. -/
theorem runReader_eq {n : Nat} {s : State} (hl : n ≤ s.srcLeft) :
    runReader s = readLoop (n + (s.srcLeft - n + 1)) s := by
  rw [runReader, show n + (s.srcLeft - n + 1) = s.srcLeft + 1 by omega]

/-- A plain source that is exhausted after `n` reads: `IoError(EOS)` (20_memory.md R43). -/
theorem readLoop_plain_end {n m : Nat} {s t : State} {r : Reader} (hr : readLoop n s = .next t)
    (ha : t.activity = .reading r) (hp : t.srcAnswers = []) (hend : t.src.length ≤ t.ipos) :
    readLoop (n + (m + 1)) s = .next (raise (.ioError .eos) t) := by
  rw [readLoop_add, hr, andThen_next]
  exact readLoop_failed ha (srcRead_plain_none hp hend) m

/-! ## Headers that stop short -/

/-- No more octets are consumed than the source holds. -/
theorem HeaderFails.le_length {rest : List Octet} {e : Err} {n : Nat} (h : HeaderFails rest e n) :
    n ≤ rest.length := by
  rcases h with ⟨-, -, rfl⟩ | ⟨t, tl, rfl, -, -, rfl⟩ | ⟨rfl, -, rfl⟩ | ⟨f, tl, rfl, -, -, rfl⟩ |
    ⟨f, ws, rfl, -, -, -, rfl⟩ | ⟨f, ws, hs, rfl, -, -, -, -, rfl⟩
  · exact Nat.zero_le _
  · simp
  · simp
  · simp
  · simp [Nat.add_comm 2]
  · simp; omega

/-- A header read that ends with `IoError` on a plain source has found the source stopping short of a header. -/
theorem HeaderFails.stopsShort {rest : List Octet} {c : IoCause} {n : Nat} (h : HeaderFails rest (.ioError c) n) :
    c = .eos ∧ n = rest.length ∧ StopsShort rest := by
  have hend : c = .eos ∧ n = rest.length := by
    rcases h with ⟨rfl, he, rfl⟩ | ⟨t, tl, -, -, he, -⟩ | ⟨rfl, he, rfl⟩ | ⟨f, tl, -, -, he, -⟩ |
      ⟨f, ws, rfl, -, -, he, rfl⟩ | ⟨f, ws, hs, rfl, -, -, -, he, rfl⟩ <;> cases he
    · exact ⟨rfl, rfl⟩
    · exact ⟨rfl, rfl⟩
    · exact ⟨rfl, by simp [Nat.add_comm 2]⟩
    · exact ⟨rfl, by simp; omega⟩
  obtain ⟨rfl, rfl⟩ := hend
  exact ⟨rfl, rfl, h⟩

/-- An error of the format ends the header read at its octet, with the octets up to it consumed (41_header.md R122 to
R124). -/
theorem readLoop_formatError {d : HeaderDest} {e : Err} {n : Nat} {u : State}
    (hf : HeaderFails (u.src.drop u.ipos) e n) (hne : ∀ c, e ≠ .ioError c)
    (ha : u.activity = .reading (.typeField d)) (hp : u.srcAnswers = []) :
    ∃ a, readLoop n u = .next (raise e { u with ipos := u.ipos + n, activity := a }) := by
  rcases hf with ⟨-, he, -⟩ | ⟨t, tl, hs, ht, rfl, rfl⟩ | ⟨-, he, -⟩ | ⟨f, tl, hs, hf, rfl, rfl⟩ |
    ⟨f, ws, -, -, -, he, -⟩ | ⟨f, ws, hs, -, -, -, -, he, -⟩
  · exact absurd he (hne _)
  · refine ⟨u.activity, ?_⟩
    rw [readLoop_delivered (n := 0) ha (srcRead_plain_cons hp hs),
      show (Reader.typeField d).field = .typeField from rfl, receive_typeField (by exact ha), if_neg ht, andThen_next]
    rfl
  · exact absurd he (hne _)
  · obtain ⟨-, hs2⟩ := getElem?_of_drop hs
    refine ⟨.reading (.fixHeader d), ?_⟩
    rw [readLoop_delivered (n := 1) ha (srcRead_plain_cons hp hs),
      show (Reader.typeField d).field = .typeField from rfl, receive_typeField (by exact ha), if_pos rfl, andThen_next,
      readLoop_delivered (n := 0) (r := .fixHeader d) rfl (srcRead_plain_cons (by exact hp) (by exact hs2)),
      show (Reader.fixHeader d).field = .fixHeader from rfl, receive_fixHeader (d := d) rfl, if_pos hf, andThen_next]
    rfl
  · exact absurd he (hne _)
  · exact absurd he (hne _)

/-- What a read leaves alone that has moved its reader on by `n` octets (41_header.md R120, R121). -/
theorem readsOctets_moved (n : Nat) (acc : Dim) (a : Activity) (ans : List ReadAnswer) (u : State) :
    SameRegisters u { u with ipos := u.ipos + n, acc := acc, activity := a, srcAnswers := ans } ∧
      ReadsOctets n u { u with ipos := u.ipos + n, acc := acc, activity := a, srcAnswers := ans } :=
  ⟨⟨rfl, rfl, rfl, rfl, rfl, rfl⟩, ⟨rfl, rfl⟩, rfl, rfl, ⟨rfl, rfl⟩, SameBytes.refl _, SameBytes.refl _⟩

section
variable {d : HeaderDest} {e : Err} {n : Nat} {u : State} (ha : u.activity = .reading (.typeField d))
include ha

/-- A header read on a plain source without a whole header: the first failing step decides (41_header.md R124). -/
theorem runReader_headerFails (hf : HeaderFails (u.src.drop u.ipos) e n) (hp : u.srcAnswers = []) :
    ∃ t, runReader u = .next t ∧ Ended e.record u t ∧ SameRegisters u t ∧ ReadsOctets n u t := by
  rw [runReader_eq (hf.le_length.trans (srcLeft_of_drop rfl).ge)]
  by_cases he : ∃ c, e = .ioError c
  · obtain ⟨c, rfl⟩ := he
    obtain ⟨rfl, rfl, hshort⟩ := hf.stopsShort
    obtain ⟨acc, r, hrun⟩ := readLoop_stopsShort hshort ha hp (List.append_nil _).symm
    have hend : u.src.length ≤ u.ipos + (u.src.drop u.ipos).length := by rw [List.length_drop]; omega
    exact ⟨_, readLoop_plain_end hrun rfl hp hend, ⟨rfl, rfl⟩, readsOctets_moved _ acc (.reading r) u.srcAnswers u⟩
  · obtain ⟨a, hrun⟩ := readLoop_formatError hf (fun c hc => he ⟨c, hc⟩) ha hp
    rw [readLoop_add, hrun, andThen_next, readLoop_raise]
    exact ⟨_, rfl, ⟨rfl, rfl⟩, readsOctets_moved n u.acc a u.srcAnswers u⟩

/-- An error of the format is the same whatever the answers to the reads after it (41_header.md R124). -/
theorem runReader_formatError_script {rest : List ReadAnswer} (hf : HeaderFails (u.src.drop u.ipos) e n)
    (hne : ∀ c, e ≠ .ioError c) (hp : u.srcAnswers = List.replicate n .deliver ++ rest) :
    ∃ t, runReader u = .next t ∧ (Ended e.record u t ∧ t.srcAnswers = rest) ∧ SameRegisters u t ∧
      ReadsOctets n u t := by
  have hle : n ≤ u.srcLeft := hf.le_length.trans (srcLeft_of_drop rfl).ge
  obtain ⟨a, hrun⟩ := readLoop_formatError (u := withAnswers [] u) hf hne ha rfl
  rw [runReader_eq hle, readLoop_script_ended hp hle hrun rfl rfl]
  exact ⟨_, rfl, ⟨⟨rfl, rfl⟩, rfl⟩, readsOctets_moved n u.acc a rest u⟩

variable {os tail : List Octet} (hs : u.src.drop u.ipos = os ++ tail) (hshort : StopsShort os)
include hs hshort

/-- The read after octets that stop short fails: `IoError` with the environment's cause (20_memory.md R43). -/
theorem runReader_stopsShort_failed {c : IoCause} {rest : List ReadAnswer}
    (hp : u.srcAnswers = List.replicate os.length .deliver ++ .fail c :: rest) :
    ∃ t, runReader u = .next t ∧
      (Ended (Err.record (.ioError (if tail = [] then .eos else c))) u t ∧ t.srcAnswers = rest) ∧
      SameRegisters u t ∧ ReadsOctets os.length u t := by
  have hlen : u.srcLeft = os.length + tail.length := by rw [srcLeft_of_drop hs, List.length_append]
  have hle : os.length ≤ u.srcLeft := by omega
  have hcause : (if u.ipos + os.length < u.src.length then c else .eos) = if tail = [] then .eos else c := by
    rw [State.srcLeft] at hlen
    cases tail with
    | nil => rw [if_neg (by simp at hlen; omega), if_pos rfl]
    | cons x xs => rw [if_pos (by simp at hlen; omega), if_neg (by simp)]
  obtain ⟨acc, r, hrun⟩ := readLoop_stopsShort (s := withAnswers [] u) hshort ha rfl hs
  rw [runReader_eq hle, readLoop_script_failed hp hle hrun rfl rfl, hcause]
  exact ⟨_, rfl, ⟨⟨rfl, rfl⟩, rfl⟩, readsOctets_moved os.length acc (.reading r) rest u⟩

/-- The read after octets that stop short is not answered: the header read stands at it (20_memory.md R48). -/
theorem runReader_stopsShort_silent {rest : List ReadAnswer}
    (hp : u.srcAnswers = List.replicate os.length .deliver ++ .silent :: rest) :
    ∃ t, runReader u = .next t ∧ (Blocked u t ∧ t.srcAnswers = .silent :: rest) ∧ SameRegisters u t ∧
      ReadsOctets os.length u t := by
  have hle : os.length ≤ u.srcLeft := by rw [srcLeft_of_drop hs, List.length_append]; omega
  obtain ⟨acc, r, hrun⟩ := readLoop_stopsShort (s := withAnswers [] u) hshort ha rfl hs
  rw [runReader_eq hle, readLoop_script_silent hp hle hrun rfl rfl]
  exact ⟨_, rfl, ⟨⟨rfl, rfl⟩, rfl⟩, readsOctets_moved os.length acc (.reading r) (.silent :: rest) u⟩

end

/-- `RDHDR` and `DEC_NEW` are the same header read, begun on the registers or on a dropped header (41_header.md R129,
45_orchestration.md R196): what it comes to for either is said once. -/
theorem header_commands {s : State} {n : Nat} {E : State → State → Prop} (h : s.activity = .idle)
    (hE : ∀ u v t, u.results = v.results → E u t → E v t)
    (hrun : ∀ d u, u.activity = .reading (.typeField d) → SameSource s u →
      ∃ t, runReader u = .next t ∧ E u t ∧ SameRegisters u t ∧ ReadsOctets n u t) :
    (∃ u, exec .rdhdr s = .next u ∧ E s u ∧ SameRegisters s u ∧ ReadsOctets n s u) ∧
    (∃ u, exec .decNew s = .next u ∧ E s u ∧ u.phase = .uninitialized ∧ u.thr = s.thr ∧ ReadsOctets n s u) := by
  obtain ⟨t, ht, hend, hreg, hread⟩ := hrun .deliver (s.setActivity (.reading (.typeField .deliver))) rfl
    ⟨rfl, rfl, rfl⟩
  obtain ⟨u, hu, hend', ⟨hthr, hphase, -⟩, hread'⟩ := hrun .latch
    (s.forgetHeader.setActivity (.reading (.typeField .latch))) rfl ⟨rfl, rfl, rfl⟩
  exact ⟨⟨t, (exec_rdhdr h).trans ht, hE _ s t (by rfl) hend, hreg, hread⟩,
    ⟨u, (exec_decNew h).trans hu, hE _ s u (by rfl) hend', hphase, hthr, hread'⟩⟩

/-- The end of an operation is seen from the results before it alone. -/
theorem Ended.of_results {r : Result} {u v t : State} (e : u.results = v.results) (h : Ended r u t) : Ended r v t := by
  obtain ⟨ha, hr⟩ := h
  exact ⟨ha, e ▸ hr⟩

theorem Blocked.of_results {u v t : State} (e : u.results = v.results) (h : Blocked u t) : Blocked v t := by
  obtain ⟨hb, hr⟩ := h
  exact ⟨hb, e ▸ hr⟩

/-- Settles O30: each clause is what the common header read comes to on its source. -/
theorem headerErrorsInOrder : Obligations.HeaderErrorsInOrder := by
  refine ⟨fun s e n h hp hf => ?_, fun s e n rest h hp hf hne => ?_, fun s os tail c rest h hp hs hshort => ?_,
    fun s os tail rest h hp hs hshort => ?_⟩
  · refine header_commands (E := Ended e.record) h (fun _ _ _ => Ended.of_results) fun d u ha hsrc => ?_
    obtain ⟨hsrc, hpos, hans⟩ := hsrc
    exact runReader_headerFails ha (by rwa [hsrc, hpos]) (hans.trans hp)
  · simpa only [and_assoc] using header_commands (E := fun s t => Ended e.record s t ∧ t.srcAnswers = rest) h
      (fun _ _ _ e => And.imp_left (Ended.of_results e)) fun d u ha ⟨hsrc, hpos, hans⟩ =>
        runReader_formatError_script ha (by rwa [hsrc, hpos]) hne (hans.trans hp)
  · simpa only [and_assoc] using header_commands
      (E := fun s t => Ended (Err.record (.ioError (if tail = [] then .eos else c))) s t ∧ t.srcAnswers = rest) h
      (fun _ _ _ e => And.imp_left (Ended.of_results e)) fun d u ha ⟨hsrc, hpos, hans⟩ =>
        runReader_stopsShort_failed ha (by rwa [hsrc, hpos]) hshort (hans.trans hp)
  · simpa only [and_assoc] using header_commands (E := fun s t => Blocked s t ∧ t.srcAnswers = .silent :: rest) h
      (fun _ _ _ e => And.imp_left (Blocked.of_results e)) fun d u ha ⟨hsrc, hpos, hans⟩ =>
        runReader_stopsShort_silent ha (by rwa [hsrc, hpos]) hshort (hans.trans hp)

/-! ## Rows that stop short -/

/-- An unpacking command is the read loop of its unpack (42_unpack.md R141, 45_orchestration.md R201). -/
theorem exec_unpacks {i : Instr} {w h : Dim} {s : State} (hu : Unpacks i w h s) (ha : s.activity = .idle) :
    exec i s = runReader (startUnpack w h s) := by
  rcases hu with rfl | ⟨rfl, hp, rfl, rfl⟩
  · exact exec_unpack ha w h
  · rw [exec_rdimg ha, if_pos hp]

/-- A byte below the image's end after the zero fill, if the block does it (42_unpack.md R143). -/
theorem prefilled_eq (s : State) (j : Nat) :
    prefilled s j = if s.cfg.unpackPrezero = .block then 0x00 else s.pix.read j := by
  unfold prefilled
  split <;> simp_all

/-- The start of an unpack of an image with pixels in a buffer that holds them: its bytes are prefilled and the first
row is due (42_unpack.md R142 to R144). -/
theorem startUnpack_ready {w h : Dim} {s : State} (hw : 0 < w.toNat) (hh : 0 < h.toNat) (hwf : s.pix.wf = true)
    (hl : w.toNat * h.toNat ≤ s.pix.len) :
    ∃ m, startUnpack w h s =
        { s with pix := m, row := 0, col := 0, rowbuf := [], activity := .reading (.pixelRow w h) } ∧
      m.wf = true ∧ m.len = s.pix.len ∧
      ∀ j, m.read j = if j < w.toNat * h.toNat then prefilled s j else s.pix.read j := by
  have hne : emptyImage w h = false := by
    rw [Bool.eq_false_iff, ne_eq, emptyImage_iff]
    rintro (rfl | rfl)
    · exact absurd hw (by simp)
    · exact absurd hh (by simp)
  rcases startUnpack_cases w h s with ⟨hshort, -⟩ | ⟨-, m, hm, hmwf, hread, ⟨he, -⟩ | ⟨-, e⟩⟩
  · exact absurd hshort (Nat.not_lt.mpr hl)
  · rw [hne] at he
    cases he
  · refine ⟨m, e, hmwf hwf, hm, fun j => (hread j).trans ?_⟩
    rw [prefilled_eq, pixelCount]
    by_cases hj : j < w.toNat * h.toNat <;> simp [hj]

/-- The place of a pixel in its row and column (20_memory.md R47). -/
theorem row_col_of_index {w r c : Nat} (hc : c < w) : (r * w + c) / w = r ∧ (r * w + c) % w = c := by
  rw [Nat.mul_comm, Nat.mul_add_div (by omega), Nat.div_eq_of_lt hc, Nat.mul_add_mod, Nat.mod_eq_of_lt hc]
  exact ⟨rfl, rfl⟩

/-- Rows unpacked onto prefilled bytes, in the terms of the statement (42_unpack.md R144 to R146, R149). -/
theorem unpacked_of_read {w h : Dim} {r : Nat} {s : State} {p q : Memory} (hr : r ≤ h.toNat)
    (hp : ∀ j, p.read j = if j < w.toNat * h.toNat then prefilled s j else s.pix.read j)
    (hq : ∀ j, q.read j = if j < r * w.toNat ∧ streamBit s.src s.ipos w (j / w.toNat) (j % w.toNat) = true
      then Config.white else p.read j) :
    (∀ j, w.toNat * h.toNat ≤ j → q.read j = s.pix.read j) ∧
    (∀ r' c, r' < r → c < w.toNat → q.read (r' * w.toNat + c) =
      if streamBit s.src s.ipos w r' c then 0xFF else prefilled s (r' * w.toNat + c)) ∧
    ∀ j, r * w.toNat ≤ j → j < w.toNat * h.toNat → q.read j = prefilled s j := by
  have hrows : r * w.toNat ≤ w.toNat * h.toNat := by
    rw [Nat.mul_comm w.toNat]
    exact Nat.mul_le_mul_right _ hr
  refine ⟨fun j hj => ?_, fun r' c hr' hc => ?_, fun j hj hlt => ?_⟩
  · rw [hq, if_neg (by omega), hp, if_neg (by omega)]
  · have hrow : (r' + 1) * w.toNat ≤ r * w.toNat := Nat.mul_le_mul_right _ hr'
    rw [Nat.succ_mul] at hrow
    obtain ⟨hdiv, hmod⟩ := row_col_of_index (r := r') hc
    have hlt : r' * w.toNat + c < r * w.toNat := by omega
    rw [hq, hdiv, hmod, hp, if_pos (show r' * w.toNat + c < w.toNat * h.toNat by omega)]
    simp only [hlt, true_and]
    rfl
  · rw [hq, if_neg (by omega), hp, if_pos hlt]

/-- `n` octets into the pixel data on a plain source, `r` whole rows and `d` octets of the next: another read is due,
the whole rows are in `PIX` and nothing of the next is (42_unpack.md R144 to R146). -/
theorem readLoop_startUnpack {w h : Dim} {s : State} {r d n : Nat} (hwf : s.pix.wf = true)
    (hl : w.toNat * h.toNat ≤ s.pix.len) (hr : r < h.toNat) (hd : d < rowOctets w) (hn : n = r * rowOctets w + d)
    (hsrc : s.ipos + n ≤ s.src.length) :
    ∃ t, readLoop n (withAnswers [] (startUnpack w h s)) = .next t ∧ t.activity = .reading (.pixelRow w h) ∧
      t.srcAnswers = [] ∧ t.results = s.results ∧ Unpacked w h r n s t := by
  subst hn
  have hw : 0 < w.toNat := by simp only [rowOctets] at hd; omega
  obtain ⟨p, hstart, hpwf, hplen, hpread⟩ := startUnpack_ready hw (Nat.zero_lt_of_lt hr) hwf hl
  obtain ⟨q, row, c, os, hrun, hqlen, hqread⟩ := readLoop_partRow (w := w) (h := h) r d
    (s := withAnswers [] { s with
      pix := p, row := 0, col := 0, rowbuf := [], activity := .reading (.pixelRow w h) })
    rfl rfl rfl (by simpa [withAnswers] using hr) hd (by simp only [withAnswers]; omega) hw hpwf
    (by simp only [withAnswers]; rw [Nat.mul_comm]; omega)
  obtain ⟨hfrom, hrows, hrest⟩ := unpacked_of_read (q := q) hr.le hpread fun j => by
    simpa [withAnswers] using hqread j
  rw [hstart, hrun]
  refine ⟨_, rfl, rfl, rfl, rfl, ⟨rfl, rfl⟩, ⟨rfl, rfl, rfl, rfl, rfl, rfl⟩, ⟨rfl, rfl⟩, SameBytes.refl _, rfl, ?_,
    ⟨hqlen.trans hplen, hfrom⟩, hrows, hrest⟩
  exact Nat.add_assoc _ _ _

/-- Settles O37: the read loop is followed up to the read that stops it, and what the script then answers ends or
blocks the unpack there. -/
theorem failedRowWritesNoPixel : Obligations.FailedRowWritesNoPixel := by
  intro i w h s r d n hu ha hwf hl hr hd hn
  obtain ⟨-, -, ⟨hsrc, hpos, hans⟩, -⟩ := startUnpack_frame w h s
  have hleft : s.ipos + n ≤ s.src.length → n ≤ (startUnpack w h s).srcLeft := by
    rw [State.srcLeft, hsrc, hpos]
    omega
  rw [exec_unpacks hu ha]
  refine ⟨fun hp hend => ?_, fun c rest hp hle => ?_, fun rest hp hle => ?_⟩
  · obtain ⟨t, hrun, hact, hplain, hres, hunp⟩ := readLoop_startUnpack hwf hl hr hd hn hend.ge
    obtain ⟨-, -, -, -, htsrc, htpos, -⟩ := id hunp
    rw [withAnswers_self (hans.trans hp)] at hrun
    rw [runReader_eq (hleft hend.ge), readLoop_plain_end hrun hact hplain (by rw [htsrc, htpos, hend])]
    exact ⟨_, rfl, ⟨rfl, by rw [raise_results, hres]⟩, hunp⟩
  · obtain ⟨t, hrun, hact, -, hres, hunp⟩ := readLoop_startUnpack hwf hl hr hd hn hle
    obtain ⟨-, -, -, -, -, htpos, -⟩ := id hunp
    rw [runReader_eq (hleft hle),
      readLoop_script_failed (hans.trans hp) (hleft hle) hrun (htpos.trans (by rw [hpos])) hact, hsrc, hpos]
    exact ⟨_, rfl, rfl, hunp, rfl, by rw [← hres]; rfl⟩
  · obtain ⟨t, hrun, hact, -, hres, hunp⟩ := readLoop_startUnpack hwf hl hr hd hn hle
    obtain ⟨-, -, -, -, -, htpos, -⟩ := id hunp
    rw [runReader_eq (hleft hle),
      readLoop_script_silent (hans.trans hp) (hleft hle) hrun (htpos.trans (by rw [hpos])) hact]
    exact ⟨_, rfl, rfl, hunp, (busy_iff _).mpr (by simp [hact]), hres⟩

end Sys2Proof.Machine

/-! Proofs of the statements about the encoding (30_encoding.md): the command word and its reserved codes, the round
trip, and what each octet class does at its field and out of it. The round trip rests on `Laws.RoundTrip`, the other
direction on the fields of the word. -/

namespace Sys2Proof.Machine

/-! ## The round trip -/

/-- Every instruction's word decodes to it wherever the instruction is met: the family `Laws.RoundTrip` as one lemma. -/
theorem roundTrip (i : Instr) : Laws.RoundTrip.Statement i := by
  cases i with
  | decNew => exact Laws.RoundTrip.decNew
  | dims => exact Laws.RoundTrip.dims
  | rdimg => exact Laws.RoundTrip.rdimg
  | encNew => exact Laws.RoundTrip.encNew
  | setthr t => exact Laws.RoundTrip.setthr t
  | encodeL w h => exact Laws.RoundTrip.encodeL w h
  | encodeC w h => exact Laws.RoundTrip.encodeC w h
  | rdhdr => exact Laws.RoundTrip.rdhdr
  | wrhdr w h => exact Laws.RoundTrip.wrhdr w h
  | unpack w h => exact Laws.RoundTrip.unpack w h
  | packL w h t => exact Laws.RoundTrip.packL w h t
  | packC w h t => exact Laws.RoundTrip.packC w h t
  | vldec => exact Laws.RoundTrip.vldec
  | vlenc v => exact Laws.RoundTrip.vlenc v
  | thrcmpL s t => exact Laws.RoundTrip.thrcmpL s t
  | thrcmpC r g b a t => exact Laws.RoundTrip.thrcmpC r g b a t
  | typeOk => exact Laws.RoundTrip.typeOk
  | typeBad t => exact Laws.RoundTrip.typeBad t
  | fixhdrOk t r => exact Laws.RoundTrip.fixhdrOk t r
  | fixhdrExt t r => exact Laws.RoundTrip.fixhdrExt t r
  | vleCont g => exact Laws.RoundTrip.vleCont g
  | vleLast g => exact Laws.RoundTrip.vleLast g
  | pixoct o => exact Laws.RoundTrip.pixoct o

/-- Settles O6, by the round trip of the instruction's constructor. -/
theorem decodeOfEncodeIsTheInstruction : Obligations.DecodeOfEncodeIsTheInstruction :=
  fun i p hw hp => roundTrip i hw p hp

/-! ## What the decoder answers -/

/-- A command is encoded with the low byte it was decoded from (30_encoding.md R84, R85). -/
theorem low_encode_of_decodeCommand {c : CommandWord} {i : Instr} (h : decodeCommand c = .ok i) :
    (encode i).low = c.low := by
  simp only [decodeCommand] at h
  split at h
  case h_17 => cases h
  all_goals
    rename_i hcode
    cases h
    exact (commandWord_low _ _ _ _).trans (BitVec.eq_of_toNat_eq hcode.symm)

/-- An octet class is encoded as the octet it was decoded from (30_encoding.md R71 to R73, R80). -/
theorem encode_decodeOctet (f : Field) (o : Octet) : encode (decodeOctet f o).toInstr = octetWord o := by
  have hvle : encode (OctetClass.toInstr (if o.getLsbD 7 then .vleCont (o.extractLsb' 0 7)
      else .vleLast (o.extractLsb' 0 7))) = octetWord o := by
    conv_rhs => rw [octet_split7 o]
    cases o.getLsbD 7 <;> rfl
  cases f with
  | typeField =>
    by_cases ho : o = 0x00
    · rw [ho]
      rfl
    · simp only [decodeOctet, if_neg ho, OctetClass.toInstr, encode]
  | fixHeader =>
    conv_rhs => rw [octet_split125 o]
    rw [decodeOctet]
    cases o.getLsbD 7 <;> rfl
  | width | height | value => exact hvle
  | pixelData => rfl

/-- Settles O7: at the command port by the code of the word, at the source by the field and the octet. -/
theorem decodedInstructionBelongsToPort : Obligations.DecodedInstructionBelongsToPort := by
  intro p c i h
  cases p with
  | command =>
    obtain ⟨hfound, hwf⟩ := decodeCommand_foundAt c i h
    exact ⟨hwf, hfound, low_encode_of_decodeCommand h⟩
  | source f =>
    obtain rfl : (decodeOctet f c.low).toInstr = i := Except.ok.inj h
    refine ⟨decodeOctet_wellFormed f _, decodeOctet_foundAt f _, ?_⟩
    rw [encode_decodeOctet]
    exact commandWord_low _ _ _ _

/-- Settles O9, by evaluating the decoder on the seven words. -/
theorem exampleCommandWordsDecode : Obligations.ExampleCommandWordsDecode := by
  refine ⟨?_, ?_, ?_, ?_, ?_, ?_, ?_⟩ <;> decide

/-- Settles O10, by evaluating the decoder on the seven octets. -/
theorem exampleWireOctetsDecode : Obligations.ExampleWireOctetsDecode := by
  refine ⟨?_, ?_, ?_, ?_, ?_, ?_, ?_⟩ <;> decide

/-! ## Reserved codes and unused fields -/

/-- The low bytes of the sixteen commands, as numbers (30_encoding.md R85). -/
def commandCodes : List Nat :=
  [0x01, 0x02, 0x03, 0x04, 0x05, 0x06, 0x16, 0x08, 0x09, 0x0A, 0x0B, 0x1B, 0x0C, 0x0D, 0x0E, 0x1E]

/-- Exactly the words whose low byte is no command's are rejected (30_encoding.md R86). -/
theorem decodeCommand_eq_error_iff (c : CommandWord) :
    decodeCommand c = .error (.reservedCommand c.low) ↔ c.low.toNat ∉ commandCodes := by
  simp only [decodeCommand]
  split
  case h_17 =>
    refine iff_of_true rfl ?_
    simp only [commandCodes, List.mem_cons, List.not_mem_nil, or_false, not_or]
    and_intros <;> assumption
  all_goals
    rename_i hcode
    exact iff_of_false nofun (by rw [hcode]; decide)

/-- The low bytes that are no command's, by `op` = bits 3:0, `k` = bit 4 and bits 7:5 (30_encoding.md R86). -/
theorem notMem_commandCodes_iff (o : Octet) :
    o.toNat ∉ commandCodes ↔
      (o.extractLsb' 0 4 = 0x0#4 ∨ o.extractLsb' 0 4 = 0x7#4 ∨ o.extractLsb' 0 4 = 0xF#4 ∨
       (o.getLsbD 4 = true ∧ o.extractLsb' 0 4 ≠ 0x6#4 ∧ o.extractLsb' 0 4 ≠ 0xB#4 ∧ o.extractLsb' 0 4 ≠ 0xE#4) ∨
       o.extractLsb' 5 3 ≠ 0#3) := by
  revert o; decide

/-- Bits of a word's low byte are bits of the word (30_encoding.md R84). -/
theorem extractLsb'_low (c : CommandWord) {i n : Nat} (h : i + n ≤ 8) :
    c.low.extractLsb' i n = c.extractLsb' i n := by
  apply BitVec.eq_of_getLsbD_eq
  intro j hj
  have hbit : i + j < 8 := by omega
  simp [CommandWord.low, hbit]

/-- A bit of a word's low byte is a bit of the word (30_encoding.md R84). -/
theorem getLsbD_low (c : CommandWord) {i : Nat} (h : i < 8) : c.low.getLsbD i = c.getLsbD i := by
  simp [CommandWord.low, h]

section
variable {c c' : CommandWord} {low : Octet} (h : c.low = low) (h' : c'.low = low)
include h h'

/-- `DEC_NEW`, `DIMS`, `RDIMG`, `ENC_NEW`, `RDHDR` and `VLDEC` use no operand field (30_encoding.md R85). -/
theorem decodeCommand_congr_code (hlow : low ∈ [0x01#8, 0x02#8, 0x03#8, 0x04#8, 0x08#8, 0x0C#8]) :
    decodeCommand c = decodeCommand c' := by
  simp only [List.mem_cons, List.not_mem_nil, or_false] at hlow
  rcases hlow with rfl | rfl | rfl | rfl | rfl | rfl <;> simp [decodeCommand, h, h']

/-- `SETTHR` uses `imm8` only (30_encoding.md R85). -/
theorem decodeCommand_congr_imm8 (hlow : low = 0x05#8) (ht : c.imm8 = c'.imm8) :
    decodeCommand c = decodeCommand c' := by
  subst hlow
  simp [decodeCommand, h, h', ht]

/-- `ENCODE.*`, `WRHDR` and `UNPACK` use `a` and `b` only (30_encoding.md R85). -/
theorem decodeCommand_congr_dims (hlow : low ∈ [0x06#8, 0x16#8, 0x09#8, 0x0A#8]) (ha : c.a = c'.a) (hb : c.b = c'.b) :
    decodeCommand c = decodeCommand c' := by
  simp only [List.mem_cons, List.not_mem_nil, or_false] at hlow
  rcases hlow with rfl | rfl | rfl | rfl <;> simp [decodeCommand, h, h', ha, hb]

/-- `VLENC` uses `a` only (30_encoding.md R85). -/
theorem decodeCommand_congr_a (hlow : low = 0x0D#8) (ha : c.a = c'.a) : decodeCommand c = decodeCommand c' := by
  subst hlow
  simp [decodeCommand, h, h', ha]

/-- `THRCMP.L` uses `imm8` and the low byte of `a` only (30_encoding.md R85). -/
theorem decodeCommand_congr_luma (hlow : low = 0x0E#8) (ht : c.imm8 = c'.imm8)
    (ha : Dim.byte c.a 0 = Dim.byte c'.a 0) : decodeCommand c = decodeCommand c' := by
  subst hlow
  simp [decodeCommand, h, h', ht, ha]

/-- `THRCMP.C` uses `imm8` and `a` only (30_encoding.md R85). -/
theorem decodeCommand_congr_rgba (hlow : low = 0x1E#8) (ht : c.imm8 = c'.imm8) (ha : c.a = c'.a) :
    decodeCommand c = decodeCommand c' := by
  subst hlow
  simp [decodeCommand, h, h', ht, ha]

end

/-- Settles O8: the reserved bytes by their bits, and for each command the fields it uses. -/
theorem reservedCommandsAreRefused : Obligations.ReservedCommandsAreRefused := by
  obtain ⟨-, hrefused, -⟩ := stepRunsTheDecodedInstruction
  refine ⟨fun c => ?_, fun s c ha hc hd => hrefused s c [] _ ha hc hd, fun low a a' b b' t t' => ?_⟩
  · rw [decodeCommand_eq_error_iff, notMem_commandCodes_iff, extractLsb'_low c (by omega), extractLsb'_low c (by omega),
      getLsbD_low c (by omega)]
  · exact ⟨decodeCommand_congr_code (by simp) (by simp),
      fun hl => decodeCommand_congr_imm8 (by simp) (by simp) hl (by simp),
      fun hl => decodeCommand_congr_dims (by simp) (by simp) hl (by simp) (by simp),
      fun hl => decodeCommand_congr_a (by simp) (by simp) hl (by simp),
      fun hl ha => decodeCommand_congr_luma (by simp) (by simp) hl (by simp) (by simpa [Dim.byte] using ha),
      fun hl => decodeCommand_congr_rgba (by simp) (by simp) hl (by simp) (by simp)⟩

/-! ## Header octets and integers at their fields -/

section
variable {s : State} {d : HeaderDest}

/-- A TypeField of 0 has the FixHeaderField follow (41_header.md R122). -/
theorem exec_typeOk (ha : s.activity = .reading (.typeField d)) :
    exec .typeOk s = .next (s.setActivity (.reading (.fixHeader d))) := by
  simp [exec, execTypeOk, ha]

/-- Any other TypeField is an unsupported type (41_header.md R122). -/
theorem exec_typeBad (ha : s.activity = .reading (.typeField d)) {t : Octet} (ht : t ≠ 0x00) :
    exec (.typeBad t) s = .next (raise (.unsupportedType t) s) := by
  simp only [exec, execTypeBad, ha, if_neg ht]

/-- With the extension flag clear Width follows, whatever the other bits (41_header.md R123). -/
theorem exec_fixhdrOk (ha : s.activity = .reading (.fixHeader d)) (t : BitVec 2) (r : BitVec 5) :
    exec (.fixhdrOk t r) s = .next { s with acc := 0, activity := .reading (.width d) } := by
  simp [exec, execFixhdrOk, ha]

/-- With the extension flag set the header is unsupported (41_header.md R123). -/
theorem exec_fixhdrExt (ha : s.activity = .reading (.fixHeader d)) (t : BitVec 2) (r : BitVec 5) :
    exec (.fixhdrExt t r) s = .next (raise .unsupportedHeaders s) := by
  simp [exec, execFixhdrExt, ha]

/-- A group with more to follow is accumulated, at every integer (40_vle.md R101). -/
theorem exec_vleCont {r : Reader} (ha : s.activity = .reading r) (hi : r.atInteger = true) (g : BitVec 7) :
    exec (.vleCont g) s = .next { s with acc := vleAccumulate s.acc g } := by
  cases r with
  | width | height | value => simp [exec, execVleCont, ha]
  | typeField | fixHeader | pixelRow => cases hi

/-- The last group of Width has Height follow (41_header.md R121). -/
theorem exec_vleLast_width (ha : s.activity = .reading (.width d)) (g : BitVec 7) :
    exec (.vleLast g) s =
      .next { s with acc := 0, activity := .reading (.height d (vleAccumulate s.acc g)) } := by
  simp [exec, execVleLast, ha]

/-- The last group of Height completes the header (41_header.md R121). -/
theorem exec_vleLast_height {w : Dim} (ha : s.activity = .reading (.height d w)) (g : BitVec 7) :
    exec (.vleLast g) s = .next (headerDone d w (vleAccumulate s.acc g) s) := by
  simp [exec, execVleLast, ha]

/-- The last group of a `VLDEC` ends it with the value (40_vle.md R101). -/
theorem exec_vleLast_value (ha : s.activity = .reading .value) (g : BitVec 7) :
    exec (.vleLast g) s = .next (succeed (vleAccumulate s.acc g) 0 s) := by
  simp [exec, execVleLast, ha]

end

/-- Settles O56: the next field, or the error of the type code. -/
theorem typeOctetsAtTheTypeField : Obligations.TypeOctetsAtTheTypeField := by
  intro s d ha
  exact ⟨exec_typeOk ha, fun t ht => ⟨_, exec_typeBad ha ht, ended_finish _ s, quiet_finish _ s⟩⟩

/-- Settles O57: the next field, or the error of the extension flag. -/
theorem flagOctetsAtTheFixHeaderField : Obligations.FlagOctetsAtTheFixHeaderField := by
  intro s d t r ha
  exact ⟨exec_fixhdrOk ha t r, _, exec_fixhdrExt ha t r, ended_finish _ s, quiet_finish _ s⟩

/-- One accumulation as the spec's arithmetic (40_vle.md R101). -/
theorem vleAccumulate_eq_ofNat (acc : Dim) (g : BitVec 7) :
    vleAccumulate acc g = BitVec.ofNat 32 (acc.toNat * 128 + g.toNat) :=
  BitVec.eq_of_toNat_eq (by rw [vleAccumulate_toNat, BitVec.toNat_ofNat])

/-- At Width, Height and the integer of a `VLDEC` the reader stands at an integer (40_vle.md R100). -/
theorem atInteger_of_field {r : Reader} (h : r.field = .width ∨ r.field = .height ∨ r.field = .value) :
    r.atInteger = true := by
  cases r <;> simp_all [Reader.field, Reader.atInteger]

/-- Settles O58, by the place of the integer the group belongs to. -/
theorem groupOctetsAtAnInteger : Obligations.GroupOctetsAtAnInteger := by
  intro s r g v ha hv
  obtain rfl : vleAccumulate s.acc g = v := (vleAccumulate_eq_ofNat s.acc g).trans hv.symm
  refine ⟨fun hf => exec_vleCont ha (atInteger_of_field hf) g, ?_, ?_, ?_, ?_⟩
  · rintro d rfl
    exact exec_vleLast_width ha g
  · rintro w rfl
    exact ⟨_, exec_vleLast_height ha g, ended_finish _ s, quiet_finish _ s⟩
  · rintro w rfl
    exact ⟨_, exec_vleLast_height ha g, ended_finish _ (s.latchHeader w _), rfl, rfl, rfl, rfl, rfl, rfl,
      ⟨rfl, rfl⟩, rfl, rfl, ⟨rfl, rfl⟩, SameBytes.refl _, SameBytes.refl _⟩
  · rintro rfl
    exact ⟨_, exec_vleLast_value ha g, ended_finish _ s, quiet_finish _ s⟩

/-! ## Pixel octets -/

/-- What the end of a row leaves alone, whether the next row begins or the unpack ends (42_unpack.md R141). -/
theorem rowDone_frame (h : Dim) (s : State) :
    SameRegisters s (rowDone h s) ∧ SamePort s (rowDone h s) ∧ SameSource s (rowDone h s) ∧ SameSink s (rowDone h s) ∧
      (rowDone h s).smp = s.smp ∧ (rowDone h s).pix = s.pix := by
  unfold rowDone
  split <;> exact ⟨⟨rfl, rfl, rfl, rfl, rfl, rfl⟩, ⟨rfl, rfl⟩, ⟨rfl, rfl, rfl⟩, ⟨rfl, rfl⟩, rfl, rfl⟩

/-- After the last row the unpack ends (42_unpack.md R141). -/
theorem rowDone_last {h : Dim} {s : State} (hr : s.row.toNat + 1 = h.toNat) : rowDone h s = succeed 0 0 s := by
  have hrow : s.row + 1 = h := BitVec.eq_of_toNat_eq ((toNat_succ_of_lt (w := h) (by omega)).trans hr)
  rw [rowDone, if_pos hrow]

/-- After any other row the next one begins (42_unpack.md R141; 10_state.md R21, R28). -/
theorem rowDone_next {h : Dim} {s : State} (hr : s.row.toNat + 1 < h.toNat) :
    rowDone h s = { s with row := s.row + 1, col := 0, rowbuf := [] } := by
  have hsucc : (s.row + 1).toNat = s.row.toNat + 1 := toNat_succ_of_lt (w := h) (by omega)
  rw [rowDone, if_neg]
  rintro rfl
  omega

/-- Settles O59: the octet goes to `ROWBUF`, and the last one has the row inspected and done. -/
theorem pixelOctetsFillTheRow : Obligations.PixelOctetsFillTheRow := by
  intro s w h p hi ha
  obtain ⟨⟨-, -, hwf, -⟩, -, hk⟩ := hi
  rw [ha] at hk
  obtain ⟨hfits, hrow, -, -⟩ := hk
  refine ⟨receive_pixel_part ha p, fun hl => ?_⟩
  obtain ⟨m, hrun, -, hlen, hread⟩ := inspectRow_spec (w := w) (s := { s with rowbuf := s.rowbuf ++ [p] }) hwf
    (pixel_in hfits hrow) (by simpa [rowOctets] using hl.ge)
  have hexec : exec (.pixoct p) s =
      .next (rowDone h { s with rowbuf := s.rowbuf ++ [p], pix := m, col := w }) :=
    (receive_pixel_last ha p hl.ge).trans (by rw [hrun]; rfl)
  obtain ⟨hregs, hport, hsrc, hsnk, hsmp, hpix⟩ :=
    rowDone_frame h { s with rowbuf := s.rowbuf ++ [p], pix := m, col := w }
  refine ⟨_, hexec, hregs, hport, hsrc, hsnk, ?_, ?_, fun c hc => ?_, fun j hj => ?_, fun hlast => ?_, fun hmore => ?_⟩
  · rw [hsmp]
    exact SameBytes.refl _
  · rw [hpix]
    exact hlen
  · rw [hpix, hread, Nat.add_sub_cancel_left]
    simp [hc, Config.white]
  · rw [hpix, hread, if_neg fun hin => by simp only at hin; omega]
  · rw [rowDone_last (by exact hlast)]
    exact ⟨rfl, rfl⟩
  · rw [rowDone_next (by exact hmore)]
    exact ⟨rfl, rfl, toNat_succ_of_lt hrow, rfl, rfl, rfl, rfl, rfl, rfl, rfl⟩

/-! ## Octets out of place -/

/-- What the reader does with a class that does not belong at its field (30_encoding.md R80; log 13). -/
theorem receive_out_of_place {c : OctetClass} {s : State}
    (h : ∀ r, s.activity = .reading r → c.toInstr.foundAt (.source r.field) = false) :
    receive c s = .refused .octetOutOfPlace := by
  cases c with
  | typeOk | typeBad | fixhdrOk | fixhdrExt | pixoct =>
    simp only [receive, execTypeOk, execTypeBad, execFixhdrOk, execFixhdrExt, execPixoct]
    split
    next ha => cases h _ ha
    next => rfl
  | vleCont | vleLast =>
    simp only [receive, execVleCont, execVleLast]
    split
    next ha => cases h _ ha
    next ha => cases h _ ha
    next ha => cases h _ ha
    next => rfl

/-- Settles O60: an instruction that is no command is an octet class. -/
theorem octetsOutOfPlaceAreRefused : Obligations.OctetsOutOfPlaceAreRefused := by
  intro i s hcmd h
  obtain hc | ⟨c, rfl⟩ := command_or_octet i
  · exact absurd hc (by simp [hcmd])
  · exact (exec_toInstr c s).trans (receive_out_of_place h)

end Sys2Proof.Machine

/-! Proofs of the statements about variable-length integers (40_vle.md), and of the two commands that read a whole header
(41_header.md R121, 45_orchestration.md R196). Writing rests on `Writes` and on the first octet of the shortest form;
reading rests on what the read loop comes to on an integer, a header, or octets that all continue. -/

namespace Sys2Proof.Machine

/-! ## Writing an integer -/

/-- A plain sink takes everything a writing operation has to write (20_memory.md R45). -/
theorem Writes.plain {s : State} {p : List Octet × Result} {o : Host.Outcome State Fault Refusal} (h : Writes s p o)
    (hp : s.snkAnswers = []) : ∃ u, o = .next u ∧ Ended p.2 s u ∧ WritesOctets p.1 s u := by
  obtain ⟨n, u, rfl, hle, hpend, hf, hsnk, hans⟩ := h
  obtain ⟨t, ht, hft, hkt, -, hend⟩ := pending_plain p.1 hle hpend (hans.trans hp)
  exact ⟨t, ht, hend, (hf.trans hft).writesOctets (hsnk ▸ hkt)⟩

/-- An octet is its bit 7 and its low 7 bits (30_encoding.md R73). -/
theorem toNat_eq_bit7_add_group (o : Octet) : o.toNat = (if o.getLsbD 7 then 128 else 0) + o.toNat % 128 := by
  have hlt := o.isLt
  have hbit : o.getLsbD 7 = decide (o.toNat / 128 % 2 = 1) := Nat.testBit_eq_decide_div_mod_eq
  simp only [hbit, decide_eq_true_eq]
  split <;> omega

/-- A written octet: the continuation bit on every group but 0, then the group (40_vle.md R105). -/
theorem vleOctet_toNat (v : Dim) (g : BitVec 3) :
    (vleOctet v g).toNat = (if g = 0 then 0 else 128) + v.toNat / 128 ^ g.toNat % 128 := by
  rw [toNat_eq_bit7_add_group, vleOctet_bit7, vleOctet_group]
  by_cases hg : g = 0 <;> simp [hg]

/-- Settles O22, by the plain sink and the value of each octet. -/
theorem vlencWritesTheGroups : Obligations.VlencWritesTheGroups := by
  intro v s ha hp
  obtain ⟨u, hu, hend, hw⟩ := (exec_vlenc_writes ha v).plain hp
  refine ⟨u, hu, hend, hw, fun j hj => ⟨_, vleOctets_getElem? v hj, ?_⟩⟩
  have hlast : BitVec.ofNat 3 (vleLength v - 1 - j) = 0 ↔ j + 1 = vleLength v := by
    rw [← BitVec.toNat_inj, group_index]
    change vleLength v - 1 - j = 0 ↔ _
    omega
  rw [vleOctet_toNat, group_index]
  simp only [hlast]

/-! ## The shortest form -/

/-- The number of octets, by the range of the value (40_vle.md R106). -/
theorem vleLength_eq (v : Dim) : vleLength v =
    if v.toNat ≤ 127 then 1 else if v.toNat ≤ 16383 then 2 else if v.toNat ≤ 2097151 then 3
      else if v.toNat ≤ 268435455 then 4 else 5 := by
  obtain ⟨hlow, hhigh⟩ := vleLength_bounds v
  have h1 := vleLength_le_iff v (n := 1) (by omega)
  have h2 := vleLength_le_iff v (n := 2) (by omega)
  have h3 := vleLength_le_iff v (n := 3) (by omega)
  have h4 := vleLength_le_iff v (n := 4) (by omega)
  split_ifs <;> omega

/-- The octets of an integer begin with its first group (40_vle.md R105). -/
theorem vleOctets_eq_cons (v : Dim) :
    vleOctets v = vleOctet v (firstGroup v) :: groupOctets v (vleLength v - 1) := by
  obtain ⟨hpos, -⟩ := vleLength_bounds v
  rw [firstGroup, ← groupOctets_succ, Nat.sub_add_cancel hpos, vleOctets_eq]

/-- The first group is all of the value above the other groups (40_vle.md R106). -/
theorem firstOctet_group (v : Dim) :
    (vleOctet v (firstGroup v)).toNat % 128 = v.toNat / 128 ^ (vleLength v - 1) := by
  obtain ⟨hpos, -⟩ := vleLength_bounds v
  have hlt : v.toNat < 128 ^ (vleLength v - 1) * 128 := by
    rw [← Nat.pow_succ, Nat.succ_eq_add_one, Nat.sub_add_cancel hpos]
    exact (vleLength_le_iff v hpos).mp (Nat.le_refl _)
  rw [vleOctet_group, firstGroup_toNat, Nat.mod_eq_of_lt (Nat.div_lt_of_lt_mul hlt)]

/-- The value reaches into the first group of more than one (40_vle.md R106). -/
theorem le_toNat_of_one_lt_vleLength {v : Dim} (h : 1 < vleLength v) : 128 ^ (vleLength v - 1) ≤ v.toNat := by
  have hshort := vleLength_le_iff v (n := vleLength v - 1) (by omega)
  omega

/-- The first group is 0 only for the value 0 (40_vle.md R106). -/
theorem firstOctet_group_eq_zero_iff (v : Dim) : (vleOctet v (firstGroup v)).toNat % 128 = 0 ↔ v = 0 := by
  rw [firstOctet_group]
  constructor
  · intro hz
    obtain ⟨hpos, -⟩ := vleLength_bounds v
    rcases Nat.lt_or_eq_of_le hpos with hlong | hone
    · have hdiv := Nat.div_pos (le_toNat_of_one_lt_vleLength hlong) (Nat.pow_pos (by omega))
      omega
    · rw [← hone, Nat.pow_zero, Nat.div_one] at hz
      exact BitVec.eq_of_toNat_eq hz
  · rintro rfl
    exact Nat.zero_div _

/-- Of five octets the first holds bits 31 to 28, not all of them 0 (40_vle.md R106). -/
theorem firstOctet_of_five {v : Dim} (h : vleLength v = 5) :
    (vleOctet v (firstGroup v)).toNat = 128 + v.toNat / 2 ^ 28 ∧ 2 ^ 28 ≤ v.toNat := by
  have hgroup := firstOctet_group v
  have hle := le_toNat_of_one_lt_vleLength (v := v) (by omega)
  have hne : firstGroup v ≠ 0 := fun e => by
    have := firstGroup_toNat v
    rw [e, h] at this
    cases this
  have hpow : 128 ^ (vleLength v - 1) = 2 ^ 28 := by norm_num [h]
  rw [hpow] at hgroup hle
  refine ⟨?_, hle⟩
  rw [toNat_eq_bit7_add_group, hgroup, vleOctet_bit7, bne_iff_ne.mpr hne, if_pos rfl]

/-- Settles O23, by the first octet and the length of the rest. -/
theorem vlencWritesTheShortestForm : Obligations.VlencWritesTheShortestForm := by
  intro v s ha hp
  obtain ⟨u, hu, -, hw⟩ := (exec_vlenc_writes ha v).plain hp
  obtain ⟨-, -, -, -, -, hsnk⟩ := hw
  obtain ⟨hpos, -⟩ := vleLength_bounds v
  refine ⟨u, _, _, hu, vleOctets_eq_cons v ▸ hsnk, ?_, firstOctet_group_eq_zero_iff v, fun hl => ?_⟩
  · rw [groupOctets_length, Nat.sub_add_cancel hpos, vleLength_eq]
  · rw [groupOctets_length] at hl
    obtain ⟨hfirst, hle⟩ := firstOctet_of_five (v := v) (by omega)
    have hlt := v.isLt
    exact ⟨hfirst, by omega, by omega⟩

/-! ## Reading an integer -/

/-- `VLDEC` on a plain source that holds an integer (40_vle.md R101, R103). -/
theorem exec_vldec_integer {s : State} {os tail : List Octet} (h : s.activity = .idle) (hp : s.srcAnswers = [])
    (hs : s.src.drop s.ipos = os ++ tail) (ho : isVleInteger os = true) :
    ∃ u, exec .vldec s = .next u ∧ SameRegisters s u ∧ ReadsOctets os.length s u ∧
      Ended (okRecord (vleValue os) 0) s u := by
  have hle : os.length ≤ s.srcLeft := by rw [srcLeft_of_drop hs, List.length_append]; omega
  have hrun := readLoop_value ho (s.srcLeft - os.length + 1)
    (s := { s with acc := 0, activity := .reading .value }) rfl rfl hp hs
  rw [Nat.add_comm _ os.length] at hrun
  obtain ⟨hreg, hread⟩ := readsOctets_moved os.length 0 (.reading .value) s.srcAnswers s
  exact ⟨_, (exec_vldec h).trans ((runReader_eq (by exact hle)).trans hrun), hreg, hread, rfl, rfl⟩

/-- Settles O24: the concatenated groups modulo `2 ^ 32` are the value of the integer. -/
theorem vldecReadsOneInteger : Obligations.VldecReadsOneInteger :=
  fun _ _ _ h hp hs ho => exec_vldec_integer h hp hs ho

/-- Settles O28: what `VLENC` writes is an integer, and its value is the operand. -/
theorem vleRoundTrip : Obligations.VleRoundTrip := by
  intro v s ha hp
  obtain ⟨u, hu, hend, hw⟩ := (exec_vlenc_writes ha v).plain hp
  obtain ⟨-, -, -, -, -, hsnk⟩ := hw
  refine ⟨u, vleOctets v, hu, hend, hsnk, fun s' tail ha' hp' hs' => ?_⟩
  obtain ⟨u', hu', -, hread, hend'⟩ := exec_vldec_integer ha' hp' hs' (isVleInteger_vleOctets v)
  obtain ⟨-, -, hpos, -⟩ := hread
  rw [vleValue_vleOctets] at hend'
  exact ⟨u', hu', hend', hpos⟩

/-! ## Leading zero groups -/

/-- A zero group leaves an empty accumulator empty (40_vle.md R102). -/
theorem vleAccumulate_zero_zero : vleAccumulate 0 0 = 0 := rfl

/-- Octets `0x80` in front of an integer make an integer (30_encoding.md R75). -/
theorem isVleInteger_replicate_append (n : Nat) {os : List Octet} (h : isVleInteger os = true) :
    isVleInteger (List.replicate n 0x80 ++ os) = true := by
  induction n with
  | zero => exact h
  | succ n ih => exact isVleInteger_cons rfl ih

/-- Octets `0x80` in front of an integer leave its value (40_vle.md R102). -/
theorem vleValue_replicate_append (n : Nat) (os : List Octet) :
    vleValue (List.replicate n 0x80 ++ os) = vleValue os := by
  induction n with
  | zero => rfl
  | succ n ih => exact ih

/-- Settles O25, by the accumulator for one octet and by the value for a whole integer. -/
theorem leadingZeroGroupsAreAccepted : Obligations.LeadingZeroGroupsAreAccepted := by
  refine ⟨fun s ⟨r, ha, hfound⟩ h0 => ?_, fun s n os tail ha hp hs ho => ?_, rfl⟩
  · have hi : r.atInteger = true := atInteger_of_field (by simpa [Instr.foundAt, or_assoc] using hfound)
    have hsame : vleAccumulate s.acc 0 = s.acc := by rw [h0, vleAccumulate_zero_zero]
    rw [exec_vleCont ha hi, hsame]
  · rw [← List.append_assoc] at hs
    have hread := exec_vldec_integer ha hp hs (isVleInteger_replicate_append n ho)
    rwa [List.length_append, List.length_replicate, vleValue_replicate_append] at hread

/-! ## An integer that stops short -/

/-- `VLDEC` on a plain source of octets that all continue, up to its end (40_vle.md R104). -/
theorem exec_vldec_unending {s : State} (h : s.activity = .idle) (hp : s.srcAnswers = [])
    (hc : ∀ o ∈ s.src.drop s.ipos, o.getLsbD 7 = true) :
    ∃ u, exec .vldec s = .next u ∧ SameRegisters s u ∧ ReadsOctets (s.src.drop s.ipos).length s u ∧
      Ended (Err.record (.ioError .eos)) s u := by
  obtain ⟨acc, hrun⟩ := readLoop_unending (r := .value) rfl _ hc 0
    (s := { s with acc := 0, activity := .reading .value }) rfl hp rfl
  obtain ⟨hreg, hread⟩ := readsOctets_moved (s.src.drop s.ipos).length acc (.reading .value) s.srcAnswers s
  refine ⟨_, (exec_vldec h).trans (Eq.trans ?_ hrun), hreg, hread, rfl, rfl⟩
  rw [runReader, srcLeft_of_drop rfl, Nat.zero_add, Nat.add_comm]

/-- Octets that all continue, one answer of the script each: `VLDEC` has consumed them and makes another read
(40_vle.md R101, 20_memory.md R43). -/
theorem exec_vldec_continues {s : State} {os tail : List Octet} {rest : List ReadAnswer} (h : s.activity = .idle)
    (hp : s.srcAnswers = List.replicate os.length .deliver ++ rest) (hs : s.src.drop s.ipos = os ++ tail)
    (hc : ∀ o ∈ os, o.getLsbD 7 = true) :
    ∃ n acc, exec .vldec s = readLoop (n + 1) { s with
      ipos := s.ipos + os.length, acc := acc, activity := .reading .value, srcAnswers := rest } := by
  have hle : os.length ≤ s.srcLeft := by rw [srcLeft_of_drop hs, List.length_append]; omega
  obtain ⟨acc, hrun⟩ := readLoop_conts_script (r := .value) rfl os tail rest hc (s.srcLeft - os.length + 1)
    (s := { s with acc := 0, activity := .reading .value }) rfl hp hs
  rw [Nat.add_comm _ os.length] at hrun
  exact ⟨_, acc, (exec_vldec h).trans ((runReader_eq (by exact hle)).trans hrun)⟩

/-- Settles O26: the end of a plain source, and a read that is not answered. -/
theorem unendingIntegerEndsInIoError : Obligations.UnendingIntegerEndsInIoError := by
  refine ⟨fun s ha hp _ hc => ?_, fun s os tail rest ha hp hs hc => ?_⟩
  · simpa only [List.length_drop] using exec_vldec_unending ha hp hc
  · obtain ⟨n, acc, hrun⟩ := exec_vldec_continues ha hp hs hc
    obtain ⟨hreg, hread⟩ := readsOctets_moved os.length acc (.reading .value) (.silent :: rest) s
    exact ⟨_, hrun.trans (readLoop_silent rfl (srcRead_silent.mpr ⟨rest, rfl⟩) n), ⟨rfl, rfl⟩, rfl, hreg, hread⟩

/-- The octets of an integer before any point within it continue (30_encoding.md R75). -/
theorem continues_take_of_isVleInteger {os : List Octet} (h : isVleInteger os = true) {k : Nat} (hk : k < os.length) :
    ∀ o ∈ os.take k, o.getLsbD 7 = true := by
  obtain ⟨cs, last, rfl, hc, -⟩ := isVleInteger_split h
  rw [List.length_append, List.length_singleton] at hk
  rw [List.take_append_of_le_length (by omega)]
  exact fun o ho => hc o (List.mem_of_mem_take ho)

/-- The cause of a read that the environment fails behind some octets of the source: its own while an octet is left,
`EOS` at the end (20_memory.md R43). -/
theorem srcRead_fail_behind {s : State} {os tail : List Octet} {c : IoCause} {rest : List ReadAnswer} {acc : Dim}
    {a : Activity} (hs : s.src.drop s.ipos = os ++ tail) :
    srcRead { s with ipos := s.ipos + os.length, acc := acc, activity := a, srcAnswers := .fail c :: rest } =
      .failed (if tail = [] then .eos else c)
        { s with ipos := s.ipos + os.length, acc := acc, activity := a, srcAnswers := rest } := by
  have hlen : s.srcLeft = os.length + tail.length := by rw [srcLeft_of_drop hs, List.length_append]
  rw [State.srcLeft] at hlen
  cases tail with
  | nil => simp [srcRead, show ¬ s.ipos + os.length < s.src.length by simp at hlen; omega]
  | cons x xs => simp [srcRead, show s.ipos + os.length < s.src.length by simp at hlen; omega]

/-- Settles O27: the octets before a failed write of `VLENC` all continue, and those before a failed read of `VLDEC` are
consumed. -/
theorem integerFailurePartWay : Obligations.IntegerFailurePartWay := by
  refine ⟨fun s v k c rest ha hp hk => ?_, fun s os tail c rest ha hp hs hc => ?_⟩
  · have hne : vleOctets v ≠ [] := fun e => by simp [e] at hk
    obtain ⟨-, hfail, -⟩ := earlierOctetsStayInTheSink (.vlenc v) s rest ha trivial hne
    obtain ⟨u, hu, hend, hans, hw⟩ := hfail k c hk hp
    exact ⟨u, hu, hend, hans, hw, continues_take_of_isVleInteger (isVleInteger_vleOctets v) hk⟩
  · obtain ⟨n, acc, hrun⟩ := exec_vldec_continues ha hp hs hc
    obtain ⟨hreg, hread⟩ := readsOctets_moved os.length acc (.reading .value) rest s
    exact ⟨_, hrun.trans (readLoop_failed rfl (srcRead_fail_behind hs) n), rfl, hreg, hread, rfl, rfl⟩

/-! ## Reading a header -/

/-- A header read on a plain source that holds a header (41_header.md R121). -/
theorem runReader_header {d : HeaderDest} {f : Octet} {ws hs tail : List Octet} {u : State}
    (ha : u.activity = .reading (.typeField d)) (hp : u.srcAnswers = [])
    (hsrc : u.src.drop u.ipos = 0x00 :: f :: (ws ++ (hs ++ tail))) (hf : f.getLsbD 7 = false)
    (hws : isVleInteger ws = true) (hhs : isVleInteger hs = true) :
    runReader u = .next (headerDone d (vleValue ws) (vleValue hs)
      { u with ipos := u.ipos + (2 + ws.length + hs.length) }) := by
  have hle : 2 + ws.length + hs.length ≤ u.srcLeft := by
    rw [srcLeft_of_drop hsrc]
    simp only [List.length_cons, List.length_append]
    omega
  rw [runReader_eq hle, Nat.add_comm]
  exact readLoop_header hf hws hhs _ ha hp hsrc

/-- Settles O29: the header goes to the result port. -/
theorem rdhdrReadsAHeader : Obligations.RdhdrReadsAHeader := by
  intro s f ws hs tail ha hp hsrc hf hws hhs
  obtain ⟨hreg, hread⟩ := readsOctets_moved (2 + ws.length + hs.length) s.acc (.reading (.typeField .deliver))
    s.srcAnswers s
  exact ⟨_, (exec_rdhdr ha).trans (runReader_header rfl hp hsrc hf hws hhs), ⟨rfl, rfl⟩, hreg, hread⟩

/-- Settles O18: the header is latched over the one that was dropped. -/
theorem decNewLatchesTheHeader : Obligations.DecNewLatchesTheHeader := by
  intro s f ws hs tail ha hp hsrc hf hws hhs
  obtain ⟨-, hread⟩ := readsOctets_moved (2 + ws.length + hs.length) s.acc (.reading (.typeField .latch))
    s.srcAnswers s
  exact ⟨_, (exec_decNew ha).trans (runReader_header rfl hp hsrc hf hws hhs), ⟨rfl, rfl⟩, rfl, rfl, rfl, rfl, rfl, rfl,
    hread⟩

end Sys2Proof.Machine

/-! Proofs of the statements about the header as `WRHDR` writes it and `RDHDR` reads it back (41_header.md R126, R127),
about `ENCODE.*` and the whole-image round trip (45_orchestration.md R207, R210), and about the component commands and
the persistent registers. Writing rests on `Writes`, reading back on what a header read and an unpack come to on a
source that holds the octets written. -/

namespace Sys2Proof.Machine

/-! ## The component commands and the registers -/

/-- A component command gives the same outcome whether the persistent registers are changed before it or after it. -/
theorem exec_component_mapRegisters {i : Instr} (hi : isComponent i = true) (f : RegisterMap) (s : State) :
    exec i (mapRegisters f s) = andThen (exec i s) (fun t => .next (mapRegisters f t)) := by
  cases i with
  | rdhdr =>
    unfold exec execRdhdr
    exact whenIdle_mapRegisters (runReader_mapRegisters (f := f) (s.setActivity (.reading (.typeField .deliver)))
      (.inr fun r hr => by cases hr; rfl))
  | wrhdr w h =>
    unfold exec execWrhdr
    exact whenIdle_mapRegisters (runWriter_mapRegisters (f := f) (s.setActivity (.writing (.typeField none w h))))
  | unpack w h =>
    unfold exec execUnpack
    exact whenIdle_mapRegisters (runUnpack_mapRegisters f w h s)
  | packL w h t => exact whenIdle_mapRegisters (runPack_mapRegisters .luma8 w h t s)
  | packC w h t => exact whenIdle_mapRegisters (runPack_mapRegisters .rgba8 w h t s)
  | vldec =>
    unfold exec execVldec
    exact whenIdle_mapRegisters (runReader_mapRegisters (f := f) { s with acc := 0, activity := .reading .value }
      (.inr fun r hr => by cases hr; trivial))
  | vlenc v =>
    unfold exec execVlenc
    exact whenIdle_mapRegisters (runWriter_mapRegisters (f := f)
      { s with grp := firstGroup v, activity := .writing (.value v) })
  | thrcmpL v t =>
    unfold exec execThrcmpL
    exact whenIdle_mapRegisters rfl
  | thrcmpC r g b a t =>
    unfold exec execThrcmpC
    exact whenIdle_mapRegisters rfl
  | _ => cases hi

/-- Settles O54: the change of the registers is their replacement. -/
theorem unitsDoNotSeeRegisters : Obligations.UnitsDoNotSeeRegisters :=
  fun _ r s hi => exec_component_mapRegisters hi (.all r) s

/-! ## Writing a header and reading it back -/

/-- Settles O31: a plain sink takes the header. -/
theorem wrhdrWritesAHeader : Obligations.WrhdrWritesAHeader :=
  fun w h _ ha hp => (exec_wrhdr_writes ha w h).plain hp

/-- The octets of a header, as a header read takes them apart (41_header.md R121, R126). -/
theorem headerOctets_append (w h : Dim) (tail : List Octet) :
    headerOctets w h ++ tail = 0x00 :: 0x00 :: (vleOctets w ++ (vleOctets h ++ tail)) := by
  simp [headerOctets]

/-- A header read on a plain source that holds what `WRHDR w, h` writes comes to `w` and `h` (41_header.md R127). -/
theorem runReader_headerOctets {d : HeaderDest} {w h : Dim} {tail : List Octet} {u : State}
    (ha : u.activity = .reading (.typeField d)) (hp : u.srcAnswers = [])
    (hs : u.src.drop u.ipos = headerOctets w h ++ tail) :
    runReader u = .next (headerDone d w h { u with ipos := u.ipos + (headerOctets w h).length }) := by
  rw [headerOctets_append] at hs
  rw [runReader_header ha hp hs rfl (isVleInteger_vleOctets w) (isVleInteger_vleOctets h), vleValue_vleOctets,
    vleValue_vleOctets, headerOctets_length, vleOctets_length, vleOctets_length]

/-- Settles O32: the header read comes to the operands. -/
theorem headerRoundTrip : Obligations.HeaderRoundTrip := by
  intro w h s ha hp
  obtain ⟨u, hu, hend, -, -, -, -, -, hsnk⟩ := (exec_wrhdr_writes ha w h).plain hp
  refine ⟨u, headerOctets w h, hu, hend, hsnk, fun s' tail ha' hp' hs' => ?_⟩
  exact ⟨_, (exec_rdhdr ha').trans (runReader_headerOctets rfl hp' hs'), ⟨rfl, rfl⟩, rfl⟩

/-! ## Encoding an image -/

/-- An encoding command is the encode of its kind (45_orchestration.md R207). -/
theorem exec_encodes {i : Instr} {k : ColorKind} {w h : Dim} {s : State} (hi : Encodes i k w h)
    (ha : s.activity = .idle) : exec i s = runEncode k w h s := by
  rcases hi with ⟨rfl, rfl⟩ | ⟨rfl, rfl⟩
  · exact exec_encodeL ha w h
  · exact exec_encodeC ha w h

/-- With samples of the right length `ENCODE.*` writes its header and all its pixel data (45_orchestration.md R207). -/
theorem exec_encodes_writes {i : Instr} {k : ColorKind} {w h : Dim} {s : State} (hi : Encodes i k w h)
    (ha : s.activity = .idle) (hl : s.smp.len = sampleLength k w h) :
    Writes s (headerOctets w h ++ packedOctets k s.smp s.thr w h, okRecord 0 0) (exec i s) := by
  rw [exec_encodes hi ha, ← encodePlan_of_fit hl]
  exact runEncode_writes k w h s

/-- Settles O43: a plain sink takes header and pixel data, and the bits of these are the comparator's. -/
theorem encodeWritesHeaderAndPixels : Obligations.EncodeWritesHeaderAndPixels := by
  intro i k w h s hi ha hp hl
  obtain ⟨u, hu, hend, hw⟩ := (exec_encodes_writes hi ha hl).plain hp
  refine ⟨u, _, hu, hend, hw, packedOctets_length k s.smp s.thr w h, fun r c hr hc => ?_⟩
  exact streamBit_packed (tail := []) (List.append_nil _).symm hr (Nat.div_lt_of_lt_mul hc)

/-- A writing operation that has ended with the result of its plan has written all of the plan, whatever the sink
answered (60_exceptions.md R230, R232). -/
theorem Writes.snk_of_ended {s u : State} {os : List Octet} (h : Writes s (os, okRecord 0 0) (.next u))
    (hend : Ended (okRecord 0 0) s u) : u.snk = s.snk ++ os := by
  obtain ⟨n, v, hrun, hle, hpend, -, hsnk, -⟩ := h
  obtain ⟨hidle, hres⟩ := hend
  obtain ⟨t, ht, -, hcases⟩ := pending_cases hle hpend
  obtain rfl : u = t := Host.Outcome.next.inj (hrun.trans ht)
  rcases hcases with ⟨hall, -⟩ | ⟨k, -, c, -, -, herr⟩ | ⟨k, -, rest, -, -, ⟨w, hw⟩, -⟩
  · rw [hall, hsnk]
  · rw [hres, List.append_right_inj] at herr
    cases herr
  · rw [hidle] at hw
    cases hw

/-! ## Unpacking a whole image -/

/-- An image without pixels has no bytes and no octets (42_unpack.md R148). -/
theorem emptyImage_counts {w h : Dim} (he : emptyImage w h = true) :
    w.toNat * h.toNat = 0 ∧ h.toNat * rowOctets w = 0 := by
  rcases (emptyImage_iff w h).mp he with rfl | rfl <;> simp [rowOctets]

/-- The start of an unpack of an image without pixels ends it with every byte as it was (42_unpack.md R148). -/
theorem startUnpack_empty {w h : Dim} (he : emptyImage w h = true) (s : State) :
    ∃ m, startUnpack w h s = succeed 0 0 { s with pix := m } ∧ SameBytes s.pix m := by
  obtain ⟨hbytes, -⟩ := emptyImage_counts he
  rcases startUnpack_cases w h s with ⟨hshort, -⟩ | ⟨-, m, hlen, -, hread, ⟨-, e⟩ | ⟨hne, -⟩⟩
  · rw [pixelCount] at hshort
    omega
  · exact ⟨m, e, hlen, fun j => by simpa [pixelCount, hbytes] using hread j⟩
  · rw [he] at hne
    cases hne

/-- What an unpack of a whole image leaves, from the bytes of `PIX` (42_unpack.md R145, R149). -/
theorem unpacked_whole {w h : Dim} {s u : State} {p : Memory} (hf : ReadFrame s u) (hreg : SameRegisters s u)
    (hpos : u.ipos = s.ipos + h.toNat * rowOctets w) (hlen : u.pix.len = s.pix.len)
    (hp : ∀ j, p.read j = if j < w.toNat * h.toNat then prefilled s j else s.pix.read j)
    (hq : ∀ j, u.pix.read j =
      if j < h.toNat * w.toNat ∧ streamBit s.src s.ipos w (j / w.toNat) (j % w.toNat) = true
      then Config.white else p.read j) :
    Unpacked w h h.toNat (h.toNat * rowOctets w) s u := by
  obtain ⟨hcfg, -, hcmds, hsrc, hsnk, hans, hsmp⟩ := hf
  obtain ⟨hfrom, hrows, hrest⟩ := unpacked_of_read (Nat.le_refl _) hp hq
  exact ⟨⟨hcfg, hcmds⟩, hreg, ⟨hsnk, hans⟩, hsmp ▸ SameBytes.refl _, hsrc, hpos, ⟨hlen, hfrom⟩, hrows, hrest⟩

/-- An unpack on a plain source with enough octets succeeds with all rows unpacked, under either setting of
`UNPACK_PREZERO` (42_unpack.md R141 to R149). -/
theorem exec_unpacks_whole {i : Instr} {w h : Dim} {s : State} (hi : Unpacks i w h s) (ha : s.activity = .idle)
    (hp : s.srcAnswers = []) (hwf : s.pix.wf = true) (hl : w.toNat * h.toNat ≤ s.pix.len)
    (hs : s.ipos + h.toNat * rowOctets w ≤ s.src.length) :
    ∃ u, exec i s = .next u ∧ Ended (okRecord 0 0) s u ∧ Unpacked w h h.toNat (h.toNat * rowOctets w) s u := by
  rw [exec_unpacks hi ha]
  by_cases he : emptyImage w h = true
  · obtain ⟨m, hstart, hlen, hread⟩ := startUnpack_empty he s
    obtain ⟨hbytes, hoctets⟩ := emptyImage_counts he
    rw [hstart]
    refine ⟨_, readLoop_succeed _ 0 0 _, ⟨rfl, rfl⟩, unpacked_whole (p := m) (ReadFrame.refl s)
      ⟨rfl, rfl, rfl, rfl, rfl, rfl⟩ (by rw [hoctets]; rfl) hlen (fun j => ?_) fun j => ?_⟩
    · simp [hbytes, hread j]
    · simp [Nat.mul_comm h.toNat, hbytes]
  · obtain ⟨hw, hh⟩ := emptyImage_false (by simpa using he)
    obtain ⟨p, hstart, hpwf, hplen, hpread⟩ := startUnpack_ready hw hh hwf hl
    obtain ⟨q, hrun, -, hqlen, hqread⟩ := readLoop_rows (w := w) (h := h) h.toNat
      (s.srcLeft - h.toNat * rowOctets w + 1)
      (s := { s with pix := p, row := 0, col := 0, rowbuf := [], activity := .reading (.pixelRow w h) })
      rfl hp rfl (by simp) hh hs hw hpwf (by rw [Nat.mul_comm]; exact hl.trans hplen.ge)
    rw [hstart, runReader_eq (n := h.toNat * rowOctets w) (by simp only [State.srcLeft]; omega), Nat.add_comm]
    refine ⟨_, hrun, ⟨rfl, rfl⟩, unpacked_whole (p := p) (ReadFrame.refl s) ⟨rfl, rfl, rfl, rfl, rfl, rfl⟩ rfl
      (hqlen.trans hplen) hpread fun j => ?_⟩
    simpa using hqread j

/-! ## Reading an encoded image back -/

/-- An unpack of packed black and white bytes, onto prefilled black, restores them (44_pack.md R185): a white byte is at
least the threshold, a black one below it. -/
theorem unpacked_packed {w h : Dim} {m : Memory} {t : Octet} {n : Nat} {s u : State} {tail : List Octet}
    (hu : Unpacked w h h.toNat n s u) (hs : s.src.drop s.ipos = packedOctets .luma8 m t w h ++ tail) (ht : 1 ≤ t.toNat)
    (hbw : ∀ j, j < w.toNat * h.toNat → m.read j = 0x00 ∨ m.read j = 0xFF)
    (hblack : ∀ j, j < w.toNat * h.toNat → prefilled s j = 0x00) {j : Nat} (hj : j < w.toNat * h.toNat) :
    u.pix.read j = m.read j := by
  obtain ⟨-, -, -, -, -, -, -, hrows, -⟩ := hu
  have hw : 0 < w.toNat := Nat.pos_of_ne_zero fun e => by simp [e] at hj
  have hr : j / w.toNat < h.toNat := Nat.div_lt_of_lt_mul hj
  have hc : j % w.toNat < w.toNat := Nat.mod_lt _ hw
  have hidx : j / w.toNat * w.toNat + j % w.toNat = j := Nat.div_add_mod' j w.toNat
  have hpixel := hrows _ _ hr hc
  have hbit : streamBit s.src s.ipos w (j / w.toNat) (j % w.toNat) = decide (t.toNat ≤ (m.read j).toNat) := by
    rw [streamBit_packed hs hr (by simp only [rowOctets]; omega), pixelBit, hidx, Bool.eq_iff_iff, decide_eq_true_iff,
      thrcmpLuma_iff, decide_eq_true_iff]
    exact and_iff_right hc
  rw [hidx, hbit, hblack j hj] at hpixel
  rw [hpixel]
  rcases hbw j hj with hb | hb <;> rw [hb]
  · exact if_neg (by simp; omega)
  · exact if_pos (by simp; omega)

/-- `s` with `w` and `h` latched and the header consumed: an idle block in Ready at the pixel data, its buffers and the
octets of its source as before (45_orchestration.md R196, R199). -/
structure HeaderConsumed (w h : Dim) (s a : State) : Prop where
  idle : a.activity = .idle
  ready : a.phase = .ready
  width : a.hdrW = w
  height : a.hdrH = h
  plain : a.srcAnswers = []
  src : a.src = s.src
  ipos : a.ipos = s.ipos + (headerOctets w h).length
  pix : a.pix = s.pix
  cfg : a.cfg = s.cfg

/-- `DEC_NEW` on a plain source that holds what `WRHDR w, h` writes (45_orchestration.md R196). -/
theorem exec_decNew_headerOctets {w h : Dim} {tail : List Octet} {s : State} (ha : s.activity = .idle)
    (hp : s.srcAnswers = []) (hs : s.src.drop s.ipos = headerOctets w h ++ tail) :
    ∃ a, exec .decNew s = .next a ∧ Ended (okRecord 0 0) s a ∧ HeaderConsumed w h s a :=
  ⟨_, (exec_decNew ha).trans (runReader_headerOctets rfl hp hs), ⟨rfl, rfl⟩, rfl, rfl, rfl, rfl, hp, rfl, rfl, rfl, rfl⟩

/-- `DIMS` delivers what is latched, and the decoder stays where it is (45_orchestration.md R199). -/
theorem HeaderConsumed.exec_dims {w h : Dim} {s a : State} (hc : HeaderConsumed w h s a) :
    ∃ b, exec .dims a = .next b ∧ Ended (okRecord w h) a b ∧ HeaderConsumed w h s b := by
  obtain ⟨ha, hready, rfl, rfl, hp, hsrc, hpos, hpix, hcfg⟩ := hc
  rw [Machine.exec_dims ha, if_pos hready]
  exact ⟨_, rfl, ⟨rfl, rfl⟩, rfl, hready, rfl, rfl, hp, hsrc, hpos, hpix, hcfg⟩

/-- What a byte is prefilled with is black: the block's zero fill, or the caller's (42_unpack.md R143). -/
theorem prefilled_black {s : State} {n : Nat}
    (h : s.cfg.unpackPrezero = .caller → ∀ j, j < n → s.pix.read j = 0x00) {j : Nat} (hj : j < n) :
    prefilled s j = 0x00 := by
  unfold prefilled
  split
  · rfl
  · rename_i hc
    exact h hc j hj

/-- Settles O45: the octets of the encode are header and pixel data; the header is latched and delivered, and the pixel
data restores the bytes. -/
theorem wholeImageRoundTrip : Obligations.WholeImageRoundTrip := by
  intro w h s u ha ht hl hbw hexec hend
  have hwrites := exec_encodes_writes (.inl ⟨rfl, rfl⟩) ha (hl.trans (Nat.mul_one _).symm)
  rw [hexec] at hwrites
  refine ⟨_, hwrites.snk_of_ended hend, fun s' ha' hp' hs' hwf hlen hcaller => ?_⟩
  obtain ⟨a, hdec, henda, hconsa⟩ := exec_decNew_headerOctets ha' hp' hs'
  obtain ⟨b, hdims, hendb, hcons⟩ := hconsa.exec_dims
  have hpixels : b.src.drop b.ipos = packedOctets .luma8 s.smp s.thr w h := by
    rw [hcons.src, hcons.ipos, ← List.drop_drop, hs', List.drop_left]
  have hleft := congrArg List.length hpixels
  have hlong := congrArg List.length hs'
  rw [List.length_drop, packedOctets_length] at hleft
  rw [List.length_drop, List.length_append, headerOctets_length] at hlong
  have hin : b.ipos ≤ b.src.length := by
    rw [hcons.src, hcons.ipos, headerOctets_length]
    omega
  obtain ⟨c, hrdimg, hendc, hunp⟩ := exec_unpacks_whole (.inr ⟨rfl, hcons.ready, hcons.width, hcons.height⟩) hcons.idle
    hcons.plain (hcons.pix ▸ hwf) (hcons.pix ▸ hlen) (by omega)
  obtain ⟨-, -, -, -, hsrc, hpos, -⟩ := id hunp
  refine ⟨a, b, c, hdec, henda, hdims, hendb, hrdimg, hendc, by rw [hpos, hsrc]; omega, fun j hj => ?_⟩
  exact unpacked_packed hunp (hpixels.trans (List.append_nil _).symm) ht hbw
    (fun j hj => prefilled_black (by rw [hcons.cfg, hcons.pix]; exact hcaller) hj) hj

end Sys2Proof.Machine

/-! Proofs of the statements about the bit-unpacker on a plain source (42_unpack.md R141 to R149) and its round trip
with the packer (44_pack.md R185). They rest on what an unpack of a whole image leaves (`exec_unpacks_whole`) and on
what it leaves of packed black and white bytes (`unpacked_packed`). -/

namespace Sys2Proof.Machine

/-! ## An image without pixels -/

/-- An unpack of an image without pixels succeeds at its start (42_unpack.md R148). -/
theorem exec_unpacks_empty {i : Instr} {w h : Dim} {s : State} (hi : Unpacks i w h s) (ha : s.activity = .idle)
    (he : emptyImage w h = true) : ∃ u, exec i s = .next u ∧ Ended (okRecord 0 0) s u ∧ Quiet s u := by
  obtain ⟨m, hstart, hbytes⟩ := startUnpack_empty he s
  rw [exec_unpacks hi ha, hstart]
  exact ⟨_, readLoop_succeed _ 0 0 _, ⟨rfl, rfl⟩, ⟨rfl, rfl⟩, ⟨rfl, rfl, rfl, rfl, rfl, rfl⟩, ⟨rfl, rfl, rfl⟩, ⟨rfl, rfl⟩,
    SameBytes.refl _, hbytes⟩

/-- Settles O36: the unpack ends at its start, before any read. -/
theorem unpackOfNoPixels : Obligations.UnpackOfNoPixels :=
  fun _ w h _ hi ha he => exec_unpacks_empty hi ha ((emptyImage_iff w h).mpr he)

/-! ## The bytes of a whole image -/

/-- Once all rows are unpacked, every byte of the image is white or what it was prefilled with; `fill` names the
prefilled bytes (42_unpack.md R143, R145, R149). -/
theorem Unpacked.pixels {w h : Dim} {r n : Nat} {s u : State} {fill : Nat → Octet} (hu : Unpacked w h r n s u)
    (hfill : ∀ j, prefilled s j = fill j) :
    SamePort s u ∧ SameRegisters s u ∧ SameSink s u ∧ SameBytes s.smp u.smp ∧ u.src = s.src ∧ u.ipos = s.ipos + n ∧
      SameBytesFrom (w.toNat * h.toNat) s.pix u.pix ∧
      ∀ r' c, r' < r → c < w.toNat →
        u.pix.read (r' * w.toNat + c) =
          if streamBit s.src s.ipos w r' c then 0xFF else fill (r' * w.toNat + c) := by
  obtain ⟨hport, hreg, hsink, hsmp, hsrc, hpos, hfrom, hrows, -⟩ := hu
  exact ⟨hport, hreg, hsink, hsmp, hsrc, hpos, hfrom, fun r' c hr hc => hfill _ ▸ hrows r' c hr hc⟩

/-- Settles O33: the block has prefilled every byte of the image with black. -/
theorem unpackWritesThePixels : Obligations.UnpackWritesThePixels := by
  intro i w h s hi ha hp hwf hl hs hblock
  obtain ⟨u, hexec, hend, hu⟩ := exec_unpacks_whole hi ha hp hwf hl hs
  have hfill : ∀ j, prefilled s j = 0x00 := fun j => (prefilled_eq s j).trans (if_pos hblock)
  exact ⟨u, hexec, hend, hu.pixels hfill⟩

/-- Settles O34: every byte of the image is prefilled as the caller handed it over. -/
theorem unpackLeavesTheCallersZeros : Obligations.UnpackLeavesTheCallersZeros := by
  intro i w h s hi ha hp hwf hl hs hcaller
  obtain ⟨u, hexec, hend, hu⟩ := exec_unpacks_whole hi ha hp hwf hl hs
  have hfill : ∀ j, prefilled s j = s.pix.read j := fun j => (prefilled_eq s j).trans (if_neg (by simp [hcaller]))
  exact ⟨u, hexec, hend, hu.pixels hfill⟩

/-! ## Reading a packed image back -/

/-- `PACK.L` with samples of the right length writes all its pixel data (44_pack.md R176, R177). -/
theorem exec_packL_writes {w h : Dim} {s : State} (ha : s.activity = .idle) (hl : s.smp.len = w.toNat * h.toNat)
    (t : Octet) : Writes s (packedOctets .luma8 s.smp t w h, okRecord 0 0) (exec (.packL w h t) s) := by
  rw [exec_packL ha, ← packPlan_of_fit (hl.trans (Nat.mul_one _).symm) t]
  exact runPack_writes .luma8 w h t s

/-- An unpack on a plain source that holds packed black and white bytes consumes them and restores the bytes. Without
pixels there is nothing to consume, wherever the source stands (44_pack.md R185, 42_unpack.md R148). -/
theorem exec_unpacks_packed {i : Instr} {w h : Dim} {m : Memory} {t : Octet} {s : State} {tail : List Octet}
    (hi : Unpacks i w h s) (ha : s.activity = .idle) (hp : s.srcAnswers = [])
    (hs : s.src.drop s.ipos = packedOctets .luma8 m t w h ++ tail) (hwf : s.pix.wf = true)
    (hl : w.toNat * h.toNat ≤ s.pix.len) (ht : 1 ≤ t.toNat)
    (hbw : ∀ j, j < w.toNat * h.toNat → m.read j = 0x00 ∨ m.read j = 0xFF)
    (hcaller : s.cfg.unpackPrezero = .caller → ∀ j, j < w.toNat * h.toNat → s.pix.read j = 0x00) :
    ∃ u, exec i s = .next u ∧ Ended (okRecord 0 0) s u ∧
      u.ipos = s.ipos + (packedOctets .luma8 m t w h).length ∧
      ∀ j, j < w.toNat * h.toNat → u.pix.read j = m.read j := by
  by_cases he : emptyImage w h = true
  · obtain ⟨u, hexec, hend, -, -, ⟨-, hpos, -⟩, -⟩ := exec_unpacks_empty hi ha he
    obtain ⟨hbytes, -⟩ := emptyImage_counts he
    refine ⟨u, hexec, hend, by rw [hpos, packedOctets_empty he]; rfl, fun j hj => ?_⟩
    rw [hbytes] at hj
    exact absurd hj (Nat.not_lt_zero j)
  · obtain ⟨hw, hh⟩ := emptyImage_false (Bool.eq_false_iff.mpr he)
    have hsome : 0 < h.toNat * rowOctets w := Nat.mul_pos hh (by simp only [rowOctets]; omega)
    have hleft := congrArg List.length hs
    rw [List.length_drop, List.length_append, packedOctets_length] at hleft
    obtain ⟨u, hexec, hend, hu⟩ := exec_unpacks_whole hi ha hp hwf hl (by omega)
    obtain ⟨-, -, -, -, -, hpos, -⟩ := id hu
    exact ⟨u, hexec, hend, by rw [hpos, packedOctets_length], fun j hj =>
      unpacked_packed hu hs ht hbw (fun j hj => prefilled_black hcaller hj) hj⟩

/-- Settles O42: a plain sink takes the pixel data, and an unpack of it restores the bytes. -/
theorem packUnpackRoundTrip : Obligations.PackUnpackRoundTrip := by
  intro w h t s ha hp hl hbw ht
  obtain ⟨u, hexec, hend, -, -, -, -, -, hsnk⟩ := (exec_packL_writes ha hl t).plain hp
  exact ⟨u, _, hexec, hend, hsnk, fun s' tail ha' hp' hs' hwf hlen hcaller =>
    exec_unpacks_packed (.inl rfl) ha' hp' hs' hwf hlen ht hbw hcaller⟩

end Sys2Proof.Machine

/-! Proofs of the statements about the threshold comparator (43_threshold.md R161 to R167) and about the packer on a
plain sink (44_pack.md R176 to R181, R184). A comparator's payload is a comparison of numbers (`bitPayload_thrcmpLuma`,
`bitPayload_thrcmpRgba`); a pack writes `packedOctets`, each octet of which is known by its bits
(`packedOctet_getLsbD`). -/

namespace Sys2Proof.Machine

/-! ## The comparator's commands -/

/-- `THRCMP.L` delivers whether the sample is at least the threshold, and does nothing else (43_threshold.md R162). -/
theorem exec_thrcmpL_delivers {s : State} (ha : s.activity = .idle) (v t : Octet) :
    ∃ u, exec (.thrcmpL v t) s = .next u ∧ Quiet s u ∧
      Ended (okRecord (if t.toNat ≤ v.toNat then 1 else 0) 0) s u := by
  rw [exec_thrcmpL ha, bitPayload_thrcmpLuma]
  exact ⟨_, rfl, quiet_finish _ s, ended_finish _ s⟩

/-- `THRCMP.C` delivers the same of the four bytes' average, and does nothing else (43_threshold.md R163). -/
theorem exec_thrcmpC_delivers {s : State} (ha : s.activity = .idle) (r g b a t : Octet) :
    ∃ u, exec (.thrcmpC r g b a t) s = .next u ∧ Quiet s u ∧
      Ended (okRecord (if t.toNat ≤ (r.toNat + g.toNat + b.toNat + a.toNat) / 4 then 1 else 0) 0) s u := by
  rw [exec_thrcmpC ha, bitPayload_thrcmpRgba]
  exact ⟨_, rfl, quiet_finish _ s, ended_finish _ s⟩

/-- Settles O20: the payload on either side of the threshold. -/
theorem lumaComparisonIsInclusive : Obligations.LumaComparisonIsInclusive := by
  intro v t s ha
  obtain ⟨u, hu, hquiet, hend⟩ := exec_thrcmpL_delivers ha v t
  refine ⟨u, hu, hquiet, fun hblack => ?_, fun hwhite => ?_⟩
  · rwa [if_neg (Nat.not_le.mpr hblack)] at hend
  · rwa [if_pos hwhite] at hend

/-- Settles O21: the payloads of the two comparators. -/
theorem rgbaComparisonUsesTheAverage : Obligations.RgbaComparisonUsesTheAverage :=
  ⟨fun v t _ ha => exec_thrcmpL_delivers ha v t, fun r g b a t _ ha => exec_thrcmpC_delivers ha r g b a t⟩

/-! ## A pack on a plain sink -/

/-- A packing command is the pack of its kind (44_pack.md R176). -/
theorem exec_packs {i : Instr} {k : ColorKind} {w h : Dim} {t : Octet} {s : State} (hi : Packs i k w h t)
    (ha : s.activity = .idle) : exec i s = runPack k w h t s := by
  rcases hi with ⟨rfl, rfl⟩ | ⟨rfl, rfl⟩
  · exact exec_packL ha w h t
  · exact exec_packC ha w h t

/-- With samples of the right length `PACK.*` writes all its pixel data to a plain sink (44_pack.md R176, R177). -/
theorem exec_packs_plain {i : Instr} {k : ColorKind} {w h : Dim} {t : Octet} {s : State} (hi : Packs i k w h t)
    (ha : s.activity = .idle) (hp : s.snkAnswers = []) (hl : s.smp.len = sampleLength k w h) :
    ∃ u, exec i s = .next u ∧ Ended (okRecord 0 0) s u ∧ WritesOctets (packedOctets k s.smp t w h) s u := by
  have hw : Writes s (packedOctets k s.smp t w h, okRecord 0 0) (exec i s) := by
    rw [exec_packs hi ha, ← packPlan_of_fit hl t]
    exact runPack_writes k w h t s
  exact hw.plain hp

/-- Settles O38: a plain sink takes the pixel data, and the bits of it are the comparator's. -/
theorem packWritesThePixelBits : Obligations.PackWritesThePixelBits := by
  intro i k w h t s hi ha hp hl
  obtain ⟨u, hu, hend, hw⟩ := exec_packs_plain hi ha hp hl
  refine ⟨u, _, hu, hend, hw, packedOctets_length k s.smp t w h, fun r c hr hc => ?_⟩
  exact streamBit_packed (tail := []) (List.append_nil _).symm hr (Nat.div_lt_of_lt_mul hc)

/-! ## The extreme thresholds -/

/-- At the threshold `0x00` every pixel is white (44_pack.md R184). -/
theorem pixelBit_zeroThreshold (k : ColorKind) (m : Memory) (w r c : Nat) : pixelBit k m 0x00 w r c = true := by
  cases k with
  | luma8 => exact (thrcmpLuma_iff _ _).mpr (Nat.zero_le _)
  | rgba8 => exact (thrcmpRgba_iff _ _ _ _ _).mpr (Nat.zero_le _)

/-- At the threshold `0x00` an octet that holds `n` pixels has its top `n` bits set (44_pack.md R180, R184). -/
theorem packedOctet_zeroThreshold {k : ColorKind} {m : Memory} {w r j n : Nat} (hn : n = min 8 (w - 8 * j)) :
    packedOctet k m 0x00 w r j = 0xFF#8 <<< (8 - n) := by
  refine BitVec.eq_of_getLsbD_eq fun b hb => ?_
  have hwhite : (packedOctet k m 0x00 w r j).getLsbD b = decide (8 * j + (7 - b) < w) := by
    have hbit := packedOctet_getLsbD k m 0x00 w r j (7 - b) (by omega)
    simpa only [pixelBit_zeroThreshold, and_true, show 7 - (7 - b) = b by omega] using hbit
  rw [hwhite, BitVec.getLsbD_shiftLeft, show (0xFF#8) = BitVec.allOnes 8 from rfl, BitVec.getLsbD_allOnes,
    Bool.eq_iff_iff]
  simp only [Bool.and_eq_true, Bool.not_eq_true', decide_eq_true_eq, decide_eq_false_iff_not]
  omega

/-- The greatest octet is the only one that reaches the threshold `0xFF` (43_threshold.md R162). -/
theorem maxOctet_le_iff (v : Octet) : (0xFF : Octet).toNat ≤ v.toNat ↔ v = 0xFF := by
  have hlt := v.isLt
  have hmax : (0xFF : Octet).toNat = 255 := rfl
  rw [← BitVec.toNat_inj]
  omega

/-- Four octets average `0xFF` only if each is `0xFF` (43_threshold.md R163). -/
theorem maxOctet_le_average_iff (r g b a : Octet) :
    (0xFF : Octet).toNat ≤ (r.toNat + g.toNat + b.toNat + a.toNat) / 4 ↔
      r = 0xFF ∧ g = 0xFF ∧ b = 0xFF ∧ a = 0xFF := by
  have hr := r.isLt
  have hg := g.isLt
  have hb := b.isLt
  have ha := a.isLt
  have hmax : (0xFF : Octet).toNat = 255 := rfl
  simp only [← maxOctet_le_iff]
  omega

/-- At the threshold `0xFF` a pixel is white exactly if all its sample bytes are `0xFF` (44_pack.md R184). -/
theorem pixelBit_maxThreshold_iff (k : ColorKind) (m : Memory) (w r c : Nat) :
    pixelBit k m 0xFF w r c = true ↔
      ∀ b, b < bytesPerPixel k → m.read (bytesPerPixel k * (r * w + c) + b) = 0xFF := by
  cases k with
  | luma8 =>
    rw [pixelBit, thrcmpLuma_iff, maxOctet_le_iff]
    simp [bytesPerPixel]
  | rgba8 =>
    rw [pixelBit, thrcmpRgba_iff, maxOctet_le_average_iff]
    constructor
    · rintro ⟨hred, hgreen, hblue, halpha⟩ b hb
      rw [bytesPerPixel] at hb
      interval_cases b
      exacts [hred, hgreen, hblue, halpha]
    · exact fun hall => ⟨hall 0 (by decide), hall 1 (by decide), hall 2 (by decide), hall 3 (by decide)⟩

/-- Octet `j` of row `r` stands in the pixel data behind the rows before it (44_pack.md R181). -/
theorem packedOctets_getElem? {k : ColorKind} {m : Memory} {t : Octet} {w h : Dim} {r j : Nat} (hr : r < h.toNat)
    (hj : j < rowOctets w) :
    (packedOctets k m t w h)[r * rowOctets w + j]? = some (packedOctet k m t w.toNat r j) := by
  have hlt : r * rowOctets w + j < (packedOctets k m t w h).length := by
    rw [packedOctets_length]
    calc r * rowOctets w + j < (r + 1) * rowOctets w := by rw [Nat.succ_mul]; omega
      _ ≤ h.toNat * rowOctets w := Nat.mul_le_mul_right _ hr
  rw [List.getElem?_eq_getElem hlt, ← packedOctets_getD hr hj, List.getD_eq_getElem _ _ hlt]

/-- Settles O41: at `0x00` by the number of pixels in an octet, at `0xFF` by the bit of the pixel. -/
theorem packAtTheExtremeThresholds : Obligations.PackAtTheExtremeThresholds := by
  refine ⟨fun i k w h s hi ha hp hl => ?_, fun i k w h s hi ha hp hl => ?_⟩
  · obtain ⟨u, hu, -, hw⟩ := exec_packs_plain hi ha hp hl
    refine ⟨u, _, hu, hw, packedOctets_length k s.smp _ w h, fun r hr => ⟨fun j hj => ?_, fun hrest => ?_⟩⟩
    · rw [← rowOctets, packedOctets_getElem? hr (by simp only [rowOctets]; omega),
        packedOctet_zeroThreshold (n := 8) (by omega)]
      rfl
    · rw [← rowOctets, packedOctets_getElem? hr (by simp only [rowOctets]; omega),
        packedOctet_zeroThreshold (n := w.toNat % 8) (by omega)]
  · obtain ⟨u, hu, -, hw⟩ := exec_packs_plain hi ha hp hl
    refine ⟨u, _, hu, hw, packedOctets_length k s.smp _ w h, fun r c hr hc => ?_⟩
    rw [streamBit_packed (tail := []) (List.append_nil _).symm hr (by simp only [rowOctets]; omega), decide_eq_true_iff,
      and_iff_right hc, pixelBit_maxThreshold_iff]

end Sys2Proof.Machine

/-! Proof of the statement about packing an image without pixels (44_pack.md R183). Such a pack has no octet to write
whether or not its length check passes (`packPlan_empty`), and a writing operation without octets ends at its start
(`Writes.nothing`). -/

namespace Sys2Proof.Machine

/-- A writing operation that has no octet to write never reaches the sink: it ends at its start, whatever the sink would
answer. -/
theorem Writes.nothing {s : State} {r : Result} {o : Host.Outcome State Fault Refusal} (h : Writes s ([], r) o) :
    ∃ u, o = .next u ∧ Quiet s u ∧ Ended r s u := by
  obtain ⟨n, u, rfl, -, hp, ⟨hcfg, hreg, hcmds, hsrc, hsmp, hpix⟩, hsink⟩ := h
  obtain ⟨hidle, hres⟩ : Ended r s u := hp.ended rfl
  exact ⟨u, writeLoop_not_writing (by simp [hidle]) n,
    ⟨⟨hcfg, hcmds⟩, hreg, hsrc, hsink, hsmp ▸ SameBytes.refl _, hpix ▸ SameBytes.refl _⟩, hidle, hres⟩

/-- The only length that fits an image without pixels is 0 (44_pack.md R177). -/
theorem smpWrongLength_empty {w h : Dim} (he : emptyImage w h = true) (n : Nat) (k : ColorKind) :
    smpWrongLength n k w h = true ↔ n ≠ 0 := by
  obtain ⟨hbytes, -⟩ := emptyImage_counts he
  rw [smpWrongLength_iff, hbytes, Nat.zero_mul]

/-- A pack of an image without pixels has no octet to write, and succeeds exactly with an empty sample buffer
(44_pack.md R177, R183). -/
theorem packPlan_empty {w h : Dim} (he : emptyImage w h = true) (k : ColorKind) (m : Memory) (t : Octet) :
    packPlan k m t w h = ([], if m.len = 0 then okRecord 0 0 else Err.record .invalidImageData) := by
  unfold packPlan
  by_cases hl : m.len = 0
  · rw [if_neg (mt (smpWrongLength_empty he _ k).mp (not_not_intro hl)), if_pos hl, packedOctets_empty he]
  · rw [if_pos ((smpWrongLength_empty he _ k).mpr hl), if_neg hl]

/-- Settles O40: the pack's plan holds no octet, and its result follows the length of the sample buffer. -/
theorem packOfNoPixels : Obligations.PackOfNoPixels := by
  intro i k w h t s hi ha hempty
  have hwrites : Writes s (packPlan k s.smp t w h) (exec i s) := exec_packs hi ha ▸ runPack_writes k w h t s
  rw [packPlan_empty ((emptyImage_iff w h).mpr hempty)] at hwrites
  obtain ⟨u, hexec, hquiet, hend⟩ := hwrites.nothing
  refine ⟨u, hexec, hquiet, fun hzero => ?_, fun hsome => ?_⟩
  · rwa [if_pos hzero] at hend
  · rwa [if_neg hsome] at hend

end Sys2Proof.Machine

/-! Proofs of the statements about the commands of the two halves that access no stream (45_orchestration.md R199, R200,
R203, R205). The two commands that write `THR` share their frame (`succeed_setThr_frame`). -/

namespace Sys2Proof.Machine

/-- `THR` written, and ended with success: the end of an operation is quiet (`quiet_finish`), and the write before it
touches no field of that frame but `THR` (45_orchestration.md R203, R205). -/
theorem succeed_setThr_frame (t : Octet) (s : State) :
    Ended (okRecord 0 0) s (succeed 0 0 (s.setThr t)) ∧ (succeed 0 0 (s.setThr t)).thr = t ∧
      SameDecoder s (succeed 0 0 (s.setThr t)) ∧ SamePort s (succeed 0 0 (s.setThr t)) ∧
      SameSource s (succeed 0 0 (s.setThr t)) ∧ SameSink s (succeed 0 0 (s.setThr t)) ∧
      SameBytes s.smp (succeed 0 0 (s.setThr t)).smp ∧ SameBytes s.pix (succeed 0 0 (s.setThr t)).pix := by
  obtain ⟨hport, ⟨hthr, hdecoder⟩, hsource, hsink, hsmp, hpix⟩ := quiet_finish (okRecord 0 0) (s.setThr t)
  exact ⟨ended_finish _ (s.setThr t), hthr, hdecoder, hport, hsource, hsink, hsmp, hpix⟩

/-- Settles O14: the threshold written is the operand. -/
theorem setThresholdWritesThr : Obligations.SetThresholdWritesThr :=
  fun t s ha => ⟨_, exec_setthr ha t, succeed_setThr_frame t s⟩

/-- Settles O15: the threshold written is the reset value of `THR`. -/
theorem newEncoderRestoresDefaultThreshold : Obligations.NewEncoderRestoresDefaultThreshold :=
  fun s ha => ⟨_, exec_encNew ha, succeed_setThr_frame Config.thrReset s⟩

/-- Settles O16: in Ready `DIMS` is the end of an operation, with the latched header as payload. -/
theorem dimsDeliversTheLatchedHeader : Obligations.DimsDeliversTheLatchedHeader := by
  intro s ha hready
  rw [exec_dims ha, if_pos hready]
  exact ⟨_, rfl, ended_finish _ s, quiet_finish _ s⟩

/-- Settles O17, by `exec_refused_of_not_ready` for each of the two commands. -/
theorem noDecoderNoMeaning : Obligations.NoDecoderNoMeaning :=
  fun _ ha hp => ⟨exec_refused_of_not_ready (.inl rfl) ha hp, exec_refused_of_not_ready (.inr rfl) ha hp⟩

end Sys2Proof.Machine

/-! Proofs of the statements about the results of the commands (60_exceptions.md R224 to R226, R229, R231): every
command ends only with the results of its row, and a buffer of the wrong length ends a command before it reads or writes
pixel data. A writing command is its plan (`Writes`); a reading command is followed octet by octet (`ReadProgress`),
beside what the read of a payload has consumed (`progress_header`, `progress_integer`). -/

namespace Sys2Proof.Machine

/-! ## The results of a command's row -/

/-- What `i` has delivered between `s` and `t`: nothing, one success with the payload of R231, or one error of those
that R226 lists for it (60_exceptions.md). -/
def DeliversItsRow (i : Instr) (s t : State) : Prop :=
  t.results = s.results ∨ (∃ a b, mayDeliver i s t a b ∧ t.results = s.results ++ [okRecord a b]) ∨
    ∃ e, mayRaise i e ∧ t.results = s.results ++ [e.record]

/-- An operation that ends at once with the payload of its row. -/
theorem deliversItsRow_succeed {i : Instr} {s u : State} {a b : Dim} (hu : u.results = s.results)
    (h : mayDeliver i s (succeed a b u) a b) : DeliversItsRow i s (succeed a b u) :=
  .inr (.inl ⟨a, b, h, by rw [succeed, finish_results, hu]⟩)

/-! ## Reading commands -/

/-- The command whose header read has this destination (41_header.md R129, 45_orchestration.md R196). -/
def HeaderDest.command : HeaderDest → Instr
  | .latch => .decNew
  | .deliver => .rdhdr

/-- The reader belongs to an operation that `i` has begun (40_vle.md R101, 41_header.md R121, 42_unpack.md R141). -/
def Reader.Serves (r : Reader) (i : Instr) : Prop :=
  match r with
  | .typeField d | .fixHeader d | .width d | .height d _ => i = d.command
  | .value => i = .vldec
  | .pixelRow _ _ => i = .rdimg ∨ ∃ w h, i = .unpack w h

/-- Every command that reads can meet a failed read (60_exceptions.md R221, R226). -/
theorem Reader.Serves.mayRaise_ioError {r : Reader} {i : Instr} (h : r.Serves i) (c : IoCause) :
    mayRaise i (.ioError c) := by
  cases r with
  | typeField d | fixHeader d | width d | height d w => subst h; cases d <;> simp [mayRaise, HeaderDest.command]
  | value => subst h; simp [mayRaise]
  | pixelRow w v => rcases h with rfl | ⟨w, v, rfl⟩ <;> simp [mayRaise]

/-- The two commands that read a header can meet each of its format errors (60_exceptions.md R222, R223, R226). -/
theorem mayRaise_formatError (d : HeaderDest) :
    (∀ t, t ≠ 0x00 → mayRaise d.command (.unsupportedType t)) ∧ mayRaise d.command .unsupportedHeaders := by
  cases d <;> simp +contextual [mayRaise, HeaderDest.command]

/-- A result a reading command can end with: an error of its row, or a success, with payload 0 unless the command
delivers what it reads (60_exceptions.md R226, R231). -/
def ReadResult (i : Instr) (x : Result) : Prop :=
  (∃ e, mayRaise i e ∧ x = e.record) ∨
    ∃ a b, (i = .rdhdr ∨ i = .vldec ∨ a = 0 ∧ b = 0) ∧ x = okRecord a b

/-- The reading command `i` begun on `s` is in progress, without a result, or has ended with a result of its own. -/
def ReadProgress (i : Instr) (s u : State) : Prop :=
  (u.results = s.results ∧ ∃ r, u.activity = .reading r ∧ r.Serves i) ∨ ∃ x, ReadResult i x ∧ Ended x s u

/-- The progress since `s` is that since any state in which as much had been delivered. -/
theorem ReadProgress.of_results {i : Instr} {s u t : State} (h : ReadProgress i u t) (e : u.results = s.results) :
    ReadProgress i s t := by
  simpa only [ReadProgress, Ended, e] using h

/-- A read in progress belongs to the command and has delivered nothing. -/
theorem ReadProgress.of_reading {i : Instr} {s u : State} {r : Reader} (h : ReadProgress i s u)
    (ha : u.activity = .reading r) : u.results = s.results ∧ r.Serves i := by
  rcases h with ⟨hres, r', ha', hr⟩ | ⟨_, -, hidle, -⟩
  · rw [ha'] at ha; cases ha
    exact ⟨hres, hr⟩
  · rw [hidle] at ha; cases ha

/-- An error of the command's row ends it. -/
theorem readProgress_raise {i : Instr} {e : Err} (he : mayRaise i e) (u : State) : ReadProgress i u (raise e u) :=
  .inr ⟨_, .inl ⟨e, he, rfl⟩, ended_finish _ u⟩

/-- A success of payload 0 ends any reading command. -/
theorem readProgress_succeed_zero (i : Instr) {u v : State} (hv : v.results = u.results) :
    ReadProgress i u (succeed 0 0 v) :=
  .inr ⟨_, .inr ⟨0, 0, .inr (.inr ⟨rfl, rfl⟩), rfl⟩, rfl, by rw [succeed, finish_results, hv]⟩

/-- The end of a header read delivers the header only for `RDHDR` (41_header.md R129). -/
theorem readProgress_headerDone (d : HeaderDest) (w h : Dim) (u : State) :
    ReadProgress d.command u (headerDone d w h u) := by
  cases d with
  | latch => exact readProgress_succeed_zero _ rfl
  | deliver => exact .inr ⟨_, .inr ⟨w, h, .inl rfl, rfl⟩, ended_finish _ u⟩

/-- An octet leaves the reading command in progress, or ends it with a result it can end with (41_header.md R121 to
R123, 40_vle.md R101, 42_unpack.md R144). -/
theorem receive_readProgress {i : Instr} {r : Reader} {o : Octet} {u t : State} (ha : u.activity = .reading r)
    (hr : r.Serves i) (ht : receive (decodeOctet r.field o) u = .next t) : ReadProgress i u t := by
  cases r with
  | typeField d =>
    subst hr
    cases (receive_typeField ha o).symm.trans ht
    split
    · exact .inl ⟨rfl, _, rfl, rfl⟩
    · rename_i ho
      exact readProgress_raise ((mayRaise_formatError d).1 o ho) u
  | fixHeader d =>
    subst hr
    cases (receive_fixHeader ha o).symm.trans ht
    split
    · exact readProgress_raise (mayRaise_formatError d).2 u
    · exact .inl ⟨rfl, _, rfl, rfl⟩
  | width d =>
    cases (receive_width ha o).symm.trans ht
    split
    · exact .inl ⟨rfl, _, ha, hr⟩
    · exact .inl ⟨rfl, _, rfl, hr⟩
  | height d w =>
    subst hr
    cases (receive_height ha o).symm.trans ht
    split
    · exact .inl ⟨rfl, _, ha, rfl⟩
    · exact readProgress_headerDone d w _ u
  | value =>
    subst hr
    cases (receive_value ha o).symm.trans ht
    split
    · exact .inl ⟨rfl, _, ha, rfl⟩
    · exact .inr ⟨_, .inr ⟨_, 0, .inr (.inl rfl), rfl⟩, ended_finish _ u⟩
  | pixelRow w h =>
    by_cases hpart : u.rowbuf.length + 1 < rowOctets w
    · cases (receive_pixel_part ha o hpart).symm.trans ht
      exact .inl ⟨rfl, _, ha, hr⟩
    · obtain ⟨v, hv, ht⟩ := andThen_eq_next ((receive_pixel_last ha o (Nat.not_lt.mp hpart)).symm.trans ht)
      obtain ⟨m, c, rfl⟩ := inspectBits_frame hv
      cases ht
      unfold rowDone
      split
      · exact readProgress_succeed_zero i rfl
      · exact .inl ⟨rfl, _, ha, hr⟩

/-- The read loop keeps the progress of the command, whatever the source answers. -/
theorem readLoop_readProgress {i : Instr} {n : Nat} {s u t : State} (h : ReadProgress i s u)
    (ht : readLoop n u = .next t) : ReadProgress i s t := by
  refine readLoop_induct (P := ReadProgress i s) ?_ ?_ h ht
  · intro v r c v' hv ha hd
    obtain ⟨-, rest, rfl⟩ := srcRead_failed hd
    obtain ⟨hres, hr⟩ := hv.of_reading ha
    exact (readProgress_raise (hr.mayRaise_ioError c) { v with srcAnswers := rest }).of_results hres
  · intro v r o v' w hv ha hd hw
    obtain ⟨-, rest, rfl⟩ := srcRead_delivered hd
    obtain ⟨hres, hr⟩ := hv.of_reading ha
    exact (receive_readProgress (by exact ha) hr hw).of_results hres

/-- A reading command that begins at a field of its own. -/
theorem runReader_readProgress {i : Instr} {r : Reader} {s u t : State} (ht : runReader u = .next t)
    (hres : u.results = s.results) (ha : u.activity = .reading r) (hr : r.Serves i) : ReadProgress i s t :=
  readLoop_readProgress (.inl ⟨hres, r, ha, hr⟩) ht

/-- A reading command delivers what its row says, once the payload of its success is known. -/
theorem ReadProgress.deliversItsRow {i : Instr} {s t : State} (h : ReadProgress i s t)
    (hok : ∀ a b, (i = .rdhdr ∨ i = .vldec ∨ a = 0 ∧ b = 0) → t.results = s.results ++ [okRecord a b] →
      mayDeliver i s t a b) : DeliversItsRow i s t := by
  rcases h with ⟨hres, -⟩ | ⟨x, ⟨e, he, rfl⟩ | ⟨a, b, hab, rfl⟩, -, hres⟩
  · exact .inl hres
  · exact .inr (.inr ⟨e, he, hres⟩)
  · exact .inr (.inl ⟨a, b, hok a b hab hres, hres⟩)

/-- `RDHDR` delivers the header it has consumed (41_header.md R121, R129). -/
theorem exec_rdhdr_deliversItsRow {s t : State} (ha : s.activity = .idle) (ht : exec .rdhdr s = .next t) :
    DeliversItsRow .rdhdr s t := by
  rw [exec_rdhdr ha] at ht
  have hread : ReadProgress .rdhdr s t := runReader_readProgress ht rfl rfl rfl
  refine hread.deliversItsRow fun a b _ hres => ?_
  have hbegin : Progress s headerSoFar headerResult (s.setActivity (.reading (.typeField .deliver))) :=
    progress_begin rfl rfl rfl rfl ⟨rfl, rfl⟩
  rcases progress_consumed (progress_header hbegin ht) hres with ⟨e, he⟩ | ⟨f, ws, hs, hos, hf, hws, hhs, hok⟩
  · exact absurd he.symm (record_ne_okRecord e a b)
  · cases hok
    exact ⟨f, ws, hs, hos, hf, hws, hhs, rfl, rfl⟩

/-- `VLDEC` delivers the value of the integer it has consumed (40_vle.md R101). -/
theorem exec_vldec_deliversItsRow {s t : State} (ha : s.activity = .idle) (ht : exec .vldec s = .next t) :
    DeliversItsRow .vldec s t := by
  rw [exec_vldec ha] at ht
  have hread : ReadProgress .vldec s t := runReader_readProgress ht rfl rfl rfl
  refine hread.deliversItsRow fun a b _ hres => ?_
  have hbegin : Progress s integerSoFar integerResult { s with acc := 0, activity := .reading .value } :=
    progress_begin rfl rfl rfl rfl ⟨nofun, rfl⟩
  rcases progress_consumed (progress_integer hbegin ht) hres with ⟨e, he⟩ | ⟨hint, hok⟩
  · exact absurd he.symm (record_ne_okRecord e a b)
  · cases hok
    exact ⟨hint, rfl, rfl⟩

/-- `DEC_NEW` delivers no payload (45_orchestration.md R196). -/
theorem exec_decNew_deliversItsRow {s t : State} (ha : s.activity = .idle) (ht : exec .decNew s = .next t) :
    DeliversItsRow .decNew s t := by
  rw [exec_decNew ha] at ht
  have hread : ReadProgress .decNew s t := runReader_readProgress ht rfl rfl rfl
  exact hread.deliversItsRow fun a b hab _ => by simpa [mayDeliver] using hab

/-- The start of an unpack is the start of a reading command, or its end (42_unpack.md R141, R142, R148). -/
theorem startUnpack_readProgress {i : Instr} (hi : i = .rdimg ∨ ∃ w h, i = .unpack w h) (w h : Dim) (s : State) :
    ReadProgress i s (startUnpack w h s) := by
  rcases startUnpack_cases w h s with ⟨-, e⟩ | ⟨-, m, -, -, -, ⟨-, e⟩ | ⟨-, e⟩⟩ <;> rw [e]
  · exact readProgress_raise (e := .usageError) hi s
  · exact readProgress_succeed_zero i rfl
  · exact .inl ⟨rfl, _, rfl, hi⟩

/-- `UNPACK` and `RDIMG` deliver no payload (42_unpack.md R141, 45_orchestration.md R201). -/
theorem exec_unpacks_deliversItsRow {i : Instr} {w h : Dim} {s t : State} (hu : Unpacks i w h s)
    (ha : s.activity = .idle) (ht : exec i s = .next t) : DeliversItsRow i s t := by
  have hi : i = .rdimg ∨ ∃ w h, i = .unpack w h := hu.elim (fun e => .inr ⟨w, h, e⟩) fun e => .inl e.1
  rw [exec_unpacks hu ha] at ht
  refine (readLoop_readProgress (startUnpack_readProgress hi w h s) ht).deliversItsRow fun a b hab _ => ?_
  rcases hi with rfl | ⟨w, h, rfl⟩ <;> simpa [mayDeliver] using hab

/-! ## Writing commands -/

/-- A writing command delivers the result of its plan, or fails a write (60_exceptions.md R221). -/
theorem Writes.deliversItsRow {i : Instr} {s t : State} {p : List Octet × Result} (h : Writes s p (.next t))
    (hio : ∀ c, mayRaise i (.ioError c))
    (hp : (p.2 = okRecord 0 0 ∧ mayDeliver i s t 0 0) ∨ ∃ e, mayRaise i e ∧ p.2 = e.record) :
    DeliversItsRow i s t := by
  obtain ⟨n, u, hrun, hle, hpend, -⟩ := h
  obtain ⟨v, hv, -, ⟨-, -, hres⟩ | ⟨-, -, c, -, -, hres⟩ | ⟨-, -, -, -, -, -, hres⟩⟩ := pending_cases hle hpend
  all_goals obtain rfl : t = v := Host.Outcome.next.inj (hrun.trans hv)
  · rcases hp with ⟨hok, hpay⟩ | ⟨e, he, herr⟩
    · exact .inr (.inl ⟨0, 0, hpay, hok ▸ hres⟩)
    · exact .inr (.inr ⟨e, he, herr ▸ hres⟩)
  · exact .inr (.inr ⟨_, hio c, hres⟩)
  · exact .inl hres

/-- A pack's plan ends with success or with `InvalidImageData` (44_pack.md R177). -/
theorem packPlan_result (k : ColorKind) (m : Memory) (t : Octet) (w h : Dim) :
    (packPlan k m t w h).2 = okRecord 0 0 ∨ (packPlan k m t w h).2 = Err.record .invalidImageData := by
  unfold packPlan
  split
  · exact .inr rfl
  · exact .inl rfl

/-- So does an encode's, whichever check comes first (45_orchestration.md R208). -/
theorem encodePlan_result (k : ColorKind) (w h : Dim) (s : State) :
    (encodePlan k w h s).2 = okRecord 0 0 ∨ (encodePlan k w h s).2 = Err.record .invalidImageData := by
  unfold encodePlan
  split
  · exact .inr rfl
  · exact packPlan_result k s.smp s.thr w h

/-- `PACK.*` delivers no payload (44_pack.md R176). -/
theorem exec_packs_deliversItsRow {i : Instr} {k : ColorKind} {w h : Dim} {x : Octet} {s t : State}
    (hi : Packs i k w h x) (ha : s.activity = .idle) (ht : exec i s = .next t) : DeliversItsRow i s t := by
  have hw : Writes s (packPlan k s.smp x w h) (.next t) := ht ▸ exec_packs hi ha ▸ runPack_writes k w h x s
  have hp := packPlan_result k s.smp x w h
  rcases hi with ⟨-, rfl⟩ | ⟨-, rfl⟩
  all_goals exact hw.deliversItsRow (by simp [mayRaise]) (hp.imp (⟨·, rfl, rfl⟩) (⟨_, by simp [mayRaise], ·⟩))

/-- `ENCODE.*` delivers no payload (45_orchestration.md R207). -/
theorem exec_encodes_deliversItsRow {i : Instr} {k : ColorKind} {w h : Dim} {s t : State} (hi : Encodes i k w h)
    (ha : s.activity = .idle) (ht : exec i s = .next t) : DeliversItsRow i s t := by
  have hw : Writes s (encodePlan k w h s) (.next t) := ht ▸ exec_encodes hi ha ▸ runEncode_writes k w h s
  have hp := encodePlan_result k w h s
  rcases hi with ⟨-, rfl⟩ | ⟨-, rfl⟩
  all_goals exact hw.deliversItsRow (by simp [mayRaise]) (hp.imp (⟨·, rfl, rfl⟩) (⟨_, by simp [mayRaise], ·⟩))

/-! ## Every command -/

/-- Settles O52, command by command: one that accesses no stream ends at once, one that reads keeps its progress, one
that writes has a plan. -/
theorem resultsAreThoseOfTheCommand : Obligations.ResultsAreThoseOfTheCommand := by
  intro i s t hi ha ht
  show DeliversItsRow i s t
  cases i with
  | decNew => exact exec_decNew_deliversItsRow ha ht
  | dims =>
    rw [exec_dims ha] at ht
    split at ht <;> cases ht
    exact deliversItsRow_succeed rfl ⟨rfl, rfl⟩
  | rdimg =>
    by_cases hready : s.phase = .ready
    · exact exec_unpacks_deliversItsRow (.inr ⟨rfl, hready, rfl, rfl⟩) ha ht
    · rw [exec_rdimg ha, if_neg hready] at ht
      cases ht
  | encNew =>
    cases (exec_encNew ha).symm.trans ht
    exact deliversItsRow_succeed rfl ⟨rfl, rfl⟩
  | setthr x =>
    cases (exec_setthr ha x).symm.trans ht
    exact deliversItsRow_succeed rfl ⟨rfl, rfl⟩
  | encodeL w h => exact exec_encodes_deliversItsRow (.inl ⟨rfl, rfl⟩) ha ht
  | encodeC w h => exact exec_encodes_deliversItsRow (.inr ⟨rfl, rfl⟩) ha ht
  | rdhdr => exact exec_rdhdr_deliversItsRow ha ht
  | wrhdr w h =>
    exact Writes.deliversItsRow (ht ▸ exec_wrhdr_writes ha w h) (by simp [mayRaise]) (.inl ⟨rfl, rfl, rfl⟩)
  | unpack w h => exact exec_unpacks_deliversItsRow (.inl rfl) ha ht
  | packL w h x => exact exec_packs_deliversItsRow (.inl ⟨rfl, rfl⟩) ha ht
  | packC w h x => exact exec_packs_deliversItsRow (.inr ⟨rfl, rfl⟩) ha ht
  | vldec => exact exec_vldec_deliversItsRow ha ht
  | vlenc v => exact Writes.deliversItsRow (ht ▸ exec_vlenc_writes ha v) (by simp [mayRaise]) (.inl ⟨rfl, rfl, rfl⟩)
  | thrcmpL v x =>
    cases (exec_thrcmpL ha v x).symm.trans ht
    exact deliversItsRow_succeed rfl ⟨bitPayload_thrcmpLuma v x, rfl⟩
  | thrcmpC r g b a x =>
    cases (exec_thrcmpC ha r g b a x).symm.trans ht
    exact deliversItsRow_succeed rfl ⟨bitPayload_thrcmpRgba r g b a x, rfl⟩
  | typeOk | typeBad | fixhdrOk | fixhdrExt | vleCont | vleLast | pixoct => cases hi

/-! ## Buffers of the wrong length -/

/-- Settles O35: the length check comes before the first read, and its error ends the command. -/
theorem shortPixelBufferIsAUsageError : Obligations.ShortPixelBufferIsAUsageError := by
  intro i w h s hi ha hshort
  have hstart : startUnpack w h s = raise .usageError s := if_pos ((pixTooShort_iff _ w h).mpr hshort)
  rw [exec_unpacks hi ha, hstart]
  exact ⟨_, readLoop_raise _ _ s, ended_finish _ s, quiet_finish _ s⟩

/-- With samples of the wrong length a pack has no octet to write (44_pack.md R177). -/
theorem packPlan_of_misfit {k : ColorKind} {m : Memory} {w h : Dim} (hl : smpWrongLength m.len k w h = true)
    (t : Octet) : packPlan k m t w h = ([], Err.record .invalidImageData) := if_pos hl

/-- Settles O39: the pack's plan holds no octet. -/
theorem wrongSampleLengthStopsPack : Obligations.WrongSampleLengthStopsPack := by
  intro i k w h t s hi ha hl
  have hwrites : Writes s (packPlan k s.smp t w h) (exec i s) := exec_packs hi ha ▸ runPack_writes k w h t s
  rw [packPlan_of_misfit ((smpWrongLength_iff _ k w h).mpr hl)] at hwrites
  obtain ⟨u, hexec, hquiet, hend⟩ := hwrites.nothing
  exact ⟨u, hexec, hend, hquiet⟩

/-- With samples of the wrong length an encode writes the whole header, or nothing where the check comes first
(45_orchestration.md R208). -/
theorem encodePlan_of_misfit {k : ColorKind} {w h : Dim} {s : State} (hl : smpWrongLength s.smp.len k w h = true) :
    encodePlan k w h s =
      (if s.cfg.encodeCheckOrder = .checkFirst then [] else headerOctets w h, Err.record .invalidImageData) := by
  rw [encodePlan, packPlan_of_misfit hl]
  by_cases horder : s.cfg.encodeCheckOrder = .checkFirst <;> simp [horder, hl]

section
variable {s : State} {p : List Octet × Result} {o : Host.Outcome State Fault Refusal}

/-- A sink that accepts as many writes as there are octets takes them all (20_memory.md R45). -/
theorem Writes.accepted (h : Writes s p o) {rest : List WriteAnswer}
    (hs : s.snkAnswers = List.replicate p.1.length .accept ++ rest) :
    ∃ u, o = .next u ∧ Ended p.2 s u ∧ u.snkAnswers = rest ∧ WritesOctets p.1 s u := by
  obtain ⟨n, u, rfl, hle, hpend, hf, hsnk, hans⟩ := h
  obtain ⟨t, ht, hft, hkt, hat, hend⟩ := pending_all_accepted p.1 hle hpend (hans.trans hs)
  exact ⟨t, ht, hend, hat, (hf.trans hft).writesOctets (hsnk ▸ hkt)⟩

/-- The write after `n` accepted ones fails: the octets before it stay (60_exceptions.md R221, R230, R232). -/
theorem Writes.failed (h : Writes s p o) {n : Nat} {c : IoCause} {rest : List WriteAnswer} (hn : n < p.1.length)
    (hs : s.snkAnswers = List.replicate n .accept ++ .fail c :: rest) :
    ∃ u, o = .next u ∧ Ended (Err.record (.ioError c)) s u ∧ u.snkAnswers = rest ∧ WritesOctets (p.1.take n) s u := by
  obtain ⟨_, u, rfl, hle, hpend, hf, hsnk, hans⟩ := h
  obtain ⟨t, ht, hft, hkt, hat, hend⟩ := pending_failed n hle hpend hn (hans.trans hs)
  exact ⟨t, ht, hend, hat, (hf.trans hft).writesOctets (hsnk ▸ hkt)⟩

/-- The write after `n` accepted ones is not answered: the operation stands there, and goes on by one octet a step once
the sink is plain (20_memory.md R45, R48). -/
theorem Writes.unanswered (h : Writes s p o) {n : Nat} {rest : List WriteAnswer} (hn : n < p.1.length)
    (hs : s.snkAnswers = List.replicate n .accept ++ .silent :: rest) :
    ∃ u, o = .next u ∧ Blocked s u ∧ u.snkAnswers = .silent :: rest ∧ WritesOctets (p.1.take n) s u ∧
      ∀ m, n + m ≤ p.1.length →
        ∃ t, runSteps m { u with snkAnswers := [] } = .next t ∧ WritesOctets (p.1.take (n + m)) s t ∧
          (n + m < p.1.length → Blocked s t) ∧ (n + m = p.1.length → Ended p.2 s t) := by
  obtain ⟨_, u, rfl, hle, hpend, hf, hsnk, hans⟩ := h
  obtain ⟨t, ht, hft, hkt, hat, -, -, hpt⟩ := pending_silent n hle hpend hn (hans.trans hs)
  have hst : WriteFrame s t := hf.trans hft
  have hkt : t.snk = s.snk ++ p.1.take n := hsnk ▸ hkt
  exact ⟨t, ht, hpt.blocked (mt List.drop_eq_nil_iff.mp (Nat.not_le.mpr hn)), hat, hst.writesOctets hkt,
    fun m hm => pending_resumed hst hkt hpt hm⟩

end

/-- Settles O44: under `header_first` the encode's plan is the header, under `check_first` it holds no octet; in both it
ends with `InvalidImageData`. -/
theorem wrongSampleLengthStopsEncode : Obligations.WrongSampleLengthStopsEncode := by
  intro i k w h s hi ha hl
  have hwrites : Writes s (encodePlan k w h s) (exec i s) := exec_encodes hi ha ▸ runEncode_writes k w h s
  rw [encodePlan_of_misfit ((smpWrongLength_iff _ k w h).mpr hl)] at hwrites
  cases horder : s.cfg.encodeCheckOrder with
  | headerFirst =>
    rw [if_neg (by simp [horder])] at hwrites
    exact ⟨fun _ hp => hwrites.plain hp, fun rest _ hs => hwrites.accepted hs,
      fun n c rest _ hn hs => hwrites.failed hn hs, fun n rest _ hn hs => hwrites.unanswered hn hs, nofun⟩
  | checkFirst =>
    rw [if_pos horder] at hwrites
    obtain ⟨u, hexec, hquiet, hend⟩ := hwrites.nothing
    exact ⟨nofun, nofun, nofun, nofun, fun _ => ⟨u, hexec, hend, hquiet⟩⟩

end Sys2Proof.Machine

/-! Proof of the statement about an idle block at an empty command port (70_reset_and_hazards.md R261). -/

namespace Sys2Proof.Machine

/-- At an empty command port the fetch is over at once, with the state as it is. -/
theorem fetchCommand_of_no_command {s : State} (hc : s.cmds = []) : fetchCommand s = .done s := by
  simp [fetchCommand, hc]

/-- Settles O12: an idle block runs what its command port offers, and an empty port offers nothing to run. -/
theorem idleBlockWaitsForACommand : Obligations.IdleBlockWaitsForACommand := by
  intro s ha hc
  calc step s = runFetched (fetchCommand s) := step_idle ha
    _ = runFetched (.done s) := by rw [fetchCommand_of_no_command hc]
    _ = .next s := rfl

end Sys2Proof.Machine

/-! Proof of the statement about the state after reset and the invariant (10_state.md R25, 70_reset_and_hazards.md
R260). -/

namespace Sys2Proof.Machine

/-- With nothing attached the position is at the end of an empty source, and both buffers are empty, which every
`LEN_BITS` allows (log 4). -/
theorem reset_envOk : State.reset.EnvOk :=
  ⟨Nat.le_refl 0, rfl, rfl, Nat.two_pow_pos _, Nat.two_pow_pos _⟩

/-- The reset input changes nothing right after reset. -/
theorem resetInput_reset : State.reset.resetInput = State.reset := rfl

/-- Settles O2: the reset input leads to the invariant from every sound environment, and the state after reset is its
own image under it. -/
theorem resetStateMeetsInvariant : Obligations.ResetStateMeetsInvariant := by
  have himage : ∀ s : State, s.EnvOk → s.resetInput.Inv := fun _ he => resetInput_inv he
  exact ⟨resetInput_reset ▸ himage State.reset reset_envOk, himage⟩

end Sys2Proof.Machine
